-- ==== Sys2Proof/Word.lean ====
section
/-! DEFINITION. The word types of the core: a byte of either memory, and the 32-bit registers
(00_scope.md R7, `ADDR_W` = 32). -/

namespace Sys2Proof

/-- A byte of `IN_MEM` or `OUT_MEM`. -/
abbrev Byte := BitVec 8

/-- A 32-bit register, byte address, byte count or length (R7, decision D3). -/
abbrev Word := BitVec 32

end Sys2Proof
end

