-- ==== Sys2Proof/Config.lean ====
section
/-! DEFINITION. What is fixed for every instance of the core (00_scope.md R7), and the free values:
what the spec leaves open and the machine goes on with. The free values are opaque, so nothing can
be proved about which value they are. The OPEN parameters of R7 are plain data, `Machine.Params`. -/

namespace Sys2Proof.Config

/-- `MAX_BITS`: the longest literal/length or distance code (R7). -/
def maxBits : Nat := 15

/-- `CL_MAX_BITS`: the longest code-length code (R7). -/
def clMaxBits : Nat := 7

/-- `READBITS_MAX`: the largest `n` that `ReadBits(n)` accepts (R7, R131). -/
def readBitsMax : Nat := 32

/-- `CHECK_NLEN` = 1: a stored block's NLEN is checked (R7, decision D8). -/
def checkNlen : Bool := true

/-- `CHECK_FDICT` = 1: a set FDICT is rejected (R7, decision D9). -/
def checkFdict : Bool := true

/-- `HLIT_MAX`: the largest accepted HLIT (R7, decision D10). -/
def hlitMax : Nat := 286

/-- `HDIST_MAX`: the largest accepted HDIST (R7, decision D10). -/
def hdistMax : Nat := 30

/-- `WINDOW_LIMIT`: the largest accepted distance beyond the check against the bytes already output:
none (R7, R205, decision D14). -/
def windowLimit : Option Nat := none

/-- The least `TREE_NODE_CAP` the spec allows (R7, R152): no build needs more nodes, so the cap
never shows, and no rule reads it. -/
def treeNodeCap : Nat := 4321

/-- FREE VALUE. The byte at address `a` of `IN_MEM` that nothing has written since the reset number
`epoch` (R44, R441: "any value"; log 4). -/
opaque inInit (epoch a : Nat) : Byte

/-- FREE VALUE. The byte of draw number `i`, where the spec says "any value" (R445, U9, U10; log 4,
log 5, log 13). -/
opaque anyByte (i : Nat) : Byte

/-- FREE VALUE. The value of draw number `i`, for a register read of a width or alignment the
register block does not have (R66, U14; log 13). -/
opaque anyValue (i : Nat) : Nat

/-- FREE VALUE. Which of the candidate bytes of a raced address of `IN_MEM` the host reads there,
since the reset number `epoch` (log 27). It depends on nothing that a read changes (R70). -/
opaque hostPick (epoch a : Nat) (candidates : List Byte) : Nat

/-- FREE VALUE. The choice of draw number `i` among the candidate bytes of a raced address (R444,
R445, U11, U12; log 6). -/
opaque pick (i : Nat) : Nat

end Sys2Proof.Config
end

