-- ==== Sys2Proof/Syntax.lean ====
section
/-! DEFINITION. The instructions: one constructor per row of spec/opcode_table.json. An instruction
is what the selecting bits of its format name (30_encoding.md R90, R103); its other operands (extra
bits, the distance of a length instruction, a stored block's data) follow in the stream and are read
by its meaning, in the order of the rule's pseudocode. -/

namespace Sys2Proof

/-- The instructions of the core (R12, R90). -/
inductive Instr where
  /-- START: a host write of 1 to `CTRL.START` (R320). -/
  | start
  /-- ZLIB_HDR: the two header bytes CMF and FLG (R91, R321). -/
  | zlibHdr (cmf flg : Byte)
  /-- BLK_STORED: a block header with this BTYPE; the operand is BFINAL (R180, R182). -/
  | blkStored (bfinal : Bool)
  /-- BLK_FIXED: a block header with this BTYPE; the operand is BFINAL (R180, R183). -/
  | blkFixed (bfinal : Bool)
  /-- BLK_DYNAMIC: a block header with this BTYPE; the operand is BFINAL (R180, R184). -/
  | blkDynamic (bfinal : Bool)
  /-- BLK_RESERVED: a block header with this BTYPE; the operand is BFINAL (R180, R185). -/
  | blkReserved (bfinal : Bool)
  /-- LIT: symbols 0 to 255; the operand is the byte (R201). -/
  | lit (b : Byte)
  /-- EOB: symbol 256 (R202). -/
  | eob
  /-- LEN_257: literal/length symbol 257 (R207). -/
  | len257
  /-- LEN_258: literal/length symbol 258 (R208). -/
  | len258
  /-- LEN_259: literal/length symbol 259 (R209). -/
  | len259
  /-- LEN_260: literal/length symbol 260 (R210). -/
  | len260
  /-- LEN_261: literal/length symbol 261 (R211). -/
  | len261
  /-- LEN_262: literal/length symbol 262 (R212). -/
  | len262
  /-- LEN_263: literal/length symbol 263 (R213). -/
  | len263
  /-- LEN_264: literal/length symbol 264 (R214). -/
  | len264
  /-- LEN_265: literal/length symbol 265 (R215). -/
  | len265
  /-- LEN_266: literal/length symbol 266 (R216). -/
  | len266
  /-- LEN_267: literal/length symbol 267 (R217). -/
  | len267
  /-- LEN_268: literal/length symbol 268 (R218). -/
  | len268
  /-- LEN_269: literal/length symbol 269 (R219). -/
  | len269
  /-- LEN_270: literal/length symbol 270 (R220). -/
  | len270
  /-- LEN_271: literal/length symbol 271 (R221). -/
  | len271
  /-- LEN_272: literal/length symbol 272 (R222). -/
  | len272
  /-- LEN_273: literal/length symbol 273 (R223). -/
  | len273
  /-- LEN_274: literal/length symbol 274 (R224). -/
  | len274
  /-- LEN_275: literal/length symbol 275 (R225). -/
  | len275
  /-- LEN_276: literal/length symbol 276 (R226). -/
  | len276
  /-- LEN_277: literal/length symbol 277 (R227). -/
  | len277
  /-- LEN_278: literal/length symbol 278 (R228). -/
  | len278
  /-- LEN_279: literal/length symbol 279 (R229). -/
  | len279
  /-- LEN_280: literal/length symbol 280 (R230). -/
  | len280
  /-- LEN_281: literal/length symbol 281 (R231). -/
  | len281
  /-- LEN_282: literal/length symbol 282 (R232). -/
  | len282
  /-- LEN_283: literal/length symbol 283 (R233). -/
  | len283
  /-- LEN_284: literal/length symbol 284 (R234). -/
  | len284
  /-- LEN_285: literal/length symbol 285 (R235). -/
  | len285
  /-- LL_RES_286: reserved literal/length symbol 286 (R236). -/
  | llRes286
  /-- LL_RES_287: reserved literal/length symbol 287 (R237). -/
  | llRes287
  /-- DIST_0: distance symbol 0 (R238). -/
  | dist0
  /-- DIST_1: distance symbol 1 (R239). -/
  | dist1
  /-- DIST_2: distance symbol 2 (R240). -/
  | dist2
  /-- DIST_3: distance symbol 3 (R241). -/
  | dist3
  /-- DIST_4: distance symbol 4 (R242). -/
  | dist4
  /-- DIST_5: distance symbol 5 (R243). -/
  | dist5
  /-- DIST_6: distance symbol 6 (R244). -/
  | dist6
  /-- DIST_7: distance symbol 7 (R245). -/
  | dist7
  /-- DIST_8: distance symbol 8 (R246). -/
  | dist8
  /-- DIST_9: distance symbol 9 (R247). -/
  | dist9
  /-- DIST_10: distance symbol 10 (R248). -/
  | dist10
  /-- DIST_11: distance symbol 11 (R249). -/
  | dist11
  /-- DIST_12: distance symbol 12 (R250). -/
  | dist12
  /-- DIST_13: distance symbol 13 (R251). -/
  | dist13
  /-- DIST_14: distance symbol 14 (R252). -/
  | dist14
  /-- DIST_15: distance symbol 15 (R253). -/
  | dist15
  /-- DIST_16: distance symbol 16 (R254). -/
  | dist16
  /-- DIST_17: distance symbol 17 (R255). -/
  | dist17
  /-- DIST_18: distance symbol 18 (R256). -/
  | dist18
  /-- DIST_19: distance symbol 19 (R257). -/
  | dist19
  /-- DIST_20: distance symbol 20 (R258). -/
  | dist20
  /-- DIST_21: distance symbol 21 (R259). -/
  | dist21
  /-- DIST_22: distance symbol 22 (R260). -/
  | dist22
  /-- DIST_23: distance symbol 23 (R261). -/
  | dist23
  /-- DIST_24: distance symbol 24 (R262). -/
  | dist24
  /-- DIST_25: distance symbol 25 (R263). -/
  | dist25
  /-- DIST_26: distance symbol 26 (R264). -/
  | dist26
  /-- DIST_27: distance symbol 27 (R265). -/
  | dist27
  /-- DIST_28: distance symbol 28 (R266). -/
  | dist28
  /-- DIST_29: distance symbol 29 (R267). -/
  | dist29
  /-- DIST_RES_30: reserved distance symbol 30 (R268). -/
  | distRes30
  /-- DIST_RES_31: reserved distance symbol 31 (R269). -/
  | distRes31
  /-- CL_LEN: code-length symbols 0 to 15; the operand is the code length (R295). -/
  | clLen (len : BitVec 4)
  /-- CL_REP16: repeat the previous length (R296). -/
  | clRep16
  /-- CL_REP17: a short run of zeros (R297). -/
  | clRep17
  /-- CL_REP18: a long run of zeros (R298). -/
  | clRep18
  deriving DecidableEq, Repr

/-- The 29 length instructions, in the order of their symbols 257 to 285 (R103). -/
def lenInstrs : List Instr :=
  [.len257, .len258, .len259, .len260, .len261, .len262, .len263, .len264, .len265, .len266,
   .len267, .len268, .len269, .len270, .len271, .len272, .len273, .len274, .len275, .len276,
   .len277, .len278, .len279, .len280, .len281, .len282, .len283, .len284, .len285]

/-- The two reserved literal/length symbols 286 and 287 (R236, R237). -/
def llResInstrs : List Instr := [.llRes286, .llRes287]

/-- The 30 distance instructions, in the order of their symbols 0 to 29 (R103). -/
def distInstrs : List Instr :=
  [.dist0, .dist1, .dist2, .dist3, .dist4, .dist5, .dist6, .dist7, .dist8, .dist9,
   .dist10, .dist11, .dist12, .dist13, .dist14, .dist15, .dist16, .dist17, .dist18, .dist19,
   .dist20, .dist21, .dist22, .dist23, .dist24, .dist25, .dist26, .dist27, .dist28, .dist29]

/-- The two reserved distance symbols 30 and 31 (R268, R269). -/
def distResInstrs : List Instr := [.distRes30, .distRes31]

end Sys2Proof
end

