-- ==== Sys2Proof/Machine/State.lean ====
section
/-! DEFINITION. The state of the core, as plain data: every register, array, tree and memory of
10_state.md, the operands of an instruction in flight, and the host agent's coming accesses; the
reasons a step can stop; and the state after reset (10_state.md R44, 70_reset_and_hazards.md R440). -/

namespace Sys2Proof.Machine

/-- `PHASE`: the kind of instruction the engine executes next (R22). The codes 5 to 7 are never
held, so they have no constructor. -/
inductive Phase where
  /-- The engine waits for START. -/
  | idle
  /-- The zlib header. -/
  | zhdr
  /-- A block header, and for a stored block the whole block. -/
  | bhdr
  /-- One code-length symbol of a dynamic header. -/
  | dynLens
  /-- One literal/length symbol of a fixed or dynamic block. -/
  | lz
  deriving DecidableEq, Repr

/-- The error kinds (R400). -/
inductive ErrKind where
  /-- The stream is malformed (R401). -/
  | corrupt
  /-- The input ends before the block logically ends (R402). -/
  | outOfData
  /-- The output does not fit in `OUT_CAP` (R403). -/
  | outOfMemory
  deriving DecidableEq, Repr

/-- A Huffman tree (R39, R140). R43 lets a model represent a tree by any structure with the same
`Decode`; here a node holds its two subtrees instead of two handles (log 10). -/
inductive Tree where
  /-- No child: the handle option `none`. -/
  | absent
  /-- `Leaf(symbol)`. -/
  | leaf (sym : Nat)
  /-- `Internal(child0, child1)`. -/
  | node (child0 child1 : Tree)
  deriving DecidableEq, Repr

/-- A root with no children, the tree of an all-zero length set (R146). -/
def Tree.empty : Tree := .node .absent .absent

/-- The two byte memories (R72). -/
inductive Space where
  | inMem
  | outMem
  deriving DecidableEq, Repr

/-- What stands at a platform address. -/
inductive Target where
  /-- Offset `off` in the window of the register block. -/
  | reg (off : Nat)
  /-- Byte `a` of a memory. -/
  | mem (sp : Space) (a : Nat)
  deriving DecidableEq, Repr

/-- What happens next at the host side (R20): one access of the host, a reset, or the engine's
turn. An access is of `n` bytes, any number of them (R66), and its value `v` is the number that its
bytes stand for. It names the space and the offset in it, or the platform address (R72). -/
inductive HostOp where
  /-- The host leaves the engine one step. -/
  | engine
  /-- The reset of R440. -/
  | reset
  /-- A read of the register block (R35). -/
  | regRead (off n : Nat)
  /-- A write of the register block (R35). -/
  | regWrite (off n v : Nat)
  /-- A read of a memory (R66). -/
  | memRead (sp : Space) (a n : Nat)
  /-- A write of a memory (R66). -/
  | memWrite (sp : Space) (a n v : Nat)
  /-- A read at a platform address (R35, R72). -/
  | busRead (addr n : Nat)
  /-- A write at a platform address (R35, R72). -/
  | busWrite (addr n v : Nat)
  deriving DecidableEq, Repr

/-- The OPEN parameters of one machine (R7, 93 section 3). No step changes them. -/
structure Params where
  /-- `IN_MEM_SIZE`, 1 to 2^32 - 1. -/
  inMemSize : Word
  /-- `OUT_MEM_SIZE`, 1 to 2^32 - 1. -/
  outMemSize : Word
  /-- `REG_BASE`. -/
  regBase : Nat
  /-- The bytes of the platform's window for the register block (R35, log 23). -/
  regWindow : Nat
  /-- `IN_BASE`. -/
  inBase : Nat
  /-- `OUT_BASE`. -/
  outBase : Nat
  /-- `HOST_MEM_ENDIAN`: true for big-endian. -/
  hostBigEndian : Bool
  deriving DecidableEq, Repr

/-- Two ranges of `n` and `m` bytes have no byte in common. -/
abbrev Apart (a n b m : Nat) : Prop := a + n ≤ b ∨ b + m ≤ a

/-- The constraints on the OPEN parameters (R7; R72 and 93 section 3): sizes of at least one byte, a
32-byte-aligned register block of 0x20 bytes or more with its window, and three disjoint spaces. -/
abbrev Params.Legal (p : Params) : Prop :=
  (p.inMemSize ≠ 0 ∧ p.outMemSize ≠ 0) ∧ (p.regBase % 32 = 0 ∧ 0x20 ≤ p.regWindow) ∧
    Apart p.regBase p.regWindow p.inBase p.inMemSize.toNat ∧
    Apart p.regBase p.regWindow p.outBase p.outMemSize.toNat ∧
    Apart p.inBase p.inMemSize.toNat p.outBase p.outMemSize.toNat

/-- A byte memory: the bytes that have a value, by address (log 4). -/
abbrev Memory := List Host.Cell

structure State where
  /-- The parameters of this machine. -/
  params : Params
  /-- `PHASE` (R22). -/
  phase : Phase
  /-- `BYTE_POS` (R23). -/
  bytePos : Word
  /-- `BIT_OFF` (R24). -/
  bitOff : BitVec 3
  /-- `STATUS.DONE` (R28). -/
  done : Bool
  /-- `STATUS.ERR` (R28): `none` is code 0. -/
  err : Option ErrKind
  /-- `IN_LEN` (R29). -/
  inLen : Word
  /-- `OUT_CAP` (R30). -/
  outCap : Word
  /-- `OUT_LEN` (R31). -/
  outLen : Word
  /-- `BLK_CNT` (R34). -/
  blkCnt : Word
  /-- `BFINAL_LATCH` (R32). -/
  bfinal : Bool
  /-- `BTYPE_LATCH` (R33). -/
  btype : BitVec 2
  /-- `HLIT` (R36). -/
  hlit : BitVec 9
  /-- `HDIST` (R36). -/
  hdist : BitVec 5
  /-- `HCLEN` (R36). -/
  hclen : BitVec 5
  /-- `CL_LENS[0..18]` (R37). -/
  clLens : List (BitVec 3)
  /-- The filled entries of `LENS`; their number is `LENS_IDX` (R38, log 9). -/
  lens : List (BitVec 4)
  /-- `TREE_LL` (R39). -/
  treeLL : Tree
  /-- `TREE_D` (R39). -/
  treeD : Tree
  /-- `TREE_CL` (R39). -/
  treeCL : Tree
  /-- `IN_MEM` (R41). -/
  inMem : Memory
  /-- `OUT_MEM` (R42). -/
  outMem : Memory
  /-- The length operand of a length instruction in flight (R90, R203, log 8). -/
  lenOp : Option (BitVec 9)
  /-- The distance operand a distance instruction has delivered (R203, log 8). -/
  distOp : Option (BitVec 16)
  /-- Bytes an `IN_MEM` address may still read as: old and new values of host writes made while
  BUSY (R444, log 6). -/
  inRace : List Host.Cell
  /-- The same for `OUT_MEM` (R445, log 6). -/
  outRace : List Host.Cell
  /-- The host's coming accesses, oldest first (R20, log 1). -/
  hostQ : List HostOp
  /-- What the host's last read returned (log 1): a number of the width of that access. -/
  hostRData : Nat
  /-- The number of the next draw of a free value (log 6). The model's own. -/
  drawIdx : Nat
  /-- The number of resets so far, which names the unknown contents of `IN_MEM` (log 4). The
  model's own. -/
  epoch : Nat
  deriving DecidableEq, Repr

/-- Why the machine stops. The spec's own errors are not here: they end the command with a next
state (R407). -/
inductive Fault where
  /-- Raised by `readIn` and by a host access: `IN_MEM` has no byte `a` (R72). Safe: the engine
  never forms such an address (R73), and for a host access the spec gives no effect. -/
  | inAddr (a : Nat)
  /-- Raised by `readOut`, `writeOut` and a host access: `OUT_MEM` has no byte `a` (R72). Safe, for
  the same reason. -/
  | outAddr (a : Nat)
  /-- Raised by a host access at a platform address where no space of the core stands (R72). Safe: the
  spec gives it no effect. -/
  | busAddr (addr : Nat)
  deriving DecidableEq, Repr

/-- Why the model gives no next state. -/
inductive Refusal where
  /-- Raised by `exec` for an instruction that has no meaning yet. Safe. -/
  | notModelled (mnemonic : String)
  /-- Raised by `readBits`: more than 32 bits asked for, which R131 and decision D35 have a model
  refuse. Safe: no rule asks for more than 13. -/
  | readBitsTooWide (n : Nat)
  deriving DecidableEq, Repr

/-- The parameters of the machine `State.reset` is: the largest memories the spec allows, the register
block at 0 with a window of 4096 bytes, `IN_MEM` at 2^32, `OUT_MEM` at 2^33, little-endian host
accesses (DESIGN CHOICE, unsafe, log 2). -/
def Params.default : Params where
  inMemSize := 0xFFFFFFFF#32
  outMemSize := 0xFFFFFFFF#32
  regBase := 0
  regWindow := 0x1000
  inBase := 2 ^ 32
  outBase := 2 ^ 33
  hostBigEndian := false

/-- The state after reset of a machine with parameters `p` (R44, R440). What R44 calls unspecified
has a value of log 3; the memories hold no defined byte (log 4). -/
def State.resetWith (p : Params) : State where
  params := p
  phase := .idle
  bytePos := 0
  bitOff := 0
  done := false
  err := none
  inLen := 0
  outCap := p.outMemSize
  outLen := 0
  blkCnt := 0
  bfinal := false
  btype := 0
  hlit := 0
  hdist := 0
  hclen := 0
  clLens := List.replicate 19 0
  lens := []
  treeLL := Tree.empty
  treeD := Tree.empty
  treeCL := Tree.empty
  inMem := []
  outMem := []
  lenOp := none
  distOp := none
  inRace := []
  outRace := []
  hostQ := []
  hostRData := 0
  drawIdx := 0
  epoch := 0

/-- The machine right after reset. -/
def State.reset : State := State.resetWith Params.default

end Sys2Proof.Machine
end

