-- ==== Sys2Proof/Machine/Ops.lean ====
section
/-! DEFINITION. The named operations over registers and memories: the updates of State, the byte
memories, the draws of free values, error entry (R407) and the way back from it (R320, R408), the
bit reader (41_bit_reader.md), the output buffer (48_output_buffer.md) and the backward copy
(R204). -/

namespace Sys2Proof.Machine

/-! ### Updates of State -/

def State.setCursor (bp : Word) (bo : BitVec 3) (s : State) : State :=
  { s with bytePos := bp, bitOff := bo }
def State.setPhase (p : Phase) (s : State) : State := { s with phase := p }
def State.setStatus (d : Bool) (e : Option ErrKind) (s : State) : State :=
  { s with done := d, err := e }
def State.setInLen (n : Word) (s : State) : State := { s with inLen := n }
def State.setOutCap (n : Word) (s : State) : State := { s with outCap := n }
def State.setOutLen (n : Word) (s : State) : State := { s with outLen := n }
def State.setBlkCnt (n : Word) (s : State) : State := { s with blkCnt := n }
def State.setLatches (f : Bool) (t : BitVec 2) (s : State) : State :=
  { s with bfinal := f, btype := t }
def State.setHlit (n : BitVec 9) (s : State) : State := { s with hlit := n }
def State.setHdist (n : BitVec 5) (s : State) : State := { s with hdist := n }
def State.setHclen (n : BitVec 5) (s : State) : State := { s with hclen := n }
def State.setClLens (l : List (BitVec 3)) (s : State) : State := { s with clLens := l }
def State.setLens (l : List (BitVec 4)) (s : State) : State := { s with lens := l }
def State.setTreeLL (t : Tree) (s : State) : State := { s with treeLL := t }
def State.setTreeD (t : Tree) (s : State) : State := { s with treeD := t }
def State.setTreeCL (t : Tree) (s : State) : State := { s with treeCL := t }
def State.setInMem (m : Memory) (s : State) : State := { s with inMem := m }
def State.setOutMem (m : Memory) (s : State) : State := { s with outMem := m }
def State.setLenOp (o : Option (BitVec 9)) (s : State) : State := { s with lenOp := o }
def State.setDistOp (o : Option (BitVec 16)) (s : State) : State := { s with distOp := o }
def State.setInRace (r : List Host.Cell) (s : State) : State := { s with inRace := r }
def State.setOutRace (r : List Host.Cell) (s : State) : State := { s with outRace := r }
def State.setHostQ (q : List HostOp) (s : State) : State := { s with hostQ := q }
def State.setHostRData (v : Nat) (s : State) : State := { s with hostRData := v }
def State.setDrawIdx (n : Nat) (s : State) : State := { s with drawIdx := n }
def State.setEpoch (n : Nat) (s : State) : State := { s with epoch := n }

/-! ### Derived registers -/

/-- `BUSY` is `PHASE != IDLE` (R22). -/
def State.busy (s : State) : Bool := s.phase != .idle

/-- `LENS_IDX`: the number of entries of LENS filled (R38). -/
def State.lensIdx (s : State) : Nat := s.lens.length

/-- `HLIT + HDIST`, the number of code lengths a dynamic header transmits (R294). -/
def State.lensTotal (s : State) : Nat := s.hlit.toNat + s.hdist.toNat

/-- The stream position `8*BYTE_POS + BIT_OFF` (R9). -/
def State.pos (s : State) : Nat := 8 * s.bytePos.toNat + s.bitOff.toNat

/-- The state with its cursor at stream position `k`. -/
def State.atPos (k : Nat) (s : State) : State :=
  s.setCursor (BitVec.ofNat 32 (k / 8)) (BitVec.ofNat 3 k)

/-! ### Results of an operation -/

/-- How an operation inside a step ends: with a value, by raising an error kind (R10), or by a stop
of the model. -/
inductive Res (α : Type) where
  | ok (a : α) (s : State)
  | raise (k : ErrKind) (s : State)
  | fault (f : Fault)
  | refused (r : Refusal)

/-- Sequencing: nothing after a `raise` runs (R10). -/
def Res.bind {α β : Type} (x : Res α) (f : α → State → Res β) : Res β :=
  match x with
  | .ok a s => f a s
  | .raise k s => .raise k s
  | .fault e => .fault e
  | .refused r => .refused r

/-- Error entry (R407): the command ends with kind `k` in ERR. The output length becomes 0 and no
byte of `OUT_MEM` has a value any more (R354, log 5). The cursor, BLK_CNT and the latches keep what
the rules left; the operands of an instruction in flight are gone (log 8). -/
def raiseError (k : ErrKind) (s : State) : State :=
  (((((s.setStatus true (some k)).setOutLen 0).setPhase .idle).setOutMem []).setLenOp none).setDistOp
    none

/-- START (R320), the only way on after an error (R408). `OUT_MEM` and `IN_MEM` keep their bytes, and
no byte is raced yet in the new command (log 6). -/
def startCommand (s : State) : State :=
  (((((((((s.setCursor 0 0).setOutLen 0).setBlkCnt 0).setLatches false 0).setStatus false
    none).setPhase .zhdr).setLenOp none).setDistOp none).setInRace []).setOutRace []

/-- An operation that ends a step: a raised error takes the error entry. -/
def Res.finish (x : Res Unit) : Host.Outcome State Fault Refusal :=
  match x with
  | .ok _ s => .next s
  | .raise k s => .next (raiseError k s)
  | .fault f => .fault f
  | .refused r => .refused r

/-! ### Byte memories -/

/-- The value of the byte at `a`, if it has one. -/
def Memory.get : Memory → Nat → Option Byte
  | [], _ => none
  | c :: m, a => if c.1 = a then some c.2 else Memory.get m a

/-- The memory with byte `a` set to `b`. -/
def Memory.set : Memory → Nat → Byte → Memory
  | [], a, b => [(a, b)]
  | c :: m, a, b =>
    if a < c.1 then (a, b) :: c :: m
    else if a = c.1 then (a, b) :: m
    else c :: Memory.set m a b

/-- The canonical form: addresses strictly rising. An unlisted byte has no value, so no entry
equals what an unlisted address reads as (log 4). -/
abbrev Memory.wf (m : Memory) : Prop := m.Pairwise (fun c d => c.1 < d.1)

/-- The candidate bytes of a raced address. -/
def raceAt (r : List Host.Cell) (a : Nat) : List Byte := (r.filter (fun c => c.1 == a)).map (·.2)

/-- A read of a byte whose memory holds `b` and whose races left the candidates `alts`: with no
race it is `b`; otherwise a draw among all of them (R444, R445). -/
def drawByte (b : Byte) (alts : List Byte) (s : State) : Res Byte :=
  match alts with
  | [] => .ok b s
  | _ :: _ =>
    .ok ((b :: alts).getD (Config.pick s.drawIdx % (alts.length + 1)) b) (s.setDrawIdx (s.drawIdx + 1))

/-- The byte `IN_MEM` holds at `a`; one that nothing has written since reset is any byte, always the
same (R44, R70). -/
def State.inByte (s : State) (a : Nat) : Byte := (s.inMem.get a).getD (Config.inInit s.epoch a)

/-- `MemRead(IN, a, 1)` by the engine (R10, R70). -/
def readIn (a : Nat) (s : State) : Res Byte :=
  if s.params.inMemSize.toNat ≤ a then .fault (.inAddr a)
  else drawByte (s.inByte a) (raceAt s.inRace a) s

/-- `MemRead(OUT, a, 1)` (R10). A byte without a value is any byte, at each read (R44, R354). -/
def readOut (a : Nat) (s : State) : Res Byte :=
  if s.params.outMemSize.toNat ≤ a then .fault (.outAddr a)
  else
    match s.outMem.get a with
    | some b => drawByte b (raceAt s.outRace a) s
    | none => .ok (Config.anyByte s.drawIdx) (s.setDrawIdx (s.drawIdx + 1))

/-- `MemWrite(OUT, a, 1, b)` (R10). -/
def writeOut (a : Nat) (b : Byte) (s : State) : Res Unit :=
  if s.params.outMemSize.toNat ≤ a then .fault (.outAddr a)
  else .ok () (s.setOutMem (s.outMem.set a b))

/-! ### The bit reader -/

/-- The cursor one bit on (R130). -/
def State.stepBit (s : State) : State :=
  if s.bitOff = 7 then s.setCursor (s.bytePos + 1) 0 else s.setCursor s.bytePos (s.bitOff + 1)

/-- `ReadBit()` (R130). -/
def readBit (s : State) : Res Bool :=
  if s.inLen ≤ s.bytePos then .raise .outOfData s
  else
    (readIn s.bytePos.toNat s).bind fun b s1 =>
      .ok (b.getLsbD s.bitOff.toNat) s1.stepBit

/-- The loop of `ReadBits`: `n` bits, the first of weight `2^i` (R131). -/
def readBitsFrom : Nat → Nat → State → Res Nat
  | 0, _, s => .ok 0 s
  | n + 1, i, s =>
    (readBit s).bind fun b s1 =>
      (readBitsFrom n (i + 1) s1).bind fun v s2 => .ok ((if b then 2 ^ i else 0) + v) s2

/-- `ReadBits(n)` (R131); more than `READBITS_MAX` bits are refused (D35). -/
def readBits (n : Nat) (s : State) : Res Nat :=
  if Config.readBitsMax < n then .refused (.readBitsTooWide n) else readBitsFrom n 0 s

/-- The rest of a partially consumed byte discarded (R132). -/
def State.alignByte (s : State) : State :=
  if s.bitOff = 0 then s else s.setCursor (s.bytePos + 1) 0

/-- `ReadByte()` (R132): aligns, then reads a whole byte; the alignment stays done on failure. -/
def readByte (s : State) : Res Byte :=
  let s1 := s.alignByte
  if s1.inLen ≤ s1.bytePos then .raise .outOfData s1
  else
    (readIn s1.bytePos.toNat s1).bind fun b s2 => .ok b (s2.setCursor (s2.bytePos + 1) s2.bitOff)

/-- `ReadBytes(n)` (R133). -/
def readBytes : Nat → State → Res (List Byte)
  | 0, s => .ok [] s
  | n + 1, s =>
    (readByte s).bind fun b s1 => (readBytes n s1).bind fun r s2 => .ok (b :: r) s2

/-! ### The output buffer -/

/-- One output byte written at `OUT_LEN`, which then counts it (R204, R350). -/
def emit (b : Byte) (s : State) : Res Unit :=
  (writeOut s.outLen.toNat b s).bind fun _ s1 => .ok () (s1.setOutLen (s1.outLen + 1))

/-- `Append(b)` (R350). -/
def append (b : Byte) (s : State) : Res Unit :=
  if s.outCap ≤ s.outLen then .raise .outOfMemory s else emit b s

/-- `Copy(length, dist)`: the backward copy, one byte at a time (R204). -/
def copy : Nat → Nat → State → Res Unit
  | 0, _, s => .ok () s
  | n + 1, dist, s =>
    (readOut (s.outLen.toNat - dist) s).bind fun b s1 =>
      (emit b s1).bind fun _ s2 => copy n dist s2

/-! ### The end of a block and of a command -/

/-- `Finish()` (R325). -/
def finishCommand (s : State) : State := (s.setStatus true none).setPhase .idle

/-- `BlockComplete()` (R186): BFINAL_LATCH decides whether the stream ends. -/
def blockComplete (s : State) : State :=
  let s1 := s.setBlkCnt (s.blkCnt + 1)
  if s1.bfinal then finishCommand s1 else s1.setPhase .bhdr

end Sys2Proof.Machine
end

