-- ==== Sys2Proof/Machine/Flags.lean ====
section
/-! DEFINITION. The STATUS word and its fields (10_state.md R28), and the latches that a block
header sets (R32, R33, R180). BFINAL_LATCH is the only condition flag the engine has. -/

namespace Sys2Proof.Machine

/-- The code of `PHASE` (R22). -/
def Phase.code : Phase → BitVec 3
  | .idle => 0
  | .zhdr => 1
  | .bhdr => 2
  | .dynLens => 3
  | .lz => 4

/-- The code of an error kind in `STATUS.ERR` (R400). -/
def ErrKind.code : ErrKind → BitVec 2
  | .corrupt => 1
  | .outOfData => 2
  | .outOfMemory => 3

/-- `STATUS.ERR` (R28, R400). -/
def errCode : Option ErrKind → BitVec 2
  | none => 0
  | some k => k.code

/-- STATUS (R28): bits 31:10 read 0, then BTYPE, BFINAL, PHASE, ERR, DONE and BUSY. -/
def statusWord (s : State) : Word :=
  0#22 ++ s.btype ++ BitVec.ofBool s.bfinal ++ s.phase.code ++ errCode s.err ++
    BitVec.ofBool s.done ++ BitVec.ofBool s.busy

/-- The latches after a block header with these fields (R180): written once both are read. -/
def latchHeader (bfinal : Bool) (btype : BitVec 2) (s : State) : State :=
  s.setLatches bfinal btype

end Sys2Proof.Machine
end

