-- ==== Sys2Proof/WellFormed.lean ====
section
/-! DEFINITION. Which instructions are legal encodings (30_encoding.md R104): the rows of R104 that
can be read off the instruction itself. The decoder reads the others too, because executing one has
an effect the spec gives: the command ends with Corrupt. -/

namespace Sys2Proof

/-- The 16-bit check value `H = byte0*256 + byte1` of the zlib header (R64, R91). -/
def zlibH (cmf flg : Byte) : Nat := cmf.toNat * 256 + flg.toNat

/-- CM, `byte0[3:0]` (R91). -/
def zlibCM (cmf : Byte) : Nat := cmf.toNat % 16

/-- CINFO, `byte0[7:4]` (R91). -/
def zlibCINFO (cmf : Byte) : Nat := cmf.toNat / 16

/-- FDICT, `byte1[5]` (R91). -/
def zlibFDICT (flg : Byte) : Bool := flg.getLsbD 5

/-- The zlib header is legal: CM = 8, CINFO at most 7, H a multiple of 31, FDICT clear (R91, R104).
FLEVEL is ignored (R323). -/
def zlibHdrOk (cmf flg : Byte) : Bool :=
  zlibCM cmf == 8 && zlibCINFO cmf ≤ 7 && zlibH cmf flg % 31 == 0 &&
    !(Config.checkFdict && zlibFDICT flg)

/-- The legal encodings (R104). -/
def Instr.wf : Instr → Bool
  | .zlibHdr cmf flg => zlibHdrOk cmf flg
  | .blkReserved _ => false
  | .llRes286 | .llRes287 => false
  | .distRes30 | .distRes31 => false
  | _ => true

end Sys2Proof
end

