-- ==== Sys2Proof/Decode.lean ====
section
/-! DEFINITION. The decoder, total and rejecting by name, and after it the encoder, both from the
opcode table and 30_encoding.md. An instruction is selected by a value of its format: a CTRL write,
the zlib check value, a 3-bit block header, or a decoded symbol (R90, R103). -/

namespace Sys2Proof

/-- The six formats of the opcode table (R90, R103). -/
inductive Format where
  /-- A host write to CTRL (R27). -/
  | hostCtrl
  /-- The first two input bytes, as H (R91). -/
  | zlibHeader
  /-- `V = BFINAL | (BTYPE << 1)` (R92). -/
  | blockHeader
  /-- A symbol of `TREE_LL` (R97). -/
  | litlenSymbol
  /-- A symbol of `TREE_D` (R97). -/
  | distSymbol
  /-- A symbol of `TREE_CL` (R96). -/
  | clSymbol
  deriving DecidableEq, Repr

/-- The bits of a format's selecting value, as the opcode table numbers them. -/
def Format.bits : Format → Nat
  | .hostCtrl => 32
  | .zlibHeader => 16
  | .blockHeader => 3
  | .litlenSymbol => 9
  | .distSymbol => 5
  | .clSymbol => 5

/-- Why the decoder gives no instruction. -/
inductive Reject where
  /-- A CTRL write whose bit 0 is 0 commands nothing (R27). -/
  | noStartBit
  /-- A value wider than its format. -/
  | tooWide (f : Format) (v : Nat)
  /-- A literal/length symbol above 287 (R97, R200). -/
  | litlenSymbolRange (v : Nat)
  /-- A distance symbol above 31 (R97, R203). -/
  | distSymbolRange (v : Nat)
  /-- A code-length symbol above 18 (R299). -/
  | clSymbolRange (v : Nat)
  /-- Fewer bytes than the format needs. -/
  | truncated (f : Format)
  deriving DecidableEq, Repr

/-- The instruction at index `i` of a list of the table's rows. -/
def rowAt (rows : List Instr) (i : Nat) (r : Reject) : Except Reject Instr :=
  match rows[i]? with
  | some x => .ok x
  | none => .error r

/-- A CTRL write (R27): bit 0 is START, bits 31:1 are ignored. -/
def decodeCtrl (v : Nat) : Except Reject Instr :=
  if 2 ^ 32 ≤ v then .error (.tooWide .hostCtrl v)
  else if v.testBit 0 then .ok .start else .error .noStartBit

/-- The zlib header: byte 0 is the high half of H (R64, R91). -/
def decodeZlib (v : Nat) : Except Reject Instr :=
  if 2 ^ 16 ≤ v then .error (.tooWide .zlibHeader v)
  else .ok (.zlibHdr (BitVec.ofNat 8 (v / 256)) (BitVec.ofNat 8 v))

/-- A block header: bit 0 is BFINAL, bits 2:1 are BTYPE (R92, R181). -/
def decodeBlock (v : Nat) : Except Reject Instr :=
  let f := v.testBit 0
  match v / 2 with
  | 0 => .ok (.blkStored f)
  | 1 => .ok (.blkFixed f)
  | 2 => .ok (.blkDynamic f)
  | 3 => .ok (.blkReserved f)
  | _ => .error (.tooWide .blockHeader v)

/-- A literal/length symbol (R103, R200). -/
def decodeLitlen (v : Nat) : Except Reject Instr :=
  if v < 256 then .ok (.lit (BitVec.ofNat 8 v))
  else if v = 256 then .ok .eob
  else rowAt (lenInstrs ++ llResInstrs) (v - 257) (.litlenSymbolRange v)

/-- A distance symbol (R103). -/
def decodeDist (v : Nat) : Except Reject Instr :=
  rowAt (distInstrs ++ distResInstrs) v (.distSymbolRange v)

/-- A code-length symbol (R96, R294). -/
def decodeCl (v : Nat) : Except Reject Instr :=
  if v < 16 then .ok (.clLen (BitVec.ofNat 4 v))
  else rowAt [.clRep16, .clRep17, .clRep18] (v - 16) (.clSymbolRange v)

/-- The instruction that value `v` of format `f` selects. -/
def decodeSel : Format → Nat → Except Reject Instr
  | .hostCtrl, v => decodeCtrl v
  | .zlibHeader, v => decodeZlib v
  | .blockHeader, v => decodeBlock v
  | .litlenSymbol, v => decodeLitlen v
  | .distSymbol, v => decodeDist v
  | .clSymbol, v => decodeCl v

/-- The number a little-endian list of bytes stands for. -/
def bytesToNat : List Byte → Nat
  | [] => 0
  | b :: bs => b.toNat + 256 * bytesToNat bs

/-- The decoder on bytes in address order: the zlib header has byte 0 as its high half (R64), every
other value is least significant byte first (R61). Bytes after the value are not looked at. -/
def decodeBytes : Format → List Byte → Except Reject Instr
  | .zlibHeader, b0 :: b1 :: _ => decodeSel .zlibHeader (b0.toNat * 256 + b1.toNat)
  | .litlenSymbol, b0 :: b1 :: _ => decodeSel .litlenSymbol (bytesToNat [b0, b1])
  | .hostCtrl, b0 :: b1 :: b2 :: b3 :: _ => decodeSel .hostCtrl (bytesToNat [b0, b1, b2, b3])
  | .blockHeader, b0 :: _ => decodeSel .blockHeader b0.toNat
  | .distSymbol, b0 :: _ => decodeSel .distSymbol b0.toNat
  | .clSymbol, b0 :: _ => decodeSel .clSymbol b0.toNat
  | f, _ => .error (.truncated f)

/-! ### The encoder -/

/-- The format of an instruction's row. -/
def Instr.format : Instr → Format
  | .start => .hostCtrl
  | .zlibHdr _ _ => .zlibHeader
  | .blkStored _ | .blkFixed _ | .blkDynamic _ | .blkReserved _ => .blockHeader
  | .lit _ | .eob | .llRes286 | .llRes287 => .litlenSymbol
  | .len257 | .len258 | .len259 | .len260 | .len261 | .len262 | .len263 | .len264 => .litlenSymbol
  | .len265 | .len266 | .len267 | .len268 | .len269 | .len270 | .len271 | .len272 => .litlenSymbol
  | .len273 | .len274 | .len275 | .len276 | .len277 | .len278 | .len279 | .len280 => .litlenSymbol
  | .len281 | .len282 | .len283 | .len284 | .len285 => .litlenSymbol
  | .dist0 | .dist1 | .dist2 | .dist3 | .dist4 | .dist5 | .dist6 | .dist7 => .distSymbol
  | .dist8 | .dist9 | .dist10 | .dist11 | .dist12 | .dist13 | .dist14 | .dist15 => .distSymbol
  | .dist16 | .dist17 | .dist18 | .dist19 | .dist20 | .dist21 | .dist22 | .dist23 => .distSymbol
  | .dist24 | .dist25 | .dist26 | .dist27 | .dist28 | .dist29 => .distSymbol
  | .distRes30 | .distRes31 => .distSymbol
  | .clLen _ | .clRep16 | .clRep17 | .clRep18 => .clSymbol

/-- The value of an instruction in its format (the table's match bits and the operand). -/
def Instr.selector : Instr → Nat
  | .start => 1
  | .zlibHdr cmf flg => cmf.toNat * 256 + flg.toNat
  | .blkStored f => f.toNat
  | .blkFixed f => f.toNat + 2
  | .blkDynamic f => f.toNat + 4
  | .blkReserved f => f.toNat + 6
  | .lit b => b.toNat
  | .eob => 256
  | .len257 => 257
  | .len258 => 258
  | .len259 => 259
  | .len260 => 260
  | .len261 => 261
  | .len262 => 262
  | .len263 => 263
  | .len264 => 264
  | .len265 => 265
  | .len266 => 266
  | .len267 => 267
  | .len268 => 268
  | .len269 => 269
  | .len270 => 270
  | .len271 => 271
  | .len272 => 272
  | .len273 => 273
  | .len274 => 274
  | .len275 => 275
  | .len276 => 276
  | .len277 => 277
  | .len278 => 278
  | .len279 => 279
  | .len280 => 280
  | .len281 => 281
  | .len282 => 282
  | .len283 => 283
  | .len284 => 284
  | .len285 => 285
  | .llRes286 => 286
  | .llRes287 => 287
  | .dist0 => 0
  | .dist1 => 1
  | .dist2 => 2
  | .dist3 => 3
  | .dist4 => 4
  | .dist5 => 5
  | .dist6 => 6
  | .dist7 => 7
  | .dist8 => 8
  | .dist9 => 9
  | .dist10 => 10
  | .dist11 => 11
  | .dist12 => 12
  | .dist13 => 13
  | .dist14 => 14
  | .dist15 => 15
  | .dist16 => 16
  | .dist17 => 17
  | .dist18 => 18
  | .dist19 => 19
  | .dist20 => 20
  | .dist21 => 21
  | .dist22 => 22
  | .dist23 => 23
  | .dist24 => 24
  | .dist25 => 25
  | .dist26 => 26
  | .dist27 => 27
  | .dist28 => 28
  | .dist29 => 29
  | .distRes30 => 30
  | .distRes31 => 31
  | .clLen len => len.toNat
  | .clRep16 => 16
  | .clRep17 => 17
  | .clRep18 => 18

/-- `n` bytes of `v`, least significant first. -/
def natToBytes : Nat → Nat → List Byte
  | 0, _ => []
  | n + 1, v => BitVec.ofNat 8 v :: natToBytes n (v / 256)

/-- A value of a format as bytes in address order (R61, R64). -/
def layout : Format → Nat → List Byte
  | .hostCtrl, v => natToBytes 4 v
  | .zlibHeader, v => [BitVec.ofNat 8 (v / 256), BitVec.ofNat 8 v]
  | .litlenSymbol, v => natToBytes 2 v
  | .blockHeader, v | .distSymbol, v | .clSymbol, v => natToBytes 1 v

/-- The bytes of an instruction's selecting value. -/
def encode (i : Instr) : List Byte := layout i.format i.selector

/-! ### Stream bits -/

/-- The low `n` bits of `v`, least significant first: how a field stands in the stream (R61). -/
def fieldBits : Nat → Nat → List Bool
  | 0, _ => []
  | n + 1, v => v.testBit 0 :: fieldBits n (v / 2)

/-- The `n` bits of a Huffman code `c`, most significant first: how a code stands in the stream
(R62). -/
def codeBits : Nat → Nat → List Bool
  | 0, _ => []
  | n + 1, c => c.testBit n :: codeBits n c

/-- The length and the code of literal/length symbol `s` in a fixed block (R100). -/
def fixedLitlenCode (s : Nat) : Nat × Nat :=
  if s < 144 then (8, 0x30 + s)
  else if s < 256 then (9, 0x190 + (s - 144))
  else if s < 280 then (7, s - 256)
  else (8, 0xC0 + (s - 280))

/-- The stream bits of literal/length symbol `s` in a fixed block (R100). -/
def fixedLitlenBits (s : Nat) : List Bool := codeBits (fixedLitlenCode s).1 (fixedLitlenCode s).2

/-- The stream bits of distance symbol `d` in a fixed block: the 5-bit code `d` (R101). -/
def fixedDistBits (d : Nat) : List Bool := codeBits 5 d

/-! ### The opcode table's numbering -/

/-- The format whose row a table word stands for. A row of 9 to 16 bits is a literal/length symbol
(below 2^9) or a zlib header (CM = 8, so at least 0x0800). Words of one byte overlap among four
formats: 1 is START, 0, 2, 4 and 6 are the block headers, 16 to 18 the code-length repeats, and the
other values below 32 distance symbols (DESIGN CHOICE, log 12). -/
def tableFormat (nbits w : Nat) : Option Format :=
  if nbits = 32 then some .hostCtrl
  else if nbits = 16 then some (if w < 512 then .litlenSymbol else .zlibHeader)
  else if nbits = 8 then
    if w = 1 then some .hostCtrl
    else if w < 8 && w % 2 == 0 then some .blockHeader
    else if 16 ≤ w && w ≤ 18 then some .clSymbol
    else some .distSymbol
  else none

/-- The instruction of a table word: its value laid out in bytes as its format stores it (the bits
above `nbits` zero), and decoded. -/
def decodeTableWord (nbits w : Nat) : Option Instr :=
  match tableFormat nbits w with
  | none => none
  | some f =>
    match decodeBytes f (layout f w) with
    | .ok i => some i
    | .error _ => none

end Sys2Proof
end

