-- ==== Sys2Proof/Machine/Tables.lean ====
section
/-! DEFINITION. The static tables (43_static_tables.md): constant, the same in every instance. -/

namespace Sys2Proof.Machine

/-- `FIXED_LL_LENS` (R160): 288 entries. -/
def fixedLLLens : List Nat :=
  List.replicate 144 8 ++ List.replicate 112 9 ++ List.replicate 24 7 ++ List.replicate 8 8

/-- `FIXED_D_LENS` (R161): 30 entries, all 5. -/
def fixedDLens : List Nat := List.replicate 30 5

/-- `LBASE` (R162), indexed by `S - 257`. -/
def lbase : List Nat :=
  [3, 4, 5, 6, 7, 8, 9, 10, 11, 13, 15, 17, 19, 23, 27, 31, 35, 43, 51, 59, 67, 83, 99, 115, 131,
   163, 195, 227, 258]

/-- `LEXT` (R162), indexed by `S - 257`. -/
def lext : List Nat :=
  [0, 0, 0, 0, 0, 0, 0, 0, 1, 1, 1, 1, 2, 2, 2, 2, 3, 3, 3, 3, 4, 4, 4, 4, 5, 5, 5, 5, 0]

/-- `DBASE` (R163), indexed by the distance symbol. -/
def dbase : List Nat :=
  [1, 2, 3, 4, 5, 7, 9, 13, 17, 25, 33, 49, 65, 97, 129, 193, 257, 385, 513, 769, 1025, 1537, 2049,
   3073, 4097, 6145, 8193, 12289, 16385, 24577]

/-- `DEXT` (R163), indexed by the distance symbol. -/
def dext : List Nat :=
  [0, 0, 0, 0, 1, 1, 2, 2, 3, 3, 4, 4, 5, 5, 6, 6, 7, 7, 8, 8, 9, 9, 10, 10, 11, 11, 12, 12, 13, 13]

/-- `CL_ORDER` (R164): the code-length symbol of the `i`-th 3-bit length of a dynamic header. -/
def clOrder : List Nat := [16, 17, 18, 0, 8, 7, 9, 6, 10, 5, 11, 4, 12, 3, 13, 2, 14, 1, 15]

/-- `LBASE[idx]`. -/
def lbaseAt (idx : Nat) : Nat := lbase.getD idx 0

/-- `LEXT[idx]`. -/
def lextAt (idx : Nat) : Nat := lext.getD idx 0

/-- `DBASE[ds]`. -/
def dbaseAt (ds : Nat) : Nat := dbase.getD ds 0

/-- `DEXT[ds]`. -/
def dextAt (ds : Nat) : Nat := dext.getD ds 0

end Sys2Proof.Machine
end

