-- ==== Sys2Proof/Machine/Huffman.lean ====
section
/-! DEFINITION. The canonical Huffman decoder (42_huffman.md): the tree builder and the symbol
walker. -/

namespace Sys2Proof.Machine

/-- `count[L]`: how many symbols have code length `L`; `count[0]` is 0 (R142). -/
def codeCount (lengths : List Nat) (l : Nat) : Nat := if l = 0 then 0 else lengths.count l

/-- `next_code[L]` before any code is handed out (R143). -/
def firstCode (lengths : List Nat) : Nat → Nat
  | 0 => 0
  | l + 1 => (firstCode lengths l + codeCount lengths l) * 2

/-- The check of R144 fails for some length in `1..maxbits`. -/
def overSubscribed (lengths : List Nat) (maxbits : Nat) : Bool :=
  (List.range maxbits).any fun l =>
    2 ^ (l + 1) < firstCode lengths (l + 1) + codeCount lengths (l + 1)

/-- A leaf for symbol `sym` put at the end of a code's bits, most significant first (R146). -/
def Tree.insert : Tree → List Bool → Nat → Tree
  | _, [], sym => .leaf sym
  | .node c0 c1, false :: bs, sym => .node (c0.insert bs sym) c1
  | .node c0 c1, true :: bs, sym => .node c0 (c1.insert bs sym)
  | _, false :: bs, sym => .node (Tree.absent.insert bs sym) .absent
  | _, true :: bs, sym => .node .absent (Tree.absent.insert bs sym)

/-- The codes handed out and inserted in symbol order, symbol `sym` first; `next` is `next_code`,
indexed by length (R145, R146). -/
def insertCodes : List Nat → Nat → List Nat → Tree → Tree
  | [], _, _, t => t
  | l :: ls, sym, next, t =>
    if l = 0 then insertCodes ls (sym + 1) next t
    else
      let c := next.getD l 0
      insertCodes ls (sym + 1) (next.set l (c + 1)) (t.insert (codeBits l c) sym)

/-- `Build(lengths, maxbits)` (R146): no tree when the lengths are over-subscribed (R144). -/
def build (lengths : List Nat) (maxbits : Nat) : Option Tree :=
  if overSubscribed lengths maxbits then none
  else
    some (insertCodes lengths 0 ((List.range (maxbits + 1)).map (firstCode lengths)) Tree.empty)

/-- The code of symbol `s` (R145): the first code of its length, plus the number of earlier symbols
of that length. -/
def codeOf (lengths : List Nat) (s : Nat) : Nat :=
  firstCode lengths (lengths.getD s 0) + (lengths.take s).count (lengths.getD s 0)

/-- The number of nodes of a tree (R152). -/
def Tree.nodes : Tree → Nat
  | .absent => 0
  | .leaf _ => 1
  | .node c0 c1 => 1 + c0.nodes + c1.nodes

/-- A root is an internal node (R39, R140). -/
def Tree.isNode : Tree → Bool
  | .node _ _ => true
  | _ => false

/-- `Decode(tree)` (R148): a bit is read, then the child is checked; an absent child is Corrupt
(R149). -/
def walk : Tree → State → Res Nat
  | .absent, s => .raise .corrupt s
  | .leaf sym, s => .ok sym s
  | .node c0 c1, s => (readBit s).bind fun b s1 => if b then walk c1 s1 else walk c0 s1

/-- `FIXED_TREE_LL` (R165). -/
def fixedTreeLL : Tree := (build fixedLLLens Config.maxBits).getD Tree.empty

/-- `FIXED_TREE_D` (R165). -/
def fixedTreeD : Tree := (build fixedDLens Config.maxBits).getD Tree.empty

end Sys2Proof.Machine
end

