-- ==== Sys2Proof/Machine/Operands.lean ====
section
/-! DEFINITION. Operand assembly (30_encoding.md R99): every operand is unsigned and is a plain sum
of a base and a field read from the stream. -/

namespace Sys2Proof.Machine

/-- `ReadBits(n) + base` (R99). -/
def readPlus (n base : Nat) (s : State) : Res Nat :=
  (readBits n s).bind fun x s1 => .ok (base + x) s1

/-- The length of symbol `sym` in 257 to 285: `LBASE[S-257] + ReadBits(LEXT[S-257])` (R99, R203). -/
def lengthOperand (sym : Nat) (s : State) : Res Nat :=
  readPlus (lextAt (sym - 257)) (lbaseAt (sym - 257)) s

/-- The distance of symbol `ds` in 0 to 29: `DBASE[DS] + ReadBits(DEXT[DS])` (R99, R203). -/
def distOperand (ds : Nat) (s : State) : Res Nat := readPlus (dextAt ds) (dbaseAt ds) s

/-- The repeat count of CL_REP16 (R296). -/
def repCount16 (s : State) : Res Nat := readPlus 2 3 s

/-- The repeat count of CL_REP17 (R297). -/
def repCount17 (s : State) : Res Nat := readPlus 3 3 s

/-- The repeat count of CL_REP18 (R298). -/
def repCount18 (s : State) : Res Nat := readPlus 7 11 s

/-- A 16-bit field of a stored block: two `ReadByte`, low byte first (R63). -/
def read16 (s : State) : Res Nat :=
  (readByte s).bind fun b0 s1 =>
    (readByte s1).bind fun b1 s2 => .ok (b0.toNat + 256 * b1.toNat) s2

/-- The block header value `V = BFINAL | (BTYPE << 1)`: `ReadBit`, then `ReadBits(2)` (R92, R180). -/
def readBlockHeader (s : State) : Res Nat :=
  (readBit s).bind fun f s1 => (readBits 2 s1).bind fun t s2 => .ok (f.toNat + 2 * t) s2

/-- The zlib check value `byte0*256 + byte1` (R64, R91). -/
def readZlibH (s : State) : Res Nat :=
  (readByte s).bind fun b0 s1 =>
    (readByte s1).bind fun b1 s2 => .ok (b0.toNat * 256 + b1.toNat) s2

end Sys2Proof.Machine
end

