-- ==== Sys2Proof/Machine/Blocks.lean ====
section
/-! DEFINITION. The meanings of the block headers (44_block_decoder.md) and the dynamic header
(46_dynamic_header.md R290 to R293). Each first sets the latches from the 3 bits of its header
(R180). -/

namespace Sys2Proof.Machine

/-- The data loop of a stored block: each byte is read, then appended (R182, R406). -/
def storedData : Nat → State → Res Unit
  | 0, s => .ok () s
  | n + 1, s =>
    (readByte s).bind fun b s1 => (append b s1).bind fun _ s2 => storedData n s2

/-- The body of BLK_STORED (R182): LEN, NLEN, the check, the data, and the block is complete. -/
def storedBody (s : State) : Res Unit :=
  (read16 s).bind fun len s1 =>
    (read16 s1).bind fun nlen s2 =>
      if Config.checkNlen && nlen != (len ^^^ 0xFFFF) then .raise .corrupt s2
      else (storedData len s2).bind fun _ s3 => .ok () (blockComplete s3)

/-- BLK_STORED (R182). -/
def execBlkStored (bfinal : Bool) (s : State) : Host.Outcome State Fault Refusal :=
  (storedBody (latchHeader bfinal 0 s)).finish

/-- BLK_FIXED (R183). -/
def execBlkFixed (bfinal : Bool) (s : State) : Host.Outcome State Fault Refusal :=
  .next ((((latchHeader bfinal 1 s).setTreeLL fixedTreeLL).setTreeD fixedTreeD).setPhase .lz)

/-- The count fields of a dynamic header and their range check (R290, R291). HDIST is checked before
it is narrowed to its register, since 32 does not fit in 5 bits (log 7). -/
def dynCounts (s : State) : Res Nat :=
  (readPlus 5 257 s).bind fun hlit s1 =>
    (readPlus 5 1 (s1.setHlit (BitVec.ofNat 9 hlit))).bind fun hdist s2 =>
      (readPlus 4 4 (s2.setHdist (BitVec.ofNat 5 hdist))).bind fun hclen s3 =>
        let s4 := s3.setHclen (BitVec.ofNat 5 hclen)
        if Config.hlitMax < hlit || Config.hdistMax < hdist then .raise .corrupt s4
        else .ok hclen s4

/-- The code-length code lengths, at the positions given (R292). -/
def readClLengths : List Nat → State → Res Unit
  | [], s => .ok () s
  | p :: ps, s =>
    (readBits 3 s).bind fun x s1 =>
      readClLengths ps (s1.setClLens (s1.clLens.set p (BitVec.ofNat 3 x)))

/-- `DynHeader()` (R290 to R293). -/
def dynHeader (s : State) : Res Unit :=
  (dynCounts s).bind fun hclen s1 =>
    (readClLengths (clOrder.take hclen) (s1.setClLens (List.replicate 19 0))).bind fun _ s2 =>
      match build (s2.clLens.map BitVec.toNat) Config.clMaxBits with
      | none => .raise .corrupt s2
      | some t => .ok () (((s2.setTreeCL t).setLens []).setPhase .dynLens)

/-- BLK_DYNAMIC (R184). -/
def execBlkDynamic (bfinal : Bool) (s : State) : Host.Outcome State Fault Refusal :=
  (dynHeader (latchHeader bfinal 2 s)).finish

/-- BLK_RESERVED (R185): Corrupt at once, no further bit read. -/
def execBlkReserved (bfinal : Bool) (s : State) : Host.Outcome State Fault Refusal :=
  .next (raiseError .corrupt (latchHeader bfinal 3 s))

end Sys2Proof.Machine
end

