-- ==== Sys2Proof/Machine/CodeLen.lean ====
section
/-! DEFINITION. The meanings of the code-length symbols (46_dynamic_header.md R294 to R303), their
code read. -/

namespace Sys2Proof.Machine

/-- The literal/length lengths of a dynamic block (R301): `LENS[0..HLIT-1]`, then 0 up to 288. -/
def litlenLengths (s : State) : List Nat :=
  let ll := (s.lens.take s.hlit.toNat).map BitVec.toNat
  ll ++ List.replicate (288 - ll.length) 0

/-- The distance lengths of a dynamic block (R301): `LENS[HLIT..HLIT+HDIST-1]`, then 0 up to 30. -/
def distLengths (s : State) : List Nat :=
  let d := ((s.lens.drop s.hlit.toNat).take s.hdist.toNat).map BitVec.toNat
  d ++ List.replicate (30 - d.length) 0

/-- `BuildBlockTrees()` (R301): the literal/length tree first. -/
def buildBlockTrees (s : State) : Res Unit :=
  match build (litlenLengths s) Config.maxBits with
  | none => .raise .corrupt s
  | some tll =>
    match build (distLengths s) Config.maxBits with
    | none => .raise .corrupt (s.setTreeLL tll)
    | some td => .ok () (((s.setTreeLL tll).setTreeD td).setPhase .lz)

/-- The end of a code-length step (R294): with all lengths filled, the block's trees are built. -/
def clEnd (s : State) : Res Unit :=
  if s.lensIdx = s.lensTotal then buildBlockTrees s else .ok () s

/-- `r` slots of LENS filled with `v`, unless that runs past `HLIT + HDIST` (R300). -/
def repeatLen (r : Nat) (v : BitVec 4) (s : State) : Res Unit :=
  if s.lensTotal < s.lensIdx + r then .raise .corrupt s
  else clEnd (s.setLens (s.lens ++ List.replicate r v))

/-- CL_LEN (R295). -/
def execClLen (len : BitVec 4) (s : State) : Host.Outcome State Fault Refusal :=
  (clEnd (s.setLens (s.lens ++ [len]))).finish

/-- CL_REP16 (R296): the first-slot check comes before the extra bits; the previous entry is
`LENS[LENS_IDX-1]`, also across the HLIT boundary. -/
def execClRep16 (s : State) : Host.Outcome State Fault Refusal :=
  (match s.lens.getLast? with
    | none => Res.raise .corrupt s
    | some p => (repCount16 s).bind fun r s1 => repeatLen r p s1).finish

/-- CL_REP17 (R297). -/
def execClRep17 (s : State) : Host.Outcome State Fault Refusal :=
  ((repCount17 s).bind fun r s1 => repeatLen r 0 s1).finish

/-- CL_REP18 (R298). -/
def execClRep18 (s : State) : Host.Outcome State Fault Refusal :=
  ((repCount18 s).bind fun r s1 => repeatLen r 0 s1).finish

end Sys2Proof.Machine
end

