-- ==== Sys2Proof/Machine/Dist.lean ====
section
/-! DEFINITION. The meanings of the distance instructions (45_lz77.md R238 to R269), and the end of
the length instruction that a distance instruction stands in. -/

namespace Sys2Proof.Machine

/-- The distance check fails (R205): the distance reaches back beyond the output so far, or beyond
`WINDOW_LIMIT`, which is none (R7). -/
def distTooFar (dist : Nat) (s : State) : Bool :=
  s.outLen.toNat < dist || Config.windowLimit.any (· < dist)

/-- `Dist(DS)` and the check of R205 (R203): the distance operand is delivered, or the distance
reaches back too far. -/
def distInstr (ds : Nat) (s : State) : Res Unit :=
  (distOperand ds s).bind fun dist s1 =>
    if distTooFar dist s1 then .raise .corrupt s1
    else .ok () (s1.setDistOp (some (BitVec.ofNat 16 dist)))

/-- A distance symbol: 30 and above are Corrupt (R203, R268, R269). -/
def distSym (ds : Nat) (s : State) : Res Unit :=
  if 30 ≤ ds then .raise .corrupt s else distInstr ds s

/-- The end of a length instruction once its distance is known (R203): the capacity check (R206)
and the copy (R204). With no length instruction in flight there is nothing to copy (log 8). -/
def completeLen (s : State) : Res Unit :=
  match s.lenOp, s.distOp with
  | some len, some dist =>
    if s.outCap.toNat < s.outLen.toNat + len.toNat then .raise .outOfMemory s
    else
      (copy len.toNat dist.toNat s).bind fun _ s1 => .ok () ((s1.setLenOp none).setDistOp none)
  | _, _ => .ok () s

/-- A distance instruction, and with it the end of the length instruction it stands in (R203). -/
def distAndCopy (ds : Nat) (s : State) : Res Unit :=
  (distSym ds s).bind fun _ s1 => completeLen s1

/-- DIST_0 (R238). -/
def execDist0 (s : State) : Host.Outcome State Fault Refusal := (distAndCopy 0 s).finish

/-- DIST_1 (R239). -/
def execDist1 (s : State) : Host.Outcome State Fault Refusal := (distAndCopy 1 s).finish

/-- DIST_2 (R240). -/
def execDist2 (s : State) : Host.Outcome State Fault Refusal := (distAndCopy 2 s).finish

/-- DIST_3 (R241). -/
def execDist3 (s : State) : Host.Outcome State Fault Refusal := (distAndCopy 3 s).finish

/-- DIST_4 (R242). -/
def execDist4 (s : State) : Host.Outcome State Fault Refusal := (distAndCopy 4 s).finish

/-- DIST_5 (R243). -/
def execDist5 (s : State) : Host.Outcome State Fault Refusal := (distAndCopy 5 s).finish

/-- DIST_6 (R244). -/
def execDist6 (s : State) : Host.Outcome State Fault Refusal := (distAndCopy 6 s).finish

/-- DIST_7 (R245). -/
def execDist7 (s : State) : Host.Outcome State Fault Refusal := (distAndCopy 7 s).finish

/-- DIST_8 (R246). -/
def execDist8 (s : State) : Host.Outcome State Fault Refusal := (distAndCopy 8 s).finish

/-- DIST_9 (R247). -/
def execDist9 (s : State) : Host.Outcome State Fault Refusal := (distAndCopy 9 s).finish

/-- DIST_10 (R248). -/
def execDist10 (s : State) : Host.Outcome State Fault Refusal := (distAndCopy 10 s).finish

/-- DIST_11 (R249). -/
def execDist11 (s : State) : Host.Outcome State Fault Refusal := (distAndCopy 11 s).finish

/-- DIST_12 (R250). -/
def execDist12 (s : State) : Host.Outcome State Fault Refusal := (distAndCopy 12 s).finish

/-- DIST_13 (R251). -/
def execDist13 (s : State) : Host.Outcome State Fault Refusal := (distAndCopy 13 s).finish

/-- DIST_14 (R252). -/
def execDist14 (s : State) : Host.Outcome State Fault Refusal := (distAndCopy 14 s).finish

/-- DIST_15 (R253). -/
def execDist15 (s : State) : Host.Outcome State Fault Refusal := (distAndCopy 15 s).finish

/-- DIST_16 (R254). -/
def execDist16 (s : State) : Host.Outcome State Fault Refusal := (distAndCopy 16 s).finish

/-- DIST_17 (R255). -/
def execDist17 (s : State) : Host.Outcome State Fault Refusal := (distAndCopy 17 s).finish

/-- DIST_18 (R256). -/
def execDist18 (s : State) : Host.Outcome State Fault Refusal := (distAndCopy 18 s).finish

/-- DIST_19 (R257). -/
def execDist19 (s : State) : Host.Outcome State Fault Refusal := (distAndCopy 19 s).finish

/-- DIST_20 (R258). -/
def execDist20 (s : State) : Host.Outcome State Fault Refusal := (distAndCopy 20 s).finish

/-- DIST_21 (R259). -/
def execDist21 (s : State) : Host.Outcome State Fault Refusal := (distAndCopy 21 s).finish

/-- DIST_22 (R260). -/
def execDist22 (s : State) : Host.Outcome State Fault Refusal := (distAndCopy 22 s).finish

/-- DIST_23 (R261). -/
def execDist23 (s : State) : Host.Outcome State Fault Refusal := (distAndCopy 23 s).finish

/-- DIST_24 (R262). -/
def execDist24 (s : State) : Host.Outcome State Fault Refusal := (distAndCopy 24 s).finish

/-- DIST_25 (R263). -/
def execDist25 (s : State) : Host.Outcome State Fault Refusal := (distAndCopy 25 s).finish

/-- DIST_26 (R264). -/
def execDist26 (s : State) : Host.Outcome State Fault Refusal := (distAndCopy 26 s).finish

/-- DIST_27 (R265). -/
def execDist27 (s : State) : Host.Outcome State Fault Refusal := (distAndCopy 27 s).finish

/-- DIST_28 (R266). -/
def execDist28 (s : State) : Host.Outcome State Fault Refusal := (distAndCopy 28 s).finish

/-- DIST_29 (R267). -/
def execDist29 (s : State) : Host.Outcome State Fault Refusal := (distAndCopy 29 s).finish

/-- DIST_RES_30 (R268): Corrupt, always. -/
def execDistRes30 (s : State) : Host.Outcome State Fault Refusal := (distAndCopy 30 s).finish

/-- DIST_RES_31 (R269): Corrupt, always. -/
def execDistRes31 (s : State) : Host.Outcome State Fault Refusal := (distAndCopy 31 s).finish

end Sys2Proof.Machine
end

