-- ==== Sys2Proof/Machine/LitLen.lean ====
section
/-! DEFINITION. The meanings of the literal/length symbols (45_lz77.md R201 to R237), their code
read. -/

namespace Sys2Proof.Machine

/-- The first part of `LenInstr(S)` (R203): the length operand, then the distance symbol. -/
def lenHead (sym : Nat) (s : State) : Res Nat :=
  (lengthOperand sym s).bind fun len s1 => walk s1.treeD (s1.setLenOp (some (BitVec.ofNat 9 len)))

/-- `LenInstr(S)` (R203): the length, the distance instruction, and the copy. -/
def lenInstr (sym : Nat) (s : State) : Res Unit :=
  (lenHead sym s).bind fun ds s1 => distAndCopy ds s1

/-- LIT (R201). -/
def execLit (b : Byte) (s : State) : Host.Outcome State Fault Refusal := (append b s).finish

/-- EOB (R202). -/
def execEob (s : State) : Host.Outcome State Fault Refusal := .next (blockComplete s)

/-- LEN_257 (R207). -/
def execLen257 (s : State) : Host.Outcome State Fault Refusal := (lenInstr 257 s).finish

/-- LEN_258 (R208). -/
def execLen258 (s : State) : Host.Outcome State Fault Refusal := (lenInstr 258 s).finish

/-- LEN_259 (R209). -/
def execLen259 (s : State) : Host.Outcome State Fault Refusal := (lenInstr 259 s).finish

/-- LEN_260 (R210). -/
def execLen260 (s : State) : Host.Outcome State Fault Refusal := (lenInstr 260 s).finish

/-- LEN_261 (R211). -/
def execLen261 (s : State) : Host.Outcome State Fault Refusal := (lenInstr 261 s).finish

/-- LEN_262 (R212). -/
def execLen262 (s : State) : Host.Outcome State Fault Refusal := (lenInstr 262 s).finish

/-- LEN_263 (R213). -/
def execLen263 (s : State) : Host.Outcome State Fault Refusal := (lenInstr 263 s).finish

/-- LEN_264 (R214). -/
def execLen264 (s : State) : Host.Outcome State Fault Refusal := (lenInstr 264 s).finish

/-- LEN_265 (R215). -/
def execLen265 (s : State) : Host.Outcome State Fault Refusal := (lenInstr 265 s).finish

/-- LEN_266 (R216). -/
def execLen266 (s : State) : Host.Outcome State Fault Refusal := (lenInstr 266 s).finish

/-- LEN_267 (R217). -/
def execLen267 (s : State) : Host.Outcome State Fault Refusal := (lenInstr 267 s).finish

/-- LEN_268 (R218). -/
def execLen268 (s : State) : Host.Outcome State Fault Refusal := (lenInstr 268 s).finish

/-- LEN_269 (R219). -/
def execLen269 (s : State) : Host.Outcome State Fault Refusal := (lenInstr 269 s).finish

/-- LEN_270 (R220). -/
def execLen270 (s : State) : Host.Outcome State Fault Refusal := (lenInstr 270 s).finish

/-- LEN_271 (R221). -/
def execLen271 (s : State) : Host.Outcome State Fault Refusal := (lenInstr 271 s).finish

/-- LEN_272 (R222). -/
def execLen272 (s : State) : Host.Outcome State Fault Refusal := (lenInstr 272 s).finish

/-- LEN_273 (R223). -/
def execLen273 (s : State) : Host.Outcome State Fault Refusal := (lenInstr 273 s).finish

/-- LEN_274 (R224). -/
def execLen274 (s : State) : Host.Outcome State Fault Refusal := (lenInstr 274 s).finish

/-- LEN_275 (R225). -/
def execLen275 (s : State) : Host.Outcome State Fault Refusal := (lenInstr 275 s).finish

/-- LEN_276 (R226). -/
def execLen276 (s : State) : Host.Outcome State Fault Refusal := (lenInstr 276 s).finish

/-- LEN_277 (R227). -/
def execLen277 (s : State) : Host.Outcome State Fault Refusal := (lenInstr 277 s).finish

/-- LEN_278 (R228). -/
def execLen278 (s : State) : Host.Outcome State Fault Refusal := (lenInstr 278 s).finish

/-- LEN_279 (R229). -/
def execLen279 (s : State) : Host.Outcome State Fault Refusal := (lenInstr 279 s).finish

/-- LEN_280 (R230). -/
def execLen280 (s : State) : Host.Outcome State Fault Refusal := (lenInstr 280 s).finish

/-- LEN_281 (R231). -/
def execLen281 (s : State) : Host.Outcome State Fault Refusal := (lenInstr 281 s).finish

/-- LEN_282 (R232). -/
def execLen282 (s : State) : Host.Outcome State Fault Refusal := (lenInstr 282 s).finish

/-- LEN_283 (R233). -/
def execLen283 (s : State) : Host.Outcome State Fault Refusal := (lenInstr 283 s).finish

/-- LEN_284 (R234). -/
def execLen284 (s : State) : Host.Outcome State Fault Refusal := (lenInstr 284 s).finish

/-- LEN_285 (R235). -/
def execLen285 (s : State) : Host.Outcome State Fault Refusal := (lenInstr 285 s).finish

/-- LL_RES_286 (R236): Corrupt, always; nothing is appended, no further bit is read. -/
def execLlRes286 (s : State) : Host.Outcome State Fault Refusal := .next (raiseError .corrupt s)

/-- LL_RES_287 (R237): Corrupt, always; nothing is appended, no further bit is read. -/
def execLlRes287 (s : State) : Host.Outcome State Fault Refusal := .next (raiseError .corrupt s)

end Sys2Proof.Machine
end

