-- ==== Sys2Proof/Machine/Stream.lean ====
section
/-! DEFINITION. The meanings of START and ZLIB_HDR (47_stream.md). -/

namespace Sys2Proof.Machine

/-- START (R320): ignored unless the engine is idle (R446). -/
def execStart (s : State) : Host.Outcome State Fault Refusal :=
  if s.busy then .next s else .next (startCommand s)

/-- The checks of ZLIB_HDR in their order (R321, R322): CM, CINFO, FCHECK, FDICT. -/
def zlibCheck (cmf flg : Byte) (s : State) : Res Unit :=
  if zlibCM cmf ≠ 8 then .raise .corrupt s
  else if 7 < zlibCINFO cmf then .raise .corrupt s
  else if zlibH cmf flg % 31 ≠ 0 then .raise .corrupt s
  else if Config.checkFdict && zlibFDICT flg then .raise .corrupt s
  else .ok () s

/-- ZLIB_HDR (R321), its two bytes read. FLEVEL and the value of CINFO have no effect (R323). -/
def execZlibHdr (cmf flg : Byte) (s : State) : Host.Outcome State Fault Refusal :=
  ((zlibCheck cmf flg s).bind fun _ s1 => .ok () (s1.setPhase .bhdr)).finish

end Sys2Proof.Machine
end

