-- ==== Sys2Proof/Machine/Engine.lean ====
section
/-! DEFINITION. The engine's turn: the selecting bits of the next instruction are read from the
stream as PHASE says (10_state.md R22, 30_encoding.md R90), decoded, and the instruction executed. -/

namespace Sys2Proof.Machine

/-- The instruction that a value read from the stream selects. A value that selects none is Corrupt
(R200, R299). -/
def select (f : Format) (x : Res Nat) : Res Instr :=
  x.bind fun v s1 =>
    match decodeSel f v with
    | .ok i => .ok i s1
    | .error _ => .raise .corrupt s1

/-- The engine's next instruction, and the state with its selecting bits read. In IDLE there is none
(R416). Inside a length instruction it is a distance instruction (R90, log 8). -/
def fetch (s : State) : Option (Res Instr) :=
  match s.phase with
  | .idle => none
  | .zhdr => some (select .zlibHeader (readZlibH s))
  | .bhdr => some (select .blockHeader (readBlockHeader s))
  | .dynLens => some (select .clSymbol (walk s.treeCL s))
  | .lz =>
    match s.lenOp with
    | none => some (select .litlenSymbol (walk s.treeLL s))
    | some _ => some (select .distSymbol (walk s.treeD s))

/-- One engine step: one instruction (R449). An error while the selecting bits are read ends the
command (R404). In IDLE nothing happens (R416). -/
def engineStep (s : State) : Host.Outcome State Fault Refusal :=
  match fetch s with
  | none => .next s
  | some (.ok i s1) => exec i s1
  | some (.raise k s1) => .next (raiseError k s1)
  | some (.fault f) => .fault f
  | some (.refused r) => .refused r

end Sys2Proof.Machine
end

