-- ==== Sys2Proof/Machine/HostPort.lean ====
section
/-! DEFINITION. The host's accesses: the register block (10_state.md R27 to R35), the memories
(20_memory.md R66, R72; 70_reset_and_hazards.md R444, R445), and reset (R440). -/

namespace Sys2Proof.Machine

/-! ### The register block -/

/-- The register block is reached with aligned 32-bit accesses only (R35, R66). -/
def regAccessOk (off n : Nat) : Bool := n == 4 && off % 4 == 0

/-- What a register read returns (R35): CTRL reads 0, and so does every offset from 0x20 upward. -/
def regValue (off : Nat) (s : State) : Word :=
  match off with
  | 0x04 => statusWord s
  | 0x08 => s.inLen
  | 0x0C => s.outCap
  | 0x10 => s.outLen
  | 0x14 => s.bytePos
  | 0x18 => s.bitOff.zeroExtend 32
  | 0x1C => s.blkCnt
  | _ => 0

/-- `min(v, size)` (R29, R30). -/
def wordMin (v size : Word) : Word := if v ≤ size then v else size

/-- What an aligned 32-bit register write does (R27, R29, R30, R35): IN_LEN and OUT_CAP are written
only while idle (R443), CTRL starts a command, everything else has no effect. -/
def regWrite (off : Nat) (v : Word) (s : State) : Host.Outcome State Fault Refusal :=
  match off with
  | 0x00 =>
    match decodeSel .hostCtrl v.toNat with
    | .ok i => exec i s
    | .error _ => .next s
  | 0x08 => .next (if s.busy then s else s.setInLen (wordMin v s.params.inMemSize))
  | 0x0C => .next (if s.busy then s else s.setOutCap (wordMin v s.params.outMemSize))
  | _ => .next s

/-- A host read of the register block (R35, R66): a good access returns its register, any other one an
unspecified value of the access's width (log 13). -/
def hostRegRead (off n : Nat) (s : State) : Host.Outcome State Fault Refusal :=
  if regAccessOk off n then .next (s.setHostRData (regValue off s).toNat)
  else
    .next ((s.setHostRData (Config.anyValue s.drawIdx % 2 ^ (8 * n))).setDrawIdx (s.drawIdx + 1))

/-- A host write of the register block (R35, R66): any but a good access has no effect. -/
def hostRegWrite (off n v : Nat) (s : State) : Host.Outcome State Fault Refusal :=
  if regAccessOk off n then regWrite off (BitVec.ofNat 32 v) s else .next s

/-! ### The address map -/

/-- The platform address of a register offset (R72). -/
def Params.regAddr (p : Params) (off : Nat) : Nat := p.regBase + off

/-- The platform address of a memory byte (R72). -/
def Params.memAddr (p : Params) : Space → Nat → Nat
  | .inMem, a => p.inBase + a
  | .outMem, a => p.outBase + a

/-- Where the platform's decoder takes an address (R72): to the space whose range holds it. -/
def Params.route (p : Params) (addr : Nat) : Option Target :=
  if p.regBase ≤ addr ∧ addr < p.regBase + p.regWindow then some (.reg (addr - p.regBase))
  else if p.inBase ≤ addr ∧ addr < p.inBase + p.inMemSize.toNat then
    some (.mem .inMem (addr - p.inBase))
  else if p.outBase ≤ addr ∧ addr < p.outBase + p.outMemSize.toNat then
    some (.mem .outMem (addr - p.outBase))
  else none

/-! ### The memories -/

/-- Some byte, any one (R445, U10). -/
def drawAny (s : State) : Res Byte := .ok (Config.anyByte s.drawIdx) (s.setDrawIdx (s.drawIdx + 1))

/-- A host write of one byte. Made while BUSY it is a race: the old and the new byte stay candidates
(R444, R445, log 6). Made while idle it settles the byte. -/
def hostWriteByte (sp : Space) (a : Nat) (b : Byte) (s : State) : Res Unit :=
  match sp with
  | .inMem =>
    if s.params.inMemSize.toNat ≤ a then .fault (.inAddr a)
    else
      let s1 :=
        if s.busy then s.setInRace ((a, s.inByte a) :: (a, b) :: s.inRace)
        else s.setInRace (s.inRace.filter (fun c => c.1 != a))
      .ok () (s1.setInMem (s1.inMem.set a b))
  | .outMem =>
    if s.params.outMemSize.toNat ≤ a then .fault (.outAddr a)
    else
      let old := (s.outMem.get a).getD (Config.anyByte s.drawIdx)
      let s1 :=
        if s.busy then
          (s.setOutRace ((a, old) :: (a, b) :: s.outRace)).setDrawIdx (s.drawIdx + 1)
        else s.setOutRace (s.outRace.filter (fun c => c.1 != a))
      .ok () (s1.setOutMem (s1.outMem.set a b))

/-- The output is defined: a command has finished without error (R445). R76 and D33 promise the host the
result only after it has read STATUS with BUSY 0 and DONE 1, and leave a read made before that open;
the model's choice is that the result is there as soon as DONE is set (DESIGN CHOICE, log 28). -/
def State.outputDefined (s : State) : Bool := !s.busy && s.done && s.err == none

/-- What the host reads at `a` of `IN_MEM`: the byte it holds. Where the host has raced with the
command, the spec gives the old-or-new draw to the engine's reads only (R444, D24) and says nothing
of the host's; the model's choice is an old or new byte, whichever, that stays the same until the
next write or START (DESIGN CHOICE, log 27). -/
def State.hostInByte (s : State) (a : Nat) : Byte :=
  let alts := raceAt s.inRace a
  (s.inByte a :: alts).getD (Config.hostPick s.epoch a (s.inByte a :: alts) % (alts.length + 1))
    (s.inByte a)

/-- A host read of one byte. A read of `IN_MEM` has no side effect and is idempotent (R70). R72 lists
the host's access for BUSY = 0 only; that a read made while BUSY returns the byte held is the model's
reading (DEDUCED, log 13). `OUT_MEM` is defined after success and below OUT_LEN only; any other read
of it returns any byte (R445). -/
def hostReadByte (sp : Space) (a : Nat) (s : State) : Res Byte :=
  match sp with
  | .inMem =>
    if s.params.inMemSize.toNat ≤ a then .fault (.inAddr a)
    else .ok (s.hostInByte a) s
  | .outMem =>
    if s.params.outMemSize.toNat ≤ a then .fault (.outAddr a)
    else if s.outputDefined && decide (a < s.outLen.toNat) then readOut a s
    else drawAny s

/-- The bytes of a host access in address order (R66, `HOST_MEM_ENDIAN`). -/
def hostOrder (p : Params) (l : List Byte) : List Byte := if p.hostBigEndian then l.reverse else l

/-- The bytes of a host write, one at a time, at rising addresses (log 14). -/
def hostWriteBytes (sp : Space) : Nat → List Byte → State → Res Unit
  | _, [], s => .ok () s
  | a, b :: bs, s => (hostWriteByte sp a b s).bind fun _ s1 => hostWriteBytes sp (a + 1) bs s1

/-- The bytes of a host read, one at a time, at rising addresses (log 14). -/
def hostReadBytes (sp : Space) : Nat → Nat → State → Res (List Byte)
  | _, 0, s => .ok [] s
  | a, n + 1, s =>
    (hostReadByte sp a s).bind fun b s1 =>
      (hostReadBytes sp (a + 1) n s1).bind fun r s2 => .ok (b :: r) s2

/-- A host read of a memory (R66). -/
def hostMemRead (sp : Space) (a n : Nat) (s : State) : Host.Outcome State Fault Refusal :=
  ((hostReadBytes sp a n s).bind fun l s1 =>
    .ok () (s1.setHostRData (bytesToNat (hostOrder s1.params l)))).finish

/-- A host write of a memory (R66). -/
def hostMemWrite (sp : Space) (a n v : Nat) (s : State) : Host.Outcome State Fault Refusal :=
  (hostWriteBytes sp a (hostOrder s.params (natToBytes n v)) s).finish

/-! ### Reset -/

/-- Reset (R440): every register as R44 says, no byte of either memory with a value any more. The
parameters, the host's coming accesses and the counters of the model are not part of it (log 20). -/
def applyReset (s : State) : State :=
  ((((State.resetWith s.params).setHostQ s.hostQ).setHostRData s.hostRData).setDrawIdx
    s.drawIdx).setEpoch (s.epoch + 1)

/-! ### One access of the host -/

/-- One entry of the host's coming accesses (log 1). -/
def hostStep (op : HostOp) (s : State) : Host.Outcome State Fault Refusal :=
  match op with
  | .engine => engineStep s
  | .reset => .next (applyReset s)
  | .regRead off n => hostRegRead off n s
  | .regWrite off n v => hostRegWrite off n v s
  | .memRead sp a n => hostMemRead sp a n s
  | .memWrite sp a n v => hostMemWrite sp a n v s
  | .busRead addr n =>
    match s.params.route addr with
    | some (.reg off) => hostRegRead off n s
    | some (.mem sp a) => hostMemRead sp a n s
    | none => .fault (.busAddr addr)
  | .busWrite addr n v =>
    match s.params.route addr with
    | some (.reg off) => hostRegWrite off n v s
    | some (.mem sp a) => hostMemWrite sp a n v s
    | none => .fault (.busAddr addr)

end Sys2Proof.Machine
end

