-- ==== Sys2Proof/Machine/Place.lean ====
section
/-! DEFINITION. Where the engine fetches: the placing of one instruction so that the next step runs
it (log 11). The placing stands for a host that has loaded a stream and a command that has come so
far; it sets the PHASE, the tree and the operand in flight that the instruction's context needs. -/

namespace Sys2Proof.Machine

/-- The number that bits in stream order stand for, the first of weight 1 (R61). -/
def bitsToNat : List Bool → Nat
  | [] => 0
  | b :: bs => b.toNat + 2 * bitsToNat bs

/-- Bytes written to `IN_MEM` from address `a` on. -/
def writeInBytes : Nat → List Byte → Memory → Memory
  | _, [], m => m
  | a, b :: bs, m => writeInBytes (a + 1) bs (m.set a b)

/-- The bytes that one placed instruction takes: its own bits and zero operand bits up to the
longest instruction with a bounded operand (a dynamic header, 74 bits). -/
def placedBytes : Nat := 18

/-- Stream bits placed from bit `off` of byte `bp` on, zeros after them, and the input made long
enough to hold them. -/
def placeBits (bp off : Nat) (bits : List Bool) (s : State) : State :=
  ((s.setInMem (writeInBytes bp (natToBytes placedBytes (bitsToNat bits * 2 ^ off)) s.inMem)).setInLen
    (BitVec.ofNat 32 (bp + placedBytes))).setInRace []

/-- Stream bits placed at the cursor. -/
def placeHere (bits : List Bool) (s : State) : State :=
  placeBits s.bytePos.toNat s.bitOff.toNat bits s

/-- A tree in which each of `n` symbols has its own value as a 5-bit code. -/
def fiveBitTree (n : Nat) : Tree := (build (List.replicate n 5) Config.maxBits).getD Tree.empty

/-- A dynamic header in effect for a code-length symbol: the one in progress, else the smallest. -/
def placeHeader (s : State) : State :=
  if s.phase = .dynLens then s else ((s.setHlit 257).setHdist 1).setLens []

/-- The instruction selected by value `v` of format `f`, placed where the next step takes it. -/
def place (f : Format) (v : Nat) (s : State) : State :=
  match f with
  | .hostCtrl => s.setHostQ (.regWrite 0 4 v :: s.hostQ)
  | .zlibHeader =>
    ((placeBits s.alignByte.bytePos.toNat 0 (fieldBits 8 (v / 256) ++ fieldBits 8 v) s).setPhase
      .zhdr).setHostQ (.engine :: s.hostQ)
  | .blockHeader => ((placeHere (fieldBits 3 v) s).setPhase .bhdr).setHostQ (.engine :: s.hostQ)
  | .litlenSymbol =>
    (((((placeHere (fixedLitlenBits v) s).setTreeLL fixedTreeLL).setTreeD fixedTreeD).setLenOp
      none).setPhase .lz).setHostQ (.engine :: s.hostQ)
  | .distSymbol =>
    ((((placeHere (codeBits 5 v) s).setTreeD (fiveBitTree 32)).setLenOp (some 3)).setPhase
      .lz).setHostQ (.engine :: s.hostQ)
  | .clSymbol =>
    (((placeHeader (placeHere (codeBits 5 v) s)).setTreeCL (fiveBitTree 19)).setPhase
      .dynLens).setHostQ (.engine :: s.hostQ)

end Sys2Proof.Machine
end

