-- ==== Sys2Proof/Machine/Step.lean ====
section
/-! DEFINITION. One step of the machine, and where an instruction of the opcode table stands for it
to be the next one. -/

namespace Sys2Proof.Machine

/-- One step: the oldest of the host's coming accesses, or, with none, the engine (R20, log 1). -/
def step (s : State) : Host.Outcome State Fault Refusal :=
  match s.hostQ with
  | [] => engineStep s
  | op :: q => hostStep op (s.setHostQ q)

/-- The state in which the next step runs the instruction of a table word (log 11). -/
def State.withFetchWord (s : State) (nbits w : Nat) : State :=
  match tableFormat nbits w with
  | some f => place f w s
  | none => s

end Sys2Proof.Machine
end

