-- ==== Sys2Proof/Safety.lean ====
section
/-! DEFINITION. The terms in which claims about the machine are written: the stream as a sequence of
bits (00_scope.md R9), which input is readable, which parts of the state an operation may change,
and the invariant of the machine. A run is safe when every step of it answers a next state. -/

namespace Sys2Proof.Machine

/-! ### The stream -/

/-- Stream bit `k`: bit `k mod 8` of input byte `k div 8` (R9, R60). -/
def State.streamBit (s : State) (k : Nat) : Bool := (s.inByte (k / 8)).getLsbD (k % 8)

/-- The `n`-bit field at stream position `k`, its first bit of weight 1 (R61). -/
def State.streamField (s : State) : Nat → Nat → Nat
  | _, 0 => 0
  | k, n + 1 => (s.streamBit k).toNat + 2 * s.streamField (k + 1) n

/-- The `n` stream bits from position `k` on, in the order they are read. -/
def State.streamBits (s : State) : Nat → Nat → List Bool
  | _, 0 => []
  | k, n + 1 => s.streamBit k :: s.streamBits (k + 1) n

/-- The stream position at which a byte read starts: the cursor, rounded up to a byte (R132). -/
def State.alignedByte (s : State) : Nat := (s.pos + 7) / 8

/-- The host has not raced with the running command (R444, R445). -/
def State.NoRace (s : State) : Prop := s.inRace = [] ∧ s.outRace = []

/-- The input fits its memory, the cursor is within the input, and no byte is raced: what is true
while a command runs whose host keeps to R442. -/
def State.Quiet (s : State) : Prop :=
  s.NoRace ∧ s.inLen ≤ s.params.inMemSize ∧ s.outCap ≤ s.params.outMemSize ∧
    s.pos ≤ 8 * s.inLen.toNat

/-- At least `n` more bits can be read. -/
def State.Readable (s : State) (n : Nat) : Prop := s.Quiet ∧ s.pos + n ≤ 8 * s.inLen.toNat

/-- Fewer than `n` bits are left. -/
def State.Short (s : State) (n : Nat) : Prop := s.Quiet ∧ 8 * s.inLen.toNat < s.pos + n

/-- The symbol at the end of a bit path, first bit first: 1 is right, 0 is left (R140, R148). -/
def Tree.find : Tree → List Bool → Option Nat
  | .leaf sym, [] => some sym
  | .node c0 c1, b :: bs => if b then c1.find bs else c0.find bs
  | _, _ => none

/-- Symbol `sym` has a code in a length set (R141). -/
def HasCode (lengths : List Nat) (sym : Nat) : Prop :=
  sym < lengths.length ∧ lengths.getD sym 0 ≠ 0

/-- The bits of the code of a symbol, most significant first (R145). -/
def codeOfBits (lengths : List Nat) (sym : Nat) : List Bool :=
  codeBits (lengths.getD sym 0) (codeOf lengths sym)

/-- The Kraft sum of a length set, in units of `2^-maxbits` (R144). -/
def kraftSum (lengths : List Nat) (maxbits : Nat) : Nat :=
  ((lengths.filter (· ≠ 0)).map (fun l => 2 ^ (maxbits - l))).sum

/-- The operands of length instruction number `idx` can be read and are legal: its extra bits, a
distance code of `n` bits for symbol `ds`, and that symbol's extra bits (R203). -/
structure State.LenReads (s : State) (idx n ds : Nat) : Prop where
  readable : s.Readable (lextAt idx + n + dextAt ds)
  code : s.treeD.find (s.streamBits (s.pos + lextAt idx) n) = some ds
  valid : ds < 30

/-- The length that length instruction number `idx` reads at the cursor (R99). -/
def State.lenAt (s : State) (idx : Nat) : Nat := lbaseAt idx + s.streamField s.pos (lextAt idx)

/-- The distance that distance symbol `ds` reads at stream position `k` (R99). -/
def State.distAt (s : State) (ds k : Nat) : Nat := dbaseAt ds + s.streamField k (dextAt ds)

/-- The `dist` output bytes before address `start` have values. -/
def State.Defined (s : State) (start dist : Nat) : Prop :=
  ∀ a, start - dist ≤ a → a < start → (s.outMem.get a).isSome = true

/-- The code-length lengths a dynamic header at stream position `p` transmits with `hclen` values
(R292, R164). -/
def dynClLens (s : State) (p hclen : Nat) : List Nat :=
  (List.range 19).map fun j =>
    if clOrder.idxOf j < hclen then s.streamField (p + 3 * clOrder.idxOf j) 3 else 0

/-- How a code-length step ends once LENS is filled as far as `s` has it (R294): with more slots to
come nothing else happens; with the last one filled the block's trees are built (R301). -/
def clStepEnds (s : State) : Host.Outcome State Fault Refusal :=
  if s.lens.length = s.hlit.toNat + s.hdist.toNat then (buildBlockTrees s).finish else .next s

/-! ### What changes -/

/-- Everything an operation can do: `P` of its value and state, `Q` of the error it raises and the
state it leaves, `S` where it stops. -/
def Res.sat {α : Type} (x : Res α) (P : α → State → Prop) (Q : ErrKind → State → Prop) (S : Prop) : Prop :=
  match x with
  | .ok a t => P a t
  | .raise k t => Q k t
  | .fault _ => S
  | .refused _ => S

/-- The operation ends the command with error kind `k` (R407), and left `t` with `P t` before the
error entry. -/
def FailsAs (o : Host.Outcome State Fault Refusal) (k : ErrKind) (P : State → Prop) : Prop :=
  ∃ t, o = .next (raiseError k t) ∧ P t

/-- `t` is `s` but for the cursor, and the model's count of draws. -/
def CursorOnly (s t : State) : Prop :=
  ∃ bp bo d, t = (s.setCursor bp bo).setDrawIdx d

/-- `t` is `s` but for the cursor, the draws, and the operands of a length instruction in flight. -/
def OperandsOnly (s t : State) : Prop :=
  ∃ bp bo d l o, t = (((s.setCursor bp bo).setDrawIdx d).setLenOp l).setDistOp o

/-- `t` is `s` but for the cursor, the draws, the output and the operands of a length instruction. -/
def OutputOnly (s t : State) : Prop :=
  ∃ bp bo d m n l o,
    t = (((((s.setCursor bp bo).setDrawIdx d).setOutMem m).setOutLen n).setLenOp l).setDistOp o

/-- `t` is `s` but for the cursor, the draws, the trees of the block, LENS and PHASE. -/
def HeaderOnly (s t : State) : Prop :=
  ∃ bp bo d tl td l p,
    t = (((((s.setCursor bp bo).setDrawIdx d).setTreeLL tl).setTreeD td).setLens l).setPhase p

/-- `t` is `s` but for the cursor, the draws, the header registers, `TREE_CL`, LENS and PHASE. -/
def DynHeaderOnly (s t : State) : Prop :=
  ∃ bp bo d tc hl hd hc cl l p,
    t = ((((((((s.setCursor bp bo).setDrawIdx d).setTreeCL tc).setHlit hl).setHdist hd).setHclen
      hc).setClLens cl).setLens l).setPhase p

/-- `m` is `m0` with `len` bytes from `start` on, each a copy of the byte `dist` back (R204). -/
def CopiedMem (m0 m : Memory) (start len dist : Nat) : Prop :=
  (∀ k, k < len → m.get (start + k) = m0.get (start - dist + k % dist)) ∧
    ∀ a, a < start ∨ start + len ≤ a → m.get a = m0.get a

/-- Every byte of the output memory outside addresses `lo .. hi-1` is as before. -/
def OutSameOutside (lo hi : Nat) (s t : State) : Prop :=
  ∀ a, a < lo ∨ hi ≤ a → t.outMem.get a = s.outMem.get a

/-! ### The invariant -/

/-- The number of bytes of a memory (R72). -/
def Params.memSize (p : Params) : Space → Nat
  | .inMem => p.inMemSize.toNat
  | .outMem => p.outMemSize.toNat

/-- The host's accesses name bytes that exist (R72). -/
def HostOp.inRange (p : Params) : HostOp → Prop
  | .engine | .reset | .regRead _ _ | .regWrite _ _ _ => True
  | .memRead sp a n | .memWrite sp a n _ => a + n ≤ p.memSize sp
  | .busRead addr n | .busWrite addr n _ =>
    match p.route addr with
    | some (.reg _) => True
    | some (.mem sp a) => a + n ≤ p.memSize sp
    | none => False

/-- The invariant of the machine between steps. -/
structure State.Inv (s : State) : Prop where
  /-- The parameters meet their constraints (R7, R72). -/
  params : s.params.Legal
  /-- Both memories have their canonical form. -/
  memWf : s.inMem.wf ∧ s.outMem.wf
  /-- IN_LEN, OUT_CAP and OUT_LEN fit the memories (R29, R30). -/
  bounds : s.inLen ≤ s.params.inMemSize ∧ s.outCap ≤ s.params.outMemSize ∧
    s.outLen ≤ s.params.outMemSize
  /-- While a command runs, OUT_LEN is at most OUT_CAP (R31, log 17). -/
  capacity : s.busy = true → s.outLen ≤ s.outCap
  /-- While a command runs, the cursor is within the input (R26). -/
  cursor : s.busy = true → s.bytePos ≤ s.inLen ∧ (s.bytePos = s.inLen → s.bitOff = 0)
  /-- A running command has no result, and only a finished one has an error (R28). -/
  status : (s.busy = true → s.done = false) ∧ (s.done = false → s.err = none)
  /-- No length instruction is in flight between steps (R449). -/
  operands : s.lenOp = none ∧ s.distOp = none
  /-- `CL_LENS` has 19 entries (R37). -/
  clLens : s.clLens.length = 19
  /-- In DYN_LENS the accepted counts are in range and at least one length is still to come (R36,
  R294, R300). -/
  header : s.phase = .dynLens →
    257 ≤ s.hlit.toNat ∧ s.hlit.toNat ≤ 286 ∧ 1 ≤ s.hdist.toNat ∧ s.hdist.toNat ≤ 30 ∧
      s.lensIdx < s.lensTotal
  /-- Every output byte of the command has a value (R73). -/
  output : ∀ a, a < s.outLen.toNat → (s.outMem.get a).isSome = true
  /-- A tree's root is an internal node (R39). -/
  roots : s.treeLL.isNode = true ∧ s.treeD.isNode = true ∧ s.treeCL.isNode = true

end Sys2Proof.Machine
end

