-- ==== Sys2Proof/Certificates/Slice0/Obligations.lean ====
section
/-! DEFINITION. The statements about the model, from the numbered rules of spec/. Each docstring names
the rule it formalises, or says that a clause is the model's own and names its log entry. -/

open Sys2Proof Sys2Proof.Machine

/-! ### Encoding -/

/-- Every instruction, legal or not, with every value of its operands: the decoder reads it back from
its encoding, whatever bytes follow; and bytes that decode to an instruction are that instruction's
encoding. Only a CTRL write has more than one word, since its bits 31:1 are ignored (R27, R103). -/
def Obligations.DecodeEncodeAgree : Prop :=
  (∀ (i : Instr) (rest : List Byte), decodeBytes i.format (encode i ++ rest) = .ok i) ∧
    ∀ (f : Format) (bs : List Byte) (i : Instr), decodeBytes f bs = .ok i →
      i.format = f ∧
        (f ≠ .hostCtrl → bs.take (encode i).length = encode i) ∧
          (f = .hostCtrl → ∃ b0 b1 b2 b3 rest, bs = b0 :: b1 :: b2 :: b3 :: rest ∧
            b0.getLsbD 0 = true)

/-- Words written out from the opcode table decode to the rows they stand for (R91, R92, R103). -/
def Obligations.DecodeTableWords : Prop :=
  decodeBytes .hostCtrl [0x01, 0x00, 0x00, 0x00] = .ok .start ∧
    decodeBytes .zlibHeader [0x78, 0x9C] = .ok (.zlibHdr 0x78 0x9C) ∧
    decodeBytes .blockHeader [0x01] = .ok (.blkStored true) ∧
    decodeBytes .blockHeader [0x02] = .ok (.blkFixed false) ∧
    decodeBytes .blockHeader [0x05] = .ok (.blkDynamic true) ∧
    decodeBytes .litlenSymbol [0x41, 0x00] = .ok (.lit 0x41) ∧
    decodeBytes .litlenSymbol [0x00, 0x01] = .ok .eob ∧
    decodeBytes .litlenSymbol [0x1D, 0x01] = .ok .len285 ∧
    decodeBytes .distSymbol [0x1D] = .ok .dist29 ∧
    decodeBytes .clSymbol [0x12] = .ok .clRep18

/-- The fixed literal/length code (R100): where the stream holds the code of symbol `sym`, the engine
fetches that symbol's instruction and no more bits; and every 9 bits begin with such a code. -/
def Obligations.FixedLitlenCodeFetched : Prop :=
  ∀ s : State, s.phase = .lz → s.lenOp = none → s.treeLL = fixedTreeLL →
    (∀ sym i, decodeSel .litlenSymbol sym = .ok i → s.Readable (fixedLitlenCode sym).1 →
      s.streamBits s.pos (fixedLitlenCode sym).1 = fixedLitlenBits sym →
        fetch s = some (.ok i (s.atPos (s.pos + (fixedLitlenCode sym).1)))) ∧
    (s.Readable 9 → ∃ sym i, decodeSel .litlenSymbol sym = .ok i ∧
      s.streamBits s.pos (fixedLitlenCode sym).1 = fixedLitlenBits sym)

/-- The fixed distance code (R101): symbol `d` below 30 is the 5-bit code `d`; the 5-bit paths 30 and
31 have no leaf and fail with Corrupt. -/
def Obligations.FixedDistanceCodeFetched : Prop :=
  ∀ (s : State) (d : Nat), s.Readable 5 → d < 32 → s.streamBits s.pos 5 = fixedDistBits d →
    (d < 30 → walk fixedTreeD s = .ok d (s.atPos (s.pos + 5))) ∧
    (30 ≤ d → ∃ t, walk fixedTreeD s = .raise .corrupt t ∧ CursorOnly s t)

/-- The static tables (R160 to R165), in the spec's own values; and the fixed trees are what `Build`
gives for the fixed lengths. -/
def Obligations.StaticTableValues : Prop :=
  (∀ i, i < 288 → fixedLLLens.getD i 0 =
      if i ≤ 143 then 8 else if i ≤ 255 then 9 else if i ≤ 279 then 7 else 8) ∧
    fixedLLLens.length = 288 ∧ fixedDLens = List.replicate 30 5 ∧
    lbase = [3, 4, 5, 6, 7, 8, 9, 10, 11, 13, 15, 17, 19, 23, 27, 31, 35, 43, 51, 59, 67, 83, 99,
      115, 131, 163, 195, 227, 258] ∧
    lext = [0, 0, 0, 0, 0, 0, 0, 0, 1, 1, 1, 1, 2, 2, 2, 2, 3, 3, 3, 3, 4, 4, 4, 4, 5, 5, 5, 5, 0] ∧
    dbase = [1, 2, 3, 4, 5, 7, 9, 13, 17, 25, 33, 49, 65, 97, 129, 193, 257, 385, 513, 769, 1025,
      1537, 2049, 3073, 4097, 6145, 8193, 12289, 16385, 24577] ∧
    dext = [0, 0, 0, 0, 1, 1, 2, 2, 3, 3, 4, 4, 5, 5, 6, 6, 7, 7, 8, 8, 9, 9, 10, 10, 11, 11, 12, 12,
      13, 13] ∧
    clOrder = [16, 17, 18, 0, 8, 7, 9, 6, 10, 5, 11, 4, 12, 3, 13, 2, 14, 1, 15] ∧
    build fixedLLLens 15 = some fixedTreeLL ∧ build fixedDLens 15 = some fixedTreeD

/-! ### The bit reader -/

/-- `ReadBit` (R130): OutOfData with the cursor unchanged at the end of the input; otherwise the bit
at the cursor, and the cursor one bit on. -/
def Obligations.ReadBitResult : Prop :=
  ∀ s : State,
    (s.inLen ≤ s.bytePos → readBit s = .raise .outOfData s) ∧
    (s.inRace = [] → s.inLen ≤ s.params.inMemSize → s.bytePos < s.inLen →
      readBit s = .ok ((s.inByte s.bytePos.toNat).getLsbD s.bitOff.toNat)
        (if s.bitOff = 7 then { s with bytePos := s.bytePos + 1, bitOff := 0 }
          else { s with bitOff := s.bitOff + 1 }))

/-- `ReadBits` (R131, R61): the field at the cursor, its bit `i` the `i`-th bit read and its value
below `2^n`; OutOfData where the input is too short, the bits before the failure consumed; no bits
read for `n = 0`; more than 32 bits refused. -/
def Obligations.ReadBitsResult : Prop :=
  ∀ (s : State) (n : Nat),
    (n ≤ 32 → s.Readable n → ∃ v, readBits n s = .ok v (s.atPos (s.pos + n)) ∧ v < 2 ^ n ∧
      ∀ i, i < n → v.testBit i = s.streamBit (s.pos + i)) ∧
    (n ≤ 32 → s.Short n →
      readBits n s = .raise .outOfData { s with bytePos := s.inLen, bitOff := 0 }) ∧
    readBits 0 s = .ok 0 s ∧
    (32 < n → readBits n s = .refused (.readBitsTooWide n))

/-- `ReadByte` (R132): a partially consumed byte is skipped; then the next whole byte, or OutOfData
with the alignment done. -/
def Obligations.ReadByteResult : Prop :=
  ∀ s : State, s.Quiet →
    (s.alignedByte < s.inLen.toNat →
      readByte s = .ok (s.inByte s.alignedByte)
        { s with bytePos := BitVec.ofNat 32 (s.alignedByte + 1), bitOff := 0 }) ∧
    (s.inLen.toNat ≤ s.alignedByte → readByte s = .raise .outOfData
        { s with bytePos := BitVec.ofNat 32 s.alignedByte, bitOff := 0 })

/-- `ReadBytes` (R133): nothing for `n = 0`; otherwise `n` bytes from the next whole byte on, or
OutOfData at the first byte that is not there. -/
def Obligations.ReadBytesResult : Prop :=
  ∀ (s : State) (n : Nat),
    readBytes 0 s = .ok [] s ∧
    (s.Quiet → s.alignedByte + (n + 1) ≤ s.inLen.toNat →
      readBytes (n + 1) s =
        .ok ((List.range (n + 1)).map fun i => s.inByte (s.alignedByte + i))
          { s with bytePos := BitVec.ofNat 32 (s.alignedByte + (n + 1)), bitOff := 0 }) ∧
    (s.Quiet → s.inLen.toNat < s.alignedByte + (n + 1) →
      readBytes (n + 1) s = .raise .outOfData { s with bytePos := s.inLen, bitOff := 0 })

/-- The bit reader never moves the cursor backward (R134), on success or on failure, raced bytes or
not; and it never leaves the input (R26). -/
def Obligations.ReaderNeverBackward : Prop :=
  ∀ (s : State) (n : Nat), s.pos ≤ 8 * s.inLen.toNat →
    (readBit s).sat (fun _ t => s.pos ≤ t.pos ∧ t.pos ≤ 8 * t.inLen.toNat)
      (fun _ t => s.pos ≤ t.pos ∧ t.pos ≤ 8 * t.inLen.toNat) True ∧
    (readBits n s).sat (fun _ t => s.pos ≤ t.pos ∧ t.pos ≤ 8 * t.inLen.toNat)
      (fun _ t => s.pos ≤ t.pos ∧ t.pos ≤ 8 * t.inLen.toNat) True ∧
    (readByte s).sat (fun _ t => s.pos ≤ t.pos ∧ t.pos ≤ 8 * t.inLen.toNat)
      (fun _ t => s.pos ≤ t.pos ∧ t.pos ≤ 8 * t.inLen.toNat) True ∧
    (readBytes n s).sat (fun _ t => s.pos ≤ t.pos ∧ t.pos ≤ 8 * t.inLen.toNat)
      (fun _ t => s.pos ≤ t.pos ∧ t.pos ≤ 8 * t.inLen.toNat) True

/-! ### Huffman trees -/

/-- Over-subscription (R144): no tree is built exactly when some length has more codes than fit, which
is when the Kraft sum exceeds 1; so an incomplete or empty set is accepted (R147). Otherwise no code
is a prefix of another symbol's code. -/
def Obligations.BuildFailsIffOverSubscribed : Prop :=
  ∀ (lengths : List Nat) (maxbits : Nat), (∀ l ∈ lengths, l ≤ maxbits) →
    (build lengths maxbits = none ↔
      ∃ l, 1 ≤ l ∧ l ≤ maxbits ∧ 2 ^ l < firstCode lengths l + codeCount lengths l) ∧
    (build lengths maxbits = none ↔ 2 ^ maxbits < kraftSum lengths maxbits) ∧
    (build lengths maxbits ≠ none → ∀ a b, HasCode lengths a → HasCode lengths b → a ≠ b →
      ¬ codeOfBits lengths a <+: codeOfBits lengths b)

/-- The prefix-code view (R150) of `Decode` (R148, R149) on a built tree: it returns a symbol exactly
when the next bits are that symbol's code, and has then read exactly the code; it fails with Corrupt
exactly when bits the input holds begin no code and go beyond none; and with OutOfData exactly when
the input ends inside a code, or before the first bit. -/
def Obligations.DecodeIsPrefixCode : Prop :=
  ∀ (lengths : List Nat) (maxbits : Nat) (t : Tree) (s : State),
    (∀ l ∈ lengths, l ≤ maxbits) → build lengths maxbits = some t → s.Quiet →
    (∀ sym s1, walk t s = .ok sym s1 ↔
      HasCode lengths sym ∧ s.Readable (lengths.getD sym 0) ∧
        s.streamBits s.pos (lengths.getD sym 0) = codeOfBits lengths sym ∧
          s1 = s.atPos (s.pos + lengths.getD sym 0)) ∧
    ((∃ s1, walk t s = .raise .corrupt s1) ↔
      ∃ n, 1 ≤ n ∧ s.Readable n ∧ ∀ sym, HasCode lengths sym →
        ¬ s.streamBits s.pos n <+: codeOfBits lengths sym ∧
          ¬ codeOfBits lengths sym <+: s.streamBits s.pos n) ∧
    ((∃ s1, walk t s = .raise .outOfData s1) ↔
      ∀ n, 1 ≤ n → s.Readable n → ∃ sym, HasCode lengths sym ∧
        s.streamBits s.pos n <+: codeOfBits lengths sym ∧
          s.streamBits s.pos n ≠ codeOfBits lengths sym)

/-- The node bound (R152), and the sizes of the fixed trees. -/
def Obligations.TreeNodeBound : Prop :=
  (∀ (lengths : List Nat) (maxbits : Nat) (t : Tree), build lengths maxbits = some t →
    t.nodes ≤ 1 + lengths.sum ∧
      ((∀ l ∈ lengths, l ≤ 15) → lengths.length ≤ 288 → t.nodes ≤ Config.treeNodeCap)) ∧
    fixedTreeLL.nodes = 575 ∧ fixedTreeD.nodes = 60

/-! ### START and the zlib header -/

/-- START (R320, R446): a host write of 1 to CTRL.START; with the engine idle it sets the registers the
rule names and leaves the others; while busy it has no effect. The operands of an instruction in
flight and the candidates of raced bytes are the model's own fields (log 6, log 8). -/
def Obligations.StartResult : Prop :=
  ∀ s : State,
    (s.phase = .idle → ∃ l o ri ro, exec .start s = .next
      { s with bytePos := 0, bitOff := 0, outLen := 0, blkCnt := 0, bfinal := false, btype := 0,
               done := false, err := none, phase := .zhdr, lenOp := l, distOp := o, inRace := ri,
               outRace := ro }) ∧
    (s.phase ≠ .idle → exec .start s = .next s) ∧
    ∀ v : Word, v.getLsbD 0 = true → hostStep (.regWrite 0x00 4 v.toNat) s = exec .start s

/-- ZLIB_HDR, its bytes read (R321, R322): legal headers only change PHASE, whatever FLEVEL and the
value of CINFO are (R323); any other ends the command with Corrupt. -/
def Obligations.ZlibHdrResult : Prop :=
  ∀ (cmf flg : Byte) (s : State),
    (cmf.toNat % 16 = 8 → cmf.toNat / 16 ≤ 7 → (cmf.toNat * 256 + flg.toNat) % 31 = 0 →
      flg.getLsbD 5 = false → exec (.zlibHdr cmf flg) s = .next { s with phase := .bhdr }) ∧
    (cmf.toNat % 16 ≠ 8 ∨ 7 < cmf.toNat / 16 ∨ (cmf.toNat * 256 + flg.toNat) % 31 ≠ 0 ∨
      flg.getLsbD 5 = true → exec (.zlibHdr cmf flg) s = .next (raiseError .corrupt s))

/-- The step in PHASE ZHDR (R321): OutOfData with fewer than two bytes; otherwise the four checks on
the two bytes, and on success the cursor is at (2, 0) and PHASE is BHDR. -/
def Obligations.ZlibHdrStep : Prop :=
  ∀ s : State, s.phase = .zhdr → s.Quiet → s.pos = 0 →
    (s.inLen.toNat < 2 → FailsAs (engineStep s) .outOfData (CursorOnly s)) ∧
    (2 ≤ s.inLen.toNat →
      if (s.inByte 0).toNat % 16 = 8 ∧ (s.inByte 0).toNat / 16 ≤ 7 ∧
          ((s.inByte 0).toNat * 256 + (s.inByte 1).toNat) % 31 = 0 ∧
            (s.inByte 1).getLsbD 5 = false
      then engineStep s = .next { s with bytePos := 2, bitOff := 0, phase := .bhdr }
      else FailsAs (engineStep s) .corrupt (CursorOnly s))

/-! ### Blocks -/

/-- The block-header step (R180, R92): BFINAL, then BTYPE least significant bit first, select the
instruction; the latches take the two fields; an input that ends inside the three bits leaves the
latches unchanged. -/
def Obligations.BlockHeaderStep : Prop :=
  ∀ s : State, s.phase = .bhdr →
    (s.Readable 3 → ∀ f, f = s.streamBit s.pos → ∀ ty, ty = s.streamField (s.pos + 1) 2 →
      engineStep s = exec (if ty = 0 then .blkStored f else if ty = 1 then .blkFixed f
        else if ty = 2 then .blkDynamic f else .blkReserved f) (s.atPos (s.pos + 3)) ∧
      ∀ t, engineStep s = .next t → t.bfinal = f ∧ t.btype.toNat = ty) ∧
    (s.Short 3 → FailsAs (engineStep s) .outOfData (CursorOnly s))

/-- BLK_STORED (R182) when the block is legal and fits: the data bytes appended in order, the cursor
after them, every other byte of the output as before, and the block complete (R186). -/
def Obligations.StoredBlockResult : Prop :=
  ∀ (f : Bool) (s : State) (len : Nat), s.Quiet →
    len = (s.inByte s.alignedByte).toNat + 256 * (s.inByte (s.alignedByte + 1)).toNat →
    (s.inByte (s.alignedByte + 2)).toNat + 256 * (s.inByte (s.alignedByte + 3)).toNat =
      len ^^^ 0xFFFF →
    s.alignedByte + 4 + len ≤ s.inLen.toNat → s.outLen.toNat + len ≤ s.outCap.toNat →
    ∃ m : Memory,
      exec (.blkStored f) s = .next (blockComplete
        { s with bfinal := f, btype := 0, bytePos := BitVec.ofNat 32 (s.alignedByte + 4 + len),
                 bitOff := 0, outMem := m, outLen := BitVec.ofNat 32 (s.outLen.toNat + len) }) ∧
      (∀ k, k < len → m.get (s.outLen.toNat + k) = some (s.inByte (s.alignedByte + 4 + k))) ∧
      ∀ a, a < s.outLen.toNat ∨ s.outLen.toNat + len ≤ a → m.get a = s.outMem.get a

/-- The errors of BLK_STORED in their order (R182, R406): a header cut short, then NLEN, then
whichever of input and capacity runs out first, the input winning at the same byte. -/
def Obligations.StoredBlockErrors : Prop :=
  ∀ (f : Bool) (s : State) (len : Nat), s.Quiet → s.outLen ≤ s.outCap →
    len = (s.inByte s.alignedByte).toNat + 256 * (s.inByte (s.alignedByte + 1)).toNat →
    (s.inLen.toNat < s.alignedByte + 4 → FailsAs (exec (.blkStored f) s) .outOfData
      (CursorOnly { s with bfinal := f, btype := 0 })) ∧
    (s.alignedByte + 4 ≤ s.inLen.toNat →
      ((s.inByte (s.alignedByte + 2)).toNat + 256 * (s.inByte (s.alignedByte + 3)).toNat ≠
          len ^^^ 0xFFFF →
        FailsAs (exec (.blkStored f) s) .corrupt
          (CursorOnly { s with bfinal := f, btype := 0 })) ∧
      ((s.inByte (s.alignedByte + 2)).toNat + 256 * (s.inByte (s.alignedByte + 3)).toNat =
          len ^^^ 0xFFFF →
        (s.inLen.toNat - (s.alignedByte + 4) < len →
          s.inLen.toNat - (s.alignedByte + 4) ≤ s.outCap.toNat - s.outLen.toNat →
            FailsAs (exec (.blkStored f) s) .outOfData
              (OutputOnly { s with bfinal := f, btype := 0 })) ∧
        (s.outCap.toNat - s.outLen.toNat < len →
          s.outCap.toNat - s.outLen.toNat < s.inLen.toNat - (s.alignedByte + 4) →
            FailsAs (exec (.blkStored f) s) .outOfMemory
              (OutputOnly { s with bfinal := f, btype := 0 }))))

/-- BLK_FIXED (R183): the fixed trees and PHASE LZ; no bit is read, nothing else changes but the
latches of its header (R180). A final one is the 3 stream bits 1, 1, 0. -/
def Obligations.FixedBlockResult : Prop :=
  (∀ (f : Bool) (s : State), exec (.blkFixed f) s = .next
    { s with bfinal := f, btype := 1, treeLL := fixedTreeLL, treeD := fixedTreeD, phase := .lz }) ∧
    decodeSel .blockHeader (bitsToNat [true, true, false]) = .ok (.blkFixed true)

/-- BLK_DYNAMIC (R184, R290 to R293) when the header is readable and accepted: the three counts, the
code-length lengths in their transmission order with 0 elsewhere, TREE_CL, an empty LENS, PHASE
DYN_LENS, and the cursor `14 + 3*HCLEN` bits on; nothing else but the latches. -/
def Obligations.DynamicHeaderResult : Prop :=
  ∀ (f : Bool) (s : State) (hlit hdist hclen : Nat) (t : Tree),
    hlit = s.streamField s.pos 5 + 257 → hdist = s.streamField (s.pos + 5) 5 + 1 →
    hclen = s.streamField (s.pos + 10) 4 + 4 → s.Readable (14 + 3 * hclen) → hlit ≤ 286 →
    hdist ≤ 30 → build (dynClLens s (s.pos + 14) hclen) 7 = some t →
      exec (.blkDynamic f) s = .next (State.atPos (s.pos + 14 + 3 * hclen)
        { s with bfinal := f, btype := 2, hlit := BitVec.ofNat 9 hlit,
                 hdist := BitVec.ofNat 5 hdist, hclen := BitVec.ofNat 5 hclen,
                 clLens := (dynClLens s (s.pos + 14) hclen).map (BitVec.ofNat 3), treeCL := t,
                 lens := [], phase := .dynLens })

/-- The errors of BLK_DYNAMIC in their order (R290 to R293, R406): the count fields cut short, the
range check before any code-length length is read, those cut short, and an over-subscribed set. -/
def Obligations.DynamicHeaderErrors : Prop :=
  ∀ (f : Bool) (s : State) (hlit hdist hclen : Nat),
    hlit = s.streamField s.pos 5 + 257 → hdist = s.streamField (s.pos + 5) 5 + 1 →
    hclen = s.streamField (s.pos + 10) 4 + 4 →
    (s.Short 14 → FailsAs (exec (.blkDynamic f) s) .outOfData
      (DynHeaderOnly { s with bfinal := f, btype := 2 })) ∧
    (s.Readable 14 → 286 < hlit ∨ 30 < hdist → FailsAs (exec (.blkDynamic f) s) .corrupt
      (fun t => DynHeaderOnly { s with bfinal := f, btype := 2 } t ∧ t.clLens = s.clLens)) ∧
    (s.Readable 14 → s.Short (14 + 3 * hclen) → hlit ≤ 286 → hdist ≤ 30 →
      FailsAs (exec (.blkDynamic f) s) .outOfData
        (DynHeaderOnly { s with bfinal := f, btype := 2 })) ∧
    (s.Readable (14 + 3 * hclen) → hlit ≤ 286 → hdist ≤ 30 →
      build (dynClLens s (s.pos + 14) hclen) 7 = none →
        FailsAs (exec (.blkDynamic f) s) .corrupt
          (DynHeaderOnly { s with bfinal := f, btype := 2 }))

/-- BLK_RESERVED (R185), BTYPE 11: Corrupt at once, no bit read beyond its header. -/
def Obligations.ReservedBlockResult : Prop :=
  ∀ (f : Bool) (s : State),
    exec (.blkReserved f) s = .next (raiseError .corrupt { s with bfinal := f, btype := 3 }) ∧
      decodeSel .blockHeader (f.toNat + 2 * 3) = .ok (.blkReserved f)

/-- EOB, symbol 256 (R202), block completion (R186) and Finish (R325): the block counted, and the latched BFINAL
decides between the next header and the successful end. -/
def Obligations.EobResult : Prop :=
  ∀ s : State,
    exec .eob s = .next (blockComplete s) ∧
    (s.bfinal = true → blockComplete s =
      { s with blkCnt := s.blkCnt + 1, err := none, done := true, phase := .idle }) ∧
    (s.bfinal = false → blockComplete s = { s with blkCnt := s.blkCnt + 1, phase := .bhdr }) ∧
    decodeSel .litlenSymbol 256 = .ok .eob

/-! ### Literals, lengths and distances -/

/-- LIT, symbols 0 to 255, and Append (R201, R350): the byte at `OUT_LEN`, which then counts it, and nothing else; or
OutOfMemory with nothing written when the output is full. -/
def Obligations.LiteralResult : Prop :=
  ∀ (b : Byte) (s : State),
    (s.outCap ≤ s.params.outMemSize → s.outLen < s.outCap →
      ∃ m : Memory, exec (.lit b) s = .next { s with outMem := m, outLen := s.outLen + 1 } ∧
        ∀ a, m.get a = if a = s.outLen.toNat then some b else s.outMem.get a) ∧
    (s.outCap ≤ s.outLen → exec (.lit b) s = .next (raiseError .outOfMemory s)) ∧
    decodeSel .litlenSymbol b.toNat = .ok (.lit b)

/-- Copy (R204): byte `k` of the copy is the output byte `start + (k mod dist)`, the copy's own bytes
included; OUT_LEN counts them; every other byte is as before; the copy cannot fail. -/
def Obligations.CopyReplicates : Prop :=
  ∀ (s : State) (len dist : Nat), s.outRace = [] → 1 ≤ dist → dist ≤ s.outLen.toNat →
    s.outLen.toNat + len ≤ s.outCap.toNat → s.outCap ≤ s.params.outMemSize →
    s.Defined s.outLen.toNat dist →
      ∃ m : Memory, copy len dist s = .ok ()
        { s with outMem := m, outLen := BitVec.ofNat 32 (s.outLen.toNat + len) } ∧
        CopiedMem s.outMem m s.outLen.toNat len dist

/-- The length instructions LEN_257 to LEN_285, each with every distance symbol (R203, R207 to R235,
R238 to R267): the length and the distance are base plus extra bits, in stream order; a copy that
reaches no further back than the output and that fits is made. At the end no operand is in flight
(log 8). -/
def Obligations.LengthInstrResult : Prop :=
  ∀ (idx n ds p : Nat) (i : Instr) (s : State), lenInstrs[idx]? = some i → s.LenReads idx n ds →
    p = s.pos + lextAt idx + n → s.distAt ds p ≤ s.outLen.toNat →
    s.outLen.toNat + s.lenAt idx ≤ s.outCap.toNat → s.Defined s.outLen.toNat (s.distAt ds p) →
      ∃ m : Memory, exec i s = .next (State.atPos (p + dextAt ds)
        { s with outMem := m, outLen := BitVec.ofNat 32 (s.outLen.toNat + s.lenAt idx),
                 lenOp := none, distOp := none }) ∧
        CopiedMem s.outMem m s.outLen.toNat (s.lenAt idx) (s.distAt ds p)

/-- The errors of a length instruction in their order (R203, R205, R206, R406): length extra bits cut
short; no distance symbol; a distance symbol above 29; distance extra bits cut short; a distance
beyond the output, whatever the capacity; a copy that does not fit. No output byte is written before
any of them. -/
def Obligations.LengthInstrErrors : Prop :=
  ∀ (idx n ds p : Nat) (i : Instr) (s : State), lenInstrs[idx]? = some i →
    p = s.pos + lextAt idx + n →
    (s.Short (lextAt idx) →
      FailsAs (exec i s) .outOfData (fun t => OperandsOnly s t)) ∧
    (∀ k t, s.Readable (lextAt idx) → walk s.treeD (s.atPos (s.pos + lextAt idx)) = .raise k t →
      FailsAs (exec i s) k (fun t => OperandsOnly s t)) ∧
    (s.Readable (lextAt idx + n) → s.treeD.find (s.streamBits (s.pos + lextAt idx) n) = some ds →
      (30 ≤ ds → FailsAs (exec i s) .corrupt (fun t => OperandsOnly s t)) ∧
      (ds < 30 → s.Short (lextAt idx + n + dextAt ds) →
        FailsAs (exec i s) .outOfData (fun t => OperandsOnly s t)) ∧
      (ds < 30 → s.Readable (lextAt idx + n + dextAt ds) → s.outLen.toNat < s.distAt ds p →
        FailsAs (exec i s) .corrupt (fun t => OperandsOnly s t)) ∧
      (ds < 30 → s.Readable (lextAt idx + n + dextAt ds) → s.distAt ds p ≤ s.outLen.toNat →
        s.outCap.toNat < s.outLen.toNat + s.lenAt idx →
          FailsAs (exec i s) .outOfMemory (fun t => OperandsOnly s t)))

/-- A distance instruction inside a length instruction whose length is `len` (R203, R238 to R267):
the distance is base plus extra bits, and the copy is made. That exec of the distance instruction
ends the length instruction is the model's framing of R90's fifth context (log 8). -/
def Obligations.DistanceInstrInLength : Prop :=
  ∀ (ds : Nat) (i : Instr) (s : State) (len : BitVec 9), distInstrs[ds]? = some i →
    s.lenOp = some len → s.Readable (dextAt ds) → s.distAt ds s.pos ≤ s.outLen.toNat →
    s.outLen.toNat + len.toNat ≤ s.outCap.toNat → s.Defined s.outLen.toNat (s.distAt ds s.pos) →
      ∃ m : Memory, exec i s = .next (State.atPos (s.pos + dextAt ds)
        { s with outMem := m, outLen := BitVec.ofNat 32 (s.outLen.toNat + len.toNat),
                 lenOp := none, distOp := none }) ∧
        CopiedMem s.outMem m s.outLen.toNat len.toNat (s.distAt ds s.pos)

/-- A distance instruction by itself (R99, R203, R205): it delivers base plus extra bits, and writes
the cursor only; a distance beyond the output is Corrupt, extra bits cut short are OutOfData. Where
the distance is held is the model's choice (log 8). -/
def Obligations.DistanceInstrAlone : Prop :=
  ∀ (ds : Nat) (i : Instr) (s : State), distInstrs[ds]? = some i → s.lenOp = none →
    (s.Readable (dextAt ds) → s.distAt ds s.pos ≤ s.outLen.toNat → exec i s = .next
      (State.atPos (s.pos + dextAt ds)
        { s with distOp := some (BitVec.ofNat 16 (s.distAt ds s.pos)) })) ∧
    (s.Readable (dextAt ds) → s.outLen.toNat < s.distAt ds s.pos →
      FailsAs (exec i s) .corrupt (CursorOnly s)) ∧
    (s.Short (dextAt ds) → FailsAs (exec i s) .outOfData (CursorOnly s))

/-- The reserved symbols 286, 287, 30 and 31 (R236, R237, R268, R269): Corrupt, always; nothing is
appended and no further bit is read. -/
def Obligations.ReservedSymbolsResult : Prop :=
  ∀ (i : Instr) (s : State), i ∈ llResInstrs ∨ i ∈ distResInstrs →
    exec i s = .next (raiseError .corrupt s)

/-- The range of the operands (R270): a length is 3 to 258, a distance 1 to 32768; every length and
every distance of the range has an encoding (R108), and 258 has two (R109). -/
def Obligations.OperandRanges : Prop :=
  (∀ (s : State) (idx : Nat), idx < 29 → 3 ≤ s.lenAt idx ∧ s.lenAt idx ≤ 258) ∧
    (∀ (s : State) (ds k : Nat), ds < 30 → 1 ≤ s.distAt ds k ∧ s.distAt ds k ≤ 32768) ∧
    (∀ len, 3 ≤ len → len ≤ 258 →
      ∃ idx x, idx < 29 ∧ x < 2 ^ lextAt idx ∧ len = lbaseAt idx + x) ∧
    (∀ dist, 1 ≤ dist → dist ≤ 32768 →
      ∃ ds y, ds < 30 ∧ y < 2 ^ dextAt ds ∧ dist = dbaseAt ds + y) ∧
    ∀ s : State, s.Readable 5 → s.streamField s.pos 5 = 31 →
      lengthOperand 284 s = .ok 258 (s.atPos (s.pos + 5)) ∧ lengthOperand 285 s = .ok 258 s

/-! ### Code lengths -/

/-- CL_LEN, code-length symbols 0 to 15 (R295): one slot filled with the symbol, no bit read, and the end of the step (R294). -/
def Obligations.ClLenResult : Prop :=
  ∀ (len : BitVec 4) (s : State),
    exec (.clLen len) s = clStepEnds { s with lens := s.lens ++ [len] } ∧
    (s.lens.length + 1 < s.hlit.toNat + s.hdist.toNat →
      exec (.clLen len) s = .next { s with lens := s.lens ++ [len] }) ∧
    decodeSel .clSymbol len.toNat = .ok (.clLen len)

/-- CL_REP16, CL_REP17 and CL_REP18 (R296, R297, R298) where the repeat fits: `base + extra` slots
filled with the previous length, or with 0, and the end of the step (R294). -/
def Obligations.ClRepeatResult : Prop :=
  ∀ (i : Instr) (bits base r : Nat) (v : BitVec 4) (s : State),
    (i = .clRep16 ∧ bits = 2 ∧ base = 3 ∧ s.lens.getLast? = some v) ∨
      (i = .clRep17 ∧ bits = 3 ∧ base = 3 ∧ v = 0) ∨
        (i = .clRep18 ∧ bits = 7 ∧ base = 11 ∧ v = 0) →
    s.Readable bits → r = base + s.streamField s.pos bits →
    s.lens.length + r ≤ s.hlit.toNat + s.hdist.toNat →
      exec i s = clStepEnds (State.atPos (s.pos + bits)
        { s with lens := s.lens ++ List.replicate r v }) ∧
      (s.lens.length + r < s.hlit.toNat + s.hdist.toNat →
        exec i s = .next (State.atPos (s.pos + bits)
          { s with lens := s.lens ++ List.replicate r v }))

/-- The errors of the repeats (R296, R297, R298, R300): CL_REP16 in the first slot before its extra
bits are read; extra bits cut short; a repeat past `HLIT + HDIST` before any slot is written. -/
def Obligations.ClRepeatErrors : Prop :=
  (∀ s : State, s.lens = [] → exec .clRep16 s = .next (raiseError .corrupt s)) ∧
    ∀ (i : Instr) (bits base : Nat) (s : State),
      (i = .clRep16 ∧ bits = 2 ∧ base = 3 ∧ s.lens ≠ []) ∨ (i = .clRep17 ∧ bits = 3 ∧ base = 3) ∨
        (i = .clRep18 ∧ bits = 7 ∧ base = 11) →
      (s.Short bits → FailsAs (exec i s) .outOfData (CursorOnly s)) ∧
      (s.Readable bits →
        s.hlit.toNat + s.hdist.toNat < s.lens.length + (base + s.streamField s.pos bits) →
          FailsAs (exec i s) .corrupt (CursorOnly s))

/-- Building the block's trees (R301, R302): the literal/length lengths are the first HLIT entries
of LENS, 0 up to 288; the distance lengths the next HDIST, 0 up to 30; either set over-subscribed is
Corrupt; otherwise the two trees and PHASE LZ, and nothing else; in neither case does the cursor move. -/
def Obligations.BlockTreesBuilt : Prop :=
  ∀ (s : State) (ll d : List Nat), s.lens.length = s.hlit.toNat + s.hdist.toNat →
    s.hlit.toNat ≤ 288 → s.hdist.toNat ≤ 30 →
    ll = (List.range 288).map
      (fun i => if i < s.hlit.toNat then (s.lens.getD i 0).toNat else 0) →
    d = (List.range 30).map
      (fun i => if i < s.hdist.toNat then (s.lens.getD (s.hlit.toNat + i) 0).toNat else 0) →
    (∀ tll td, build ll 15 = some tll → build d 15 = some td →
      clStepEnds s = .next { s with treeLL := tll, treeD := td, phase := .lz }) ∧
    (build ll 15 = none ∨ build d 15 = none →
      FailsAs (clStepEnds s) .corrupt (fun t => ∃ a, t = { s with treeLL := a }))

/-! ### Errors -/

/-- Error entry (R407, R400): ERR, DONE, OUT_LEN and PHASE as the rule says; the cursor, BLK_CNT, the
latches and the input as they were. What OUT_MEM and the operands in flight hold is the model's own
(log 5, log 8). -/
def Obligations.ErrorEntry : Prop :=
  ∀ (k : ErrKind) (s : State),
    (∃ m l o, raiseError k s =
      { s with err := some k, done := true, outLen := 0, phase := .idle, outMem := m, lenOp := l,
               distOp := o }) ∧
    (statusWord (raiseError k s)).extractLsb' 0 4 =
      (match k with | .corrupt => 0x6#4 | .outOfData => 0xA#4 | .outOfMemory => 0xE#4)

/-- Errors are met in the order of the stream (R404, R405): when fetching an instruction raises an
error, that error ends the command and the instruction's effect never happens. -/
def Obligations.FetchErrorEndsCommand : Prop :=
  ∀ (s : State) (k : ErrKind), s.Quiet →
    (∀ t, walk s.treeCL s = .raise k t → s.phase = .dynLens →
      engineStep s = .next (raiseError k t)) ∧
    (∀ t, walk s.treeLL s = .raise k t → s.phase = .lz → s.lenOp = none →
      engineStep s = .next (raiseError k t)) ∧
    (s.inLen.toNat < s.alignedByte + 2 → s.phase = .zhdr →
      FailsAs (engineStep s) .outOfData (CursorOnly s))

/-! ### Host registers and memories -/

/-- STATUS (R28, R22, R400): its fields bit by bit; the host reads it at offset 0x04 and a write there
is ignored. -/
def Obligations.StatusFields : Prop :=
  ∀ s : State,
    (statusWord s).getLsbD 0 = decide (s.phase ≠ .idle) ∧
    (statusWord s).getLsbD 1 = s.done ∧
    (statusWord s).extractLsb' 2 2 =
      (match s.err with
        | none => 0#2 | some .corrupt => 1#2 | some .outOfData => 2#2 | some .outOfMemory => 3#2) ∧
    (statusWord s).extractLsb' 4 3 =
      (match s.phase with | .idle => 0#3 | .zhdr => 1#3 | .bhdr => 2#3 | .dynLens => 3#3 | .lz => 4#3) ∧
    (statusWord s).getLsbD 7 = s.bfinal ∧
    (statusWord s).extractLsb' 8 2 = s.btype ∧
    (statusWord s).extractLsb' 10 22 = 0#22 ∧
    hostStep (.regRead 0x04 4) s = .next { s with hostRData := (statusWord s).toNat } ∧
    ∀ v, hostStep (.regWrite 0x04 4 v) s = .next s

/-- The register map, read (R35): each aligned 32-bit read returns its register and changes nothing
but what the host has read; a read at a platform address in the block's window is that of its offset
(R72). That a command's OUT_LEN is read before the host has read STATUS with DONE 1 as well (R76) is
the model's choice (log 28). -/
def Obligations.RegisterReads : Prop :=
  ∀ s : State,
    (∀ (off : Nat) (v : Word), (off = 0x00 ∧ v = 0#32) ∨ (off = 0x04 ∧ v = statusWord s) ∨
        (off = 0x08 ∧ v = s.inLen) ∨ (off = 0x0C ∧ v = s.outCap) ∨ (off = 0x10 ∧ v = s.outLen) ∨
        (off = 0x14 ∧ v = s.bytePos) ∨ (off = 0x18 ∧ v = s.bitOff.zeroExtend 32) ∨
        (off = 0x1C ∧ v = s.blkCnt) ∨ (0x20 ≤ off ∧ off % 4 = 0 ∧ v = 0#32) →
      hostStep (.regRead off 4) s = .next { s with hostRData := v.toNat }) ∧
    ∀ off n, off < s.params.regWindow →
      hostStep (.busRead (s.params.regBase + off) n) s = hostStep (.regRead off n) s

/-- The register map, written (R29, R30, R27, R35, R443, R446): IN_LEN and OUT_CAP take the smaller
of the value and the memory's size, only while idle; CTRL commands only with bit 0 set; every other
register, and every register but CTRL while busy, ignores the write; a write at a platform address in
the block's window is that of its offset (R72). -/
def Obligations.RegisterWrites : Prop :=
  ∀ (s : State) (v : Word),
    (s.phase = .idle → hostStep (.regWrite 0x08 4 v.toNat) s =
      .next { s with inLen := if v ≤ s.params.inMemSize then v else s.params.inMemSize }) ∧
    (s.phase = .idle → hostStep (.regWrite 0x0C 4 v.toNat) s =
      .next { s with outCap := if v ≤ s.params.outMemSize then v else s.params.outMemSize }) ∧
    (v.getLsbD 0 = true → hostStep (.regWrite 0x00 4 v.toNat) s = exec .start s) ∧
    (v.getLsbD 0 = false → hostStep (.regWrite 0x00 4 v.toNat) s = .next s) ∧
    (∀ off, off ≠ 0x00 → off ≠ 0x08 → off ≠ 0x0C →
      hostStep (.regWrite off 4 v.toNat) s = .next s) ∧
    (s.phase ≠ .idle → ∀ off n w, hostStep (.regWrite off n w) s = .next s) ∧
    ∀ off n w, off < s.params.regWindow →
      hostStep (.busWrite (s.params.regBase + off) n w) s = hostStep (.regWrite off n w) s

/-- A register access that is not an aligned 32-bit word (R66), narrower, wider or misaligned: a write
has no effect, a read returns a free value of the access's width (log 13) and changes nothing else but
the count of draws. -/
def Obligations.BadRegisterAccess : Prop :=
  ∀ (s : State) (off n v : Nat), n ≠ 4 ∨ off % 4 ≠ 0 →
    hostStep (.regWrite off n v) s = .next s ∧
    ∃ d, hostStep (.regRead off n) s =
      .next { s with hostRData := Config.anyValue s.drawIdx % 2 ^ (8 * n), drawIdx := d }

/-- A host write to `IN_MEM` while idle (R41, R66, R72): of one byte, or of any number of them in the
byte order that the parameter `HOST_MEM_ENDIAN` gives, at rising addresses (log 14); every other byte
and the rest of the state are as before, and the bytes written are raced no more (log 27). With the
spaces placed as R72 and 93 section 3 ask, a write at the byte's platform address is the same. -/
def Obligations.HostLoadsInput : Prop :=
  ∀ (s : State) (a n v : Nat), s.phase = .idle → a + n ≤ s.params.inMemSize.toNat →
    (∃ (m : Memory) (r : List Host.Cell),
      hostStep (.memWrite .inMem a n v) s = .next { s with inMem := m, inRace := r } ∧
        (∀ k, k < n → raceAt r (a + k) = [] ∧ m.get (a + k) =
          some (BitVec.ofNat 8 (v / 256 ^ (if s.params.hostBigEndian then n - 1 - k else k)))) ∧
        ∀ a', a' < a ∨ a + n ≤ a' →
          m.get a' = s.inMem.get a' ∧ raceAt r a' = raceAt s.inRace a') ∧
    (s.params.Legal → a < s.params.inMemSize.toNat →
      hostStep (.busWrite (s.params.inBase + a) n v) s = hostStep (.memWrite .inMem a n v) s)

/-- The host's reads of the memories. The result (R42, R445): after a command that ended without
error, a read of a byte below OUT_LEN returns the byte the command left there; that it does so before
the host has read STATUS with DONE 1 as well (R76) is the model's choice (log 28). The input, in any
phase: a read of any number of bytes of `IN_MEM` changes nothing but what the host has read, and made
again it returns the same; a byte without a race reads as the byte it holds. R70 makes reads of
`IN_MEM` idempotent and free of side effects, but gives no value, and R72 lists the host's access for
BUSY = 0 only: that a read made while BUSY completes and returns the byte held is the model's reading
(DEDUCED, log 13), and what a raced byte reads as is the model's choice (log 27). With the spaces
placed as R72 and 93 section 3 ask, a read at the byte's platform address is the same (log 23). -/
def Obligations.HostReadsResult : Prop :=
  (∀ (s : State) (a : Nat) (b : Byte), s.phase = .idle → s.done = true → s.err = none →
    s.outRace = [] → a < s.outLen.toNat → s.outLen ≤ s.params.outMemSize →
    s.outMem.get a = some b →
      hostStep (.memRead .outMem a 1) s = .next { s with hostRData := b.toNat }) ∧
  (∀ (s : State) (a n : Nat), a + n ≤ s.params.inMemSize.toNat →
    ∃ v, hostStep (.memRead .inMem a n) s = .next { s with hostRData := v } ∧
      hostStep (.memRead .inMem a n) { s with hostRData := v } = .next { s with hostRData := v }) ∧
  (∀ (s : State) (a : Nat), a < s.params.inMemSize.toNat → raceAt s.inRace a = [] →
    hostStep (.memRead .inMem a 1) s = .next { s with hostRData := (s.inByte a).toNat }) ∧
  ∀ (s : State) (sp : Space) (a n : Nat), s.params.Legal → a < s.params.memSize sp →
    hostStep (.busRead (s.params.memAddr sp a) n) s = hostStep (.memRead sp a n) s

/-- A host write to `IN_MEM` while a command runs (R444): the engine's later reads of that byte give
the old or the new value, and no other. -/
def Obligations.InputRaceDraws : Prop :=
  ∀ (s t : State) (a v : Nat), s.phase ≠ .idle → s.inRace = [] →
    a < s.params.inMemSize.toNat → hostStep (.memWrite .inMem a 1 v) s = .next t →
      ∃ b u, readIn a t = .ok b u ∧ (b = s.inByte a ∨ b = BitVec.ofNat 8 v) ∧
        ∀ a', a' ≠ a → t.inByte a' = s.inByte a' ∧ raceAt t.inRace a' = []

/-! ### The whole machine -/

/-- A step with no host access pending is one engine step, and so is the engine's turn in the
schedule (R20, R449; log 1); the engine's step runs the instruction that the bits at the cursor
select in the context PHASE gives (R90, R91, R92, R96, R97), the cursor moved past them. The last
clause, a step that fetches and runs a distance instruction by itself with a length in flight, is the
model's framing of R90's fifth context (log 8): R203 and R449 make a length instruction with its
distance one step, so no run of the core reaches such a step. -/
def Obligations.StepRunsDecodedInstruction : Prop :=
  ∀ s : State,
    (s.hostQ = [] → step s = engineStep s) ∧
    (∀ q, s.hostQ = .engine :: q → step s = engineStep { s with hostQ := q }) ∧
    (∀ q v i, s.hostQ = .regWrite 0 4 v :: q → decodeSel .hostCtrl v = .ok i →
      step s = exec i { s with hostQ := q }) ∧
    (∀ i, s.phase = .zhdr → s.Quiet → s.alignedByte + 2 ≤ s.inLen.toNat →
      decodeBytes .zlibHeader [s.inByte s.alignedByte, s.inByte (s.alignedByte + 1)] = .ok i →
        engineStep s =
          exec i { s with bytePos := BitVec.ofNat 32 (s.alignedByte + 2), bitOff := 0 }) ∧
    (∀ i, s.phase = .bhdr → s.Readable 3 →
      decodeSel .blockHeader (s.streamField s.pos 3) = .ok i →
        engineStep s = exec i (s.atPos (s.pos + 3))) ∧
    (∀ i n sym, s.phase = .dynLens → s.Readable n →
      s.treeCL.find (s.streamBits s.pos n) = some sym → decodeSel .clSymbol sym = .ok i →
        engineStep s = exec i (s.atPos (s.pos + n))) ∧
    (∀ i n sym, s.phase = .lz → s.lenOp = none → s.Readable n →
      s.treeLL.find (s.streamBits s.pos n) = some sym → decodeSel .litlenSymbol sym = .ok i →
        engineStep s = exec i (s.atPos (s.pos + n))) ∧
    (∀ i n sym l, s.phase = .lz → s.lenOp = some l → s.Readable n →
      s.treeD.find (s.streamBits s.pos n) = some sym → decodeSel .distSymbol sym = .ok i →
        engineStep s = exec i (s.atPos (s.pos + n)))

/-- The frame of the instructions that read symbols and write output: LIT, LEN_257 to LEN_285, the
distance instructions and the reserved symbols. Whenever one gives a next state, it changed nothing
but the cursor, the operands in flight, OUT_LEN, the count of draws and the bytes from the old
OUT_LEN to the new one; or it took the error entry with no output byte written. -/
def Obligations.OutputInstrFrame : Prop :=
  ∀ (i : Instr) (s t : State),
    (∃ b, i = .lit b) ∨ i ∈ lenInstrs ∨ i ∈ distInstrs ∨ i ∈ llResInstrs ∨ i ∈ distResInstrs →
    exec i s = .next t →
      (OutputOnly s t ∧ OutSameOutside s.outLen.toNat t.outLen.toNat s t) ∨
        ∃ k u, t = raiseError k u ∧ OperandsOnly s u

/-- The frame of BLK_STORED: beside what block completion writes, nothing changes but the latches,
the cursor, OUT_LEN, the count of draws and the bytes from the old OUT_LEN to the new one; or the
error entry was taken, nothing else changed before it. -/
def Obligations.StoredBlockFrame : Prop :=
  ∀ (f : Bool) (s t : State), exec (.blkStored f) s = .next t →
    ∃ u, OutputOnly { s with bfinal := f, btype := 0 } u ∧
      OutSameOutside s.outLen.toNat u.outLen.toNat s u ∧ u.lenOp = s.lenOp ∧ u.distOp = s.distOp ∧
        (t = blockComplete u ∨ ∃ k, t = raiseError k u)

/-- The frame of BLK_DYNAMIC and the code-length instructions, which store nothing: the header
registers, LENS, the trees, PHASE, the cursor and the count of draws apart (and the latches for the
block header), everything is as before; or the error entry was taken from such a state. -/
def Obligations.HeaderInstrFrame : Prop :=
  (∀ (f : Bool) (s t : State), exec (.blkDynamic f) s = .next t →
    ∃ u, DynHeaderOnly { s with bfinal := f, btype := 2 } u ∧
      (t = u ∨ ∃ k, t = raiseError k u)) ∧
    ∀ (i : Instr) (s t : State),
      (∃ len, i = .clLen len) ∨ i = .clRep16 ∨ i = .clRep17 ∨ i = .clRep18 →
      exec i s = .next t → ∃ u, HeaderOnly s u ∧ (t = u ∨ ∃ k, t = raiseError k u)

/-- The engine never writes its input, the configuration registers or anything of the host's (R41,
R29, R30, R79): from any state. -/
def Obligations.EngineKeepsInput : Prop :=
  ∀ s t : State, engineStep s = .next t →
    t.inMem = s.inMem ∧ t.inLen = s.inLen ∧ t.outCap = s.outCap ∧ t.params = s.params ∧
      t.hostQ = s.hostQ ∧ t.hostRData = s.hostRData ∧ t.inRace = s.inRace ∧
        t.outRace = s.outRace ∧ t.epoch = s.epoch

/-- The latches are written by START and by block headers only (R32, R33), and the header counts by
block headers only (R36). -/
def Obligations.LatchesKeptOutsideHeaders : Prop :=
  ∀ s t : State, s.phase ≠ .bhdr → engineStep s = .next t →
    t.bfinal = s.bfinal ∧ t.btype = s.btype ∧ t.hlit = s.hlit ∧ t.hdist = s.hdist ∧
      t.hclen = s.hclen ∧ t.clLens = s.clLens

/-- The engine leaves IDLE only by a START (R22, R416): a step from IDLE that leaves it was a host
write of a word to CTRL with bit 0 set, at its offset or at a platform address that leads there. -/
def Obligations.OnlyStartLeavesIdle : Prop :=
  ∀ s t : State, s.phase = .idle → step s = .next t → t.phase ≠ .idle →
    ∃ v q, v.testBit 0 = true ∧ t.phase = .zhdr ∧ (s.hostQ = .regWrite 0 4 v :: q ∨
      ∃ addr, s.params.route addr = some (.reg 0) ∧ s.hostQ = .busWrite addr 4 v :: q)

/-- The cursor never moves backward within a command, whatever the step does (R25). -/
def Obligations.CursorMonotone : Prop :=
  ∀ s t : State, s.Inv → s.busy = true → engineStep s = .next t →
    s.pos ≤ t.pos ∧ t.pos ≤ 8 * t.inLen.toNat

/-- The output is append-only (R42, R65): a step that does not take the error entry leaves every
byte below the old OUT_LEN and every byte from the new OUT_LEN on as it was, and OUT_LEN does not
fall. -/
def Obligations.OutputAppendOnly : Prop :=
  ∀ s t : State, s.Inv → s.busy = true → engineStep s = .next t → t.err = none →
    s.outLen ≤ t.outLen ∧ OutSameOutside s.outLen.toNat t.outLen.toNat s t

/-- Reset (R440), as an event of a running machine, whatever it was doing: the registers the rule names
have the values it gives, and no error is recorded. -/
def Obligations.ResetEvent : Prop :=
  ∀ s : State, ∃ t, hostStep .reset s = .next t ∧ t.phase = .idle ∧ t.bytePos = 0 ∧ t.bitOff = 0 ∧
    t.inLen = 0 ∧ t.outCap = s.params.outMemSize ∧ t.outLen = 0 ∧ t.blkCnt = 0 ∧
    t.bfinal = false ∧ t.btype = 0 ∧ t.done = false ∧ t.err = none ∧ statusWord t = 0

/-- The invariant holds after reset, for every legal choice of the OPEN parameters (R7). -/
def Obligations.ResetMeetsInvariant : Prop :=
  State.reset.Inv ∧
    ∀ p : Params, p.Legal → (State.resetWith p).Inv

/-- Every step keeps the invariant, from every state that meets it: whatever the host does, raced
bytes or not. -/
def Obligations.StepKeepsInvariant : Prop :=
  ∀ s t : State, s.Inv → step s = .next t → t.Inv

/-- No run-time stop (R73, R131): from every state that meets the invariant, a step answers a next
state, unless the host itself names a byte that does not exist. The engine forms no address outside
its memories and asks for no field wider than 32 bits. -/
def Obligations.StepNeverStops : Prop :=
  ∀ s : State, s.Inv → (∀ op q, s.hostQ = op :: q → op.inRange s.params) → ∃ t, step s = .next t

/-- Termination (R330): left to itself, the engine is back in IDLE after at most `8*IN_LEN + 1`
steps. -/
def Obligations.CommandTerminates : Prop :=
  ∀ s : State, s.Inv → s.hostQ = [] →
    ∃ t, Host.Core.run core (8 * s.inLen.toNat + 1) s = .next t ∧ t.phase = .idle ∧
      (s.busy = true → t.done = true)

/-- Unread input has no influence (R106, R327): a step that succeeds gives the same result on any
input that agrees with this one on the bytes up to the cursor it leaves, however long that input is
and whatever it holds after them. -/
def Obligations.UnreadInputIrrelevant : Prop :=
  ∀ (s t : State) (m : Memory) (n : Word) (b : Nat), s.Quiet → s.Inv → s.busy = true →
    engineStep s = .next t → t.err = none → t.pos ≤ 8 * b → b ≤ s.inLen.toNat → b ≤ n.toNat →
    n ≤ s.params.inMemSize → (∀ a, a < b → (s.setInMem m).inByte a = s.inByte a) →
      engineStep ((s.setInMem m).setInLen n) = .next ((t.setInMem m).setInLen n)
end

