-- ==== Sys2Proof/Laws/State.lean ====
section
/-! SUPPORT. What each update of State does to each field, and what the derived registers read as
after it. -/

namespace Sys2Proof.Machine

variable (s : State)

@[simp] theorem State.setCursor_params (bp : Word) (bo : BitVec 3) : (s.setCursor bp bo).params = s.params := rfl
@[simp] theorem State.setCursor_phase (bp : Word) (bo : BitVec 3) : (s.setCursor bp bo).phase = s.phase := rfl
@[simp] theorem State.setCursor_bytePos (bp : Word) (bo : BitVec 3) : (s.setCursor bp bo).bytePos = bp := rfl
@[simp] theorem State.setCursor_bitOff (bp : Word) (bo : BitVec 3) : (s.setCursor bp bo).bitOff = bo := rfl
@[simp] theorem State.setCursor_done (bp : Word) (bo : BitVec 3) : (s.setCursor bp bo).done = s.done := rfl
@[simp] theorem State.setCursor_err (bp : Word) (bo : BitVec 3) : (s.setCursor bp bo).err = s.err := rfl
@[simp] theorem State.setCursor_inLen (bp : Word) (bo : BitVec 3) : (s.setCursor bp bo).inLen = s.inLen := rfl
@[simp] theorem State.setCursor_outCap (bp : Word) (bo : BitVec 3) : (s.setCursor bp bo).outCap = s.outCap := rfl
@[simp] theorem State.setCursor_outLen (bp : Word) (bo : BitVec 3) : (s.setCursor bp bo).outLen = s.outLen := rfl
@[simp] theorem State.setCursor_blkCnt (bp : Word) (bo : BitVec 3) : (s.setCursor bp bo).blkCnt = s.blkCnt := rfl
@[simp] theorem State.setCursor_bfinal (bp : Word) (bo : BitVec 3) : (s.setCursor bp bo).bfinal = s.bfinal := rfl
@[simp] theorem State.setCursor_btype (bp : Word) (bo : BitVec 3) : (s.setCursor bp bo).btype = s.btype := rfl
@[simp] theorem State.setCursor_hlit (bp : Word) (bo : BitVec 3) : (s.setCursor bp bo).hlit = s.hlit := rfl
@[simp] theorem State.setCursor_hdist (bp : Word) (bo : BitVec 3) : (s.setCursor bp bo).hdist = s.hdist := rfl
@[simp] theorem State.setCursor_hclen (bp : Word) (bo : BitVec 3) : (s.setCursor bp bo).hclen = s.hclen := rfl
@[simp] theorem State.setCursor_clLens (bp : Word) (bo : BitVec 3) : (s.setCursor bp bo).clLens = s.clLens := rfl
@[simp] theorem State.setCursor_lens (bp : Word) (bo : BitVec 3) : (s.setCursor bp bo).lens = s.lens := rfl
@[simp] theorem State.setCursor_treeLL (bp : Word) (bo : BitVec 3) : (s.setCursor bp bo).treeLL = s.treeLL := rfl
@[simp] theorem State.setCursor_treeD (bp : Word) (bo : BitVec 3) : (s.setCursor bp bo).treeD = s.treeD := rfl
@[simp] theorem State.setCursor_treeCL (bp : Word) (bo : BitVec 3) : (s.setCursor bp bo).treeCL = s.treeCL := rfl
@[simp] theorem State.setCursor_inMem (bp : Word) (bo : BitVec 3) : (s.setCursor bp bo).inMem = s.inMem := rfl
@[simp] theorem State.setCursor_outMem (bp : Word) (bo : BitVec 3) : (s.setCursor bp bo).outMem = s.outMem := rfl
@[simp] theorem State.setCursor_lenOp (bp : Word) (bo : BitVec 3) : (s.setCursor bp bo).lenOp = s.lenOp := rfl
@[simp] theorem State.setCursor_distOp (bp : Word) (bo : BitVec 3) : (s.setCursor bp bo).distOp = s.distOp := rfl
@[simp] theorem State.setCursor_inRace (bp : Word) (bo : BitVec 3) : (s.setCursor bp bo).inRace = s.inRace := rfl
@[simp] theorem State.setCursor_outRace (bp : Word) (bo : BitVec 3) : (s.setCursor bp bo).outRace = s.outRace := rfl
@[simp] theorem State.setCursor_hostQ (bp : Word) (bo : BitVec 3) : (s.setCursor bp bo).hostQ = s.hostQ := rfl
@[simp] theorem State.setCursor_hostRData (bp : Word) (bo : BitVec 3) : (s.setCursor bp bo).hostRData = s.hostRData := rfl
@[simp] theorem State.setCursor_drawIdx (bp : Word) (bo : BitVec 3) : (s.setCursor bp bo).drawIdx = s.drawIdx := rfl
@[simp] theorem State.setCursor_epoch (bp : Word) (bo : BitVec 3) : (s.setCursor bp bo).epoch = s.epoch := rfl
@[simp] theorem State.setCursor_busy (bp : Word) (bo : BitVec 3) : (s.setCursor bp bo).busy = s.busy := rfl
@[simp] theorem State.setCursor_lensIdx (bp : Word) (bo : BitVec 3) : (s.setCursor bp bo).lensIdx = s.lensIdx := rfl
@[simp] theorem State.setCursor_lensTotal (bp : Word) (bo : BitVec 3) : (s.setCursor bp bo).lensTotal = s.lensTotal := rfl
@[simp] theorem State.setCursor_inByte (bp : Word) (bo : BitVec 3) (a : Nat) : (s.setCursor bp bo).inByte a = s.inByte a := rfl

@[simp] theorem State.setPhase_params (p : Phase) : (s.setPhase p).params = s.params := rfl
@[simp] theorem State.setPhase_phase (p : Phase) : (s.setPhase p).phase = p := rfl
@[simp] theorem State.setPhase_bytePos (p : Phase) : (s.setPhase p).bytePos = s.bytePos := rfl
@[simp] theorem State.setPhase_bitOff (p : Phase) : (s.setPhase p).bitOff = s.bitOff := rfl
@[simp] theorem State.setPhase_done (p : Phase) : (s.setPhase p).done = s.done := rfl
@[simp] theorem State.setPhase_err (p : Phase) : (s.setPhase p).err = s.err := rfl
@[simp] theorem State.setPhase_inLen (p : Phase) : (s.setPhase p).inLen = s.inLen := rfl
@[simp] theorem State.setPhase_outCap (p : Phase) : (s.setPhase p).outCap = s.outCap := rfl
@[simp] theorem State.setPhase_outLen (p : Phase) : (s.setPhase p).outLen = s.outLen := rfl
@[simp] theorem State.setPhase_blkCnt (p : Phase) : (s.setPhase p).blkCnt = s.blkCnt := rfl
@[simp] theorem State.setPhase_bfinal (p : Phase) : (s.setPhase p).bfinal = s.bfinal := rfl
@[simp] theorem State.setPhase_btype (p : Phase) : (s.setPhase p).btype = s.btype := rfl
@[simp] theorem State.setPhase_hlit (p : Phase) : (s.setPhase p).hlit = s.hlit := rfl
@[simp] theorem State.setPhase_hdist (p : Phase) : (s.setPhase p).hdist = s.hdist := rfl
@[simp] theorem State.setPhase_hclen (p : Phase) : (s.setPhase p).hclen = s.hclen := rfl
@[simp] theorem State.setPhase_clLens (p : Phase) : (s.setPhase p).clLens = s.clLens := rfl
@[simp] theorem State.setPhase_lens (p : Phase) : (s.setPhase p).lens = s.lens := rfl
@[simp] theorem State.setPhase_treeLL (p : Phase) : (s.setPhase p).treeLL = s.treeLL := rfl
@[simp] theorem State.setPhase_treeD (p : Phase) : (s.setPhase p).treeD = s.treeD := rfl
@[simp] theorem State.setPhase_treeCL (p : Phase) : (s.setPhase p).treeCL = s.treeCL := rfl
@[simp] theorem State.setPhase_inMem (p : Phase) : (s.setPhase p).inMem = s.inMem := rfl
@[simp] theorem State.setPhase_outMem (p : Phase) : (s.setPhase p).outMem = s.outMem := rfl
@[simp] theorem State.setPhase_lenOp (p : Phase) : (s.setPhase p).lenOp = s.lenOp := rfl
@[simp] theorem State.setPhase_distOp (p : Phase) : (s.setPhase p).distOp = s.distOp := rfl
@[simp] theorem State.setPhase_inRace (p : Phase) : (s.setPhase p).inRace = s.inRace := rfl
@[simp] theorem State.setPhase_outRace (p : Phase) : (s.setPhase p).outRace = s.outRace := rfl
@[simp] theorem State.setPhase_hostQ (p : Phase) : (s.setPhase p).hostQ = s.hostQ := rfl
@[simp] theorem State.setPhase_hostRData (p : Phase) : (s.setPhase p).hostRData = s.hostRData := rfl
@[simp] theorem State.setPhase_drawIdx (p : Phase) : (s.setPhase p).drawIdx = s.drawIdx := rfl
@[simp] theorem State.setPhase_epoch (p : Phase) : (s.setPhase p).epoch = s.epoch := rfl
@[simp] theorem State.setPhase_lensIdx (p : Phase) : (s.setPhase p).lensIdx = s.lensIdx := rfl
@[simp] theorem State.setPhase_lensTotal (p : Phase) : (s.setPhase p).lensTotal = s.lensTotal := rfl
@[simp] theorem State.setPhase_pos (p : Phase) : (s.setPhase p).pos = s.pos := rfl
@[simp] theorem State.setPhase_inByte (p : Phase) (a : Nat) : (s.setPhase p).inByte a = s.inByte a := rfl

@[simp] theorem State.setStatus_params (d : Bool) (e : Option ErrKind) : (s.setStatus d e).params = s.params := rfl
@[simp] theorem State.setStatus_phase (d : Bool) (e : Option ErrKind) : (s.setStatus d e).phase = s.phase := rfl
@[simp] theorem State.setStatus_bytePos (d : Bool) (e : Option ErrKind) : (s.setStatus d e).bytePos = s.bytePos := rfl
@[simp] theorem State.setStatus_bitOff (d : Bool) (e : Option ErrKind) : (s.setStatus d e).bitOff = s.bitOff := rfl
@[simp] theorem State.setStatus_done (d : Bool) (e : Option ErrKind) : (s.setStatus d e).done = d := rfl
@[simp] theorem State.setStatus_err (d : Bool) (e : Option ErrKind) : (s.setStatus d e).err = e := rfl
@[simp] theorem State.setStatus_inLen (d : Bool) (e : Option ErrKind) : (s.setStatus d e).inLen = s.inLen := rfl
@[simp] theorem State.setStatus_outCap (d : Bool) (e : Option ErrKind) : (s.setStatus d e).outCap = s.outCap := rfl
@[simp] theorem State.setStatus_outLen (d : Bool) (e : Option ErrKind) : (s.setStatus d e).outLen = s.outLen := rfl
@[simp] theorem State.setStatus_blkCnt (d : Bool) (e : Option ErrKind) : (s.setStatus d e).blkCnt = s.blkCnt := rfl
@[simp] theorem State.setStatus_bfinal (d : Bool) (e : Option ErrKind) : (s.setStatus d e).bfinal = s.bfinal := rfl
@[simp] theorem State.setStatus_btype (d : Bool) (e : Option ErrKind) : (s.setStatus d e).btype = s.btype := rfl
@[simp] theorem State.setStatus_hlit (d : Bool) (e : Option ErrKind) : (s.setStatus d e).hlit = s.hlit := rfl
@[simp] theorem State.setStatus_hdist (d : Bool) (e : Option ErrKind) : (s.setStatus d e).hdist = s.hdist := rfl
@[simp] theorem State.setStatus_hclen (d : Bool) (e : Option ErrKind) : (s.setStatus d e).hclen = s.hclen := rfl
@[simp] theorem State.setStatus_clLens (d : Bool) (e : Option ErrKind) : (s.setStatus d e).clLens = s.clLens := rfl
@[simp] theorem State.setStatus_lens (d : Bool) (e : Option ErrKind) : (s.setStatus d e).lens = s.lens := rfl
@[simp] theorem State.setStatus_treeLL (d : Bool) (e : Option ErrKind) : (s.setStatus d e).treeLL = s.treeLL := rfl
@[simp] theorem State.setStatus_treeD (d : Bool) (e : Option ErrKind) : (s.setStatus d e).treeD = s.treeD := rfl
@[simp] theorem State.setStatus_treeCL (d : Bool) (e : Option ErrKind) : (s.setStatus d e).treeCL = s.treeCL := rfl
@[simp] theorem State.setStatus_inMem (d : Bool) (e : Option ErrKind) : (s.setStatus d e).inMem = s.inMem := rfl
@[simp] theorem State.setStatus_outMem (d : Bool) (e : Option ErrKind) : (s.setStatus d e).outMem = s.outMem := rfl
@[simp] theorem State.setStatus_lenOp (d : Bool) (e : Option ErrKind) : (s.setStatus d e).lenOp = s.lenOp := rfl
@[simp] theorem State.setStatus_distOp (d : Bool) (e : Option ErrKind) : (s.setStatus d e).distOp = s.distOp := rfl
@[simp] theorem State.setStatus_inRace (d : Bool) (e : Option ErrKind) : (s.setStatus d e).inRace = s.inRace := rfl
@[simp] theorem State.setStatus_outRace (d : Bool) (e : Option ErrKind) : (s.setStatus d e).outRace = s.outRace := rfl
@[simp] theorem State.setStatus_hostQ (d : Bool) (e : Option ErrKind) : (s.setStatus d e).hostQ = s.hostQ := rfl
@[simp] theorem State.setStatus_hostRData (d : Bool) (e : Option ErrKind) : (s.setStatus d e).hostRData = s.hostRData := rfl
@[simp] theorem State.setStatus_drawIdx (d : Bool) (e : Option ErrKind) : (s.setStatus d e).drawIdx = s.drawIdx := rfl
@[simp] theorem State.setStatus_epoch (d : Bool) (e : Option ErrKind) : (s.setStatus d e).epoch = s.epoch := rfl
@[simp] theorem State.setStatus_busy (d : Bool) (e : Option ErrKind) : (s.setStatus d e).busy = s.busy := rfl
@[simp] theorem State.setStatus_lensIdx (d : Bool) (e : Option ErrKind) : (s.setStatus d e).lensIdx = s.lensIdx := rfl
@[simp] theorem State.setStatus_lensTotal (d : Bool) (e : Option ErrKind) : (s.setStatus d e).lensTotal = s.lensTotal := rfl
@[simp] theorem State.setStatus_pos (d : Bool) (e : Option ErrKind) : (s.setStatus d e).pos = s.pos := rfl
@[simp] theorem State.setStatus_inByte (d : Bool) (e : Option ErrKind) (a : Nat) : (s.setStatus d e).inByte a = s.inByte a := rfl

@[simp] theorem State.setInLen_params (n : Word) : (s.setInLen n).params = s.params := rfl
@[simp] theorem State.setInLen_phase (n : Word) : (s.setInLen n).phase = s.phase := rfl
@[simp] theorem State.setInLen_bytePos (n : Word) : (s.setInLen n).bytePos = s.bytePos := rfl
@[simp] theorem State.setInLen_bitOff (n : Word) : (s.setInLen n).bitOff = s.bitOff := rfl
@[simp] theorem State.setInLen_done (n : Word) : (s.setInLen n).done = s.done := rfl
@[simp] theorem State.setInLen_err (n : Word) : (s.setInLen n).err = s.err := rfl
@[simp] theorem State.setInLen_inLen (n : Word) : (s.setInLen n).inLen = n := rfl
@[simp] theorem State.setInLen_outCap (n : Word) : (s.setInLen n).outCap = s.outCap := rfl
@[simp] theorem State.setInLen_outLen (n : Word) : (s.setInLen n).outLen = s.outLen := rfl
@[simp] theorem State.setInLen_blkCnt (n : Word) : (s.setInLen n).blkCnt = s.blkCnt := rfl
@[simp] theorem State.setInLen_bfinal (n : Word) : (s.setInLen n).bfinal = s.bfinal := rfl
@[simp] theorem State.setInLen_btype (n : Word) : (s.setInLen n).btype = s.btype := rfl
@[simp] theorem State.setInLen_hlit (n : Word) : (s.setInLen n).hlit = s.hlit := rfl
@[simp] theorem State.setInLen_hdist (n : Word) : (s.setInLen n).hdist = s.hdist := rfl
@[simp] theorem State.setInLen_hclen (n : Word) : (s.setInLen n).hclen = s.hclen := rfl
@[simp] theorem State.setInLen_clLens (n : Word) : (s.setInLen n).clLens = s.clLens := rfl
@[simp] theorem State.setInLen_lens (n : Word) : (s.setInLen n).lens = s.lens := rfl
@[simp] theorem State.setInLen_treeLL (n : Word) : (s.setInLen n).treeLL = s.treeLL := rfl
@[simp] theorem State.setInLen_treeD (n : Word) : (s.setInLen n).treeD = s.treeD := rfl
@[simp] theorem State.setInLen_treeCL (n : Word) : (s.setInLen n).treeCL = s.treeCL := rfl
@[simp] theorem State.setInLen_inMem (n : Word) : (s.setInLen n).inMem = s.inMem := rfl
@[simp] theorem State.setInLen_outMem (n : Word) : (s.setInLen n).outMem = s.outMem := rfl
@[simp] theorem State.setInLen_lenOp (n : Word) : (s.setInLen n).lenOp = s.lenOp := rfl
@[simp] theorem State.setInLen_distOp (n : Word) : (s.setInLen n).distOp = s.distOp := rfl
@[simp] theorem State.setInLen_inRace (n : Word) : (s.setInLen n).inRace = s.inRace := rfl
@[simp] theorem State.setInLen_outRace (n : Word) : (s.setInLen n).outRace = s.outRace := rfl
@[simp] theorem State.setInLen_hostQ (n : Word) : (s.setInLen n).hostQ = s.hostQ := rfl
@[simp] theorem State.setInLen_hostRData (n : Word) : (s.setInLen n).hostRData = s.hostRData := rfl
@[simp] theorem State.setInLen_drawIdx (n : Word) : (s.setInLen n).drawIdx = s.drawIdx := rfl
@[simp] theorem State.setInLen_epoch (n : Word) : (s.setInLen n).epoch = s.epoch := rfl
@[simp] theorem State.setInLen_busy (n : Word) : (s.setInLen n).busy = s.busy := rfl
@[simp] theorem State.setInLen_lensIdx (n : Word) : (s.setInLen n).lensIdx = s.lensIdx := rfl
@[simp] theorem State.setInLen_lensTotal (n : Word) : (s.setInLen n).lensTotal = s.lensTotal := rfl
@[simp] theorem State.setInLen_pos (n : Word) : (s.setInLen n).pos = s.pos := rfl
@[simp] theorem State.setInLen_inByte (n : Word) (a : Nat) : (s.setInLen n).inByte a = s.inByte a := rfl

@[simp] theorem State.setOutCap_params (n : Word) : (s.setOutCap n).params = s.params := rfl
@[simp] theorem State.setOutCap_phase (n : Word) : (s.setOutCap n).phase = s.phase := rfl
@[simp] theorem State.setOutCap_bytePos (n : Word) : (s.setOutCap n).bytePos = s.bytePos := rfl
@[simp] theorem State.setOutCap_bitOff (n : Word) : (s.setOutCap n).bitOff = s.bitOff := rfl
@[simp] theorem State.setOutCap_done (n : Word) : (s.setOutCap n).done = s.done := rfl
@[simp] theorem State.setOutCap_err (n : Word) : (s.setOutCap n).err = s.err := rfl
@[simp] theorem State.setOutCap_inLen (n : Word) : (s.setOutCap n).inLen = s.inLen := rfl
@[simp] theorem State.setOutCap_outCap (n : Word) : (s.setOutCap n).outCap = n := rfl
@[simp] theorem State.setOutCap_outLen (n : Word) : (s.setOutCap n).outLen = s.outLen := rfl
@[simp] theorem State.setOutCap_blkCnt (n : Word) : (s.setOutCap n).blkCnt = s.blkCnt := rfl
@[simp] theorem State.setOutCap_bfinal (n : Word) : (s.setOutCap n).bfinal = s.bfinal := rfl
@[simp] theorem State.setOutCap_btype (n : Word) : (s.setOutCap n).btype = s.btype := rfl
@[simp] theorem State.setOutCap_hlit (n : Word) : (s.setOutCap n).hlit = s.hlit := rfl
@[simp] theorem State.setOutCap_hdist (n : Word) : (s.setOutCap n).hdist = s.hdist := rfl
@[simp] theorem State.setOutCap_hclen (n : Word) : (s.setOutCap n).hclen = s.hclen := rfl
@[simp] theorem State.setOutCap_clLens (n : Word) : (s.setOutCap n).clLens = s.clLens := rfl
@[simp] theorem State.setOutCap_lens (n : Word) : (s.setOutCap n).lens = s.lens := rfl
@[simp] theorem State.setOutCap_treeLL (n : Word) : (s.setOutCap n).treeLL = s.treeLL := rfl
@[simp] theorem State.setOutCap_treeD (n : Word) : (s.setOutCap n).treeD = s.treeD := rfl
@[simp] theorem State.setOutCap_treeCL (n : Word) : (s.setOutCap n).treeCL = s.treeCL := rfl
@[simp] theorem State.setOutCap_inMem (n : Word) : (s.setOutCap n).inMem = s.inMem := rfl
@[simp] theorem State.setOutCap_outMem (n : Word) : (s.setOutCap n).outMem = s.outMem := rfl
@[simp] theorem State.setOutCap_lenOp (n : Word) : (s.setOutCap n).lenOp = s.lenOp := rfl
@[simp] theorem State.setOutCap_distOp (n : Word) : (s.setOutCap n).distOp = s.distOp := rfl
@[simp] theorem State.setOutCap_inRace (n : Word) : (s.setOutCap n).inRace = s.inRace := rfl
@[simp] theorem State.setOutCap_outRace (n : Word) : (s.setOutCap n).outRace = s.outRace := rfl
@[simp] theorem State.setOutCap_hostQ (n : Word) : (s.setOutCap n).hostQ = s.hostQ := rfl
@[simp] theorem State.setOutCap_hostRData (n : Word) : (s.setOutCap n).hostRData = s.hostRData := rfl
@[simp] theorem State.setOutCap_drawIdx (n : Word) : (s.setOutCap n).drawIdx = s.drawIdx := rfl
@[simp] theorem State.setOutCap_epoch (n : Word) : (s.setOutCap n).epoch = s.epoch := rfl
@[simp] theorem State.setOutCap_busy (n : Word) : (s.setOutCap n).busy = s.busy := rfl
@[simp] theorem State.setOutCap_lensIdx (n : Word) : (s.setOutCap n).lensIdx = s.lensIdx := rfl
@[simp] theorem State.setOutCap_lensTotal (n : Word) : (s.setOutCap n).lensTotal = s.lensTotal := rfl
@[simp] theorem State.setOutCap_pos (n : Word) : (s.setOutCap n).pos = s.pos := rfl
@[simp] theorem State.setOutCap_inByte (n : Word) (a : Nat) : (s.setOutCap n).inByte a = s.inByte a := rfl

@[simp] theorem State.setOutLen_params (n : Word) : (s.setOutLen n).params = s.params := rfl
@[simp] theorem State.setOutLen_phase (n : Word) : (s.setOutLen n).phase = s.phase := rfl
@[simp] theorem State.setOutLen_bytePos (n : Word) : (s.setOutLen n).bytePos = s.bytePos := rfl
@[simp] theorem State.setOutLen_bitOff (n : Word) : (s.setOutLen n).bitOff = s.bitOff := rfl
@[simp] theorem State.setOutLen_done (n : Word) : (s.setOutLen n).done = s.done := rfl
@[simp] theorem State.setOutLen_err (n : Word) : (s.setOutLen n).err = s.err := rfl
@[simp] theorem State.setOutLen_inLen (n : Word) : (s.setOutLen n).inLen = s.inLen := rfl
@[simp] theorem State.setOutLen_outCap (n : Word) : (s.setOutLen n).outCap = s.outCap := rfl
@[simp] theorem State.setOutLen_outLen (n : Word) : (s.setOutLen n).outLen = n := rfl
@[simp] theorem State.setOutLen_blkCnt (n : Word) : (s.setOutLen n).blkCnt = s.blkCnt := rfl
@[simp] theorem State.setOutLen_bfinal (n : Word) : (s.setOutLen n).bfinal = s.bfinal := rfl
@[simp] theorem State.setOutLen_btype (n : Word) : (s.setOutLen n).btype = s.btype := rfl
@[simp] theorem State.setOutLen_hlit (n : Word) : (s.setOutLen n).hlit = s.hlit := rfl
@[simp] theorem State.setOutLen_hdist (n : Word) : (s.setOutLen n).hdist = s.hdist := rfl
@[simp] theorem State.setOutLen_hclen (n : Word) : (s.setOutLen n).hclen = s.hclen := rfl
@[simp] theorem State.setOutLen_clLens (n : Word) : (s.setOutLen n).clLens = s.clLens := rfl
@[simp] theorem State.setOutLen_lens (n : Word) : (s.setOutLen n).lens = s.lens := rfl
@[simp] theorem State.setOutLen_treeLL (n : Word) : (s.setOutLen n).treeLL = s.treeLL := rfl
@[simp] theorem State.setOutLen_treeD (n : Word) : (s.setOutLen n).treeD = s.treeD := rfl
@[simp] theorem State.setOutLen_treeCL (n : Word) : (s.setOutLen n).treeCL = s.treeCL := rfl
@[simp] theorem State.setOutLen_inMem (n : Word) : (s.setOutLen n).inMem = s.inMem := rfl
@[simp] theorem State.setOutLen_outMem (n : Word) : (s.setOutLen n).outMem = s.outMem := rfl
@[simp] theorem State.setOutLen_lenOp (n : Word) : (s.setOutLen n).lenOp = s.lenOp := rfl
@[simp] theorem State.setOutLen_distOp (n : Word) : (s.setOutLen n).distOp = s.distOp := rfl
@[simp] theorem State.setOutLen_inRace (n : Word) : (s.setOutLen n).inRace = s.inRace := rfl
@[simp] theorem State.setOutLen_outRace (n : Word) : (s.setOutLen n).outRace = s.outRace := rfl
@[simp] theorem State.setOutLen_hostQ (n : Word) : (s.setOutLen n).hostQ = s.hostQ := rfl
@[simp] theorem State.setOutLen_hostRData (n : Word) : (s.setOutLen n).hostRData = s.hostRData := rfl
@[simp] theorem State.setOutLen_drawIdx (n : Word) : (s.setOutLen n).drawIdx = s.drawIdx := rfl
@[simp] theorem State.setOutLen_epoch (n : Word) : (s.setOutLen n).epoch = s.epoch := rfl
@[simp] theorem State.setOutLen_busy (n : Word) : (s.setOutLen n).busy = s.busy := rfl
@[simp] theorem State.setOutLen_lensIdx (n : Word) : (s.setOutLen n).lensIdx = s.lensIdx := rfl
@[simp] theorem State.setOutLen_lensTotal (n : Word) : (s.setOutLen n).lensTotal = s.lensTotal := rfl
@[simp] theorem State.setOutLen_pos (n : Word) : (s.setOutLen n).pos = s.pos := rfl
@[simp] theorem State.setOutLen_inByte (n : Word) (a : Nat) : (s.setOutLen n).inByte a = s.inByte a := rfl

@[simp] theorem State.setBlkCnt_params (n : Word) : (s.setBlkCnt n).params = s.params := rfl
@[simp] theorem State.setBlkCnt_phase (n : Word) : (s.setBlkCnt n).phase = s.phase := rfl
@[simp] theorem State.setBlkCnt_bytePos (n : Word) : (s.setBlkCnt n).bytePos = s.bytePos := rfl
@[simp] theorem State.setBlkCnt_bitOff (n : Word) : (s.setBlkCnt n).bitOff = s.bitOff := rfl
@[simp] theorem State.setBlkCnt_done (n : Word) : (s.setBlkCnt n).done = s.done := rfl
@[simp] theorem State.setBlkCnt_err (n : Word) : (s.setBlkCnt n).err = s.err := rfl
@[simp] theorem State.setBlkCnt_inLen (n : Word) : (s.setBlkCnt n).inLen = s.inLen := rfl
@[simp] theorem State.setBlkCnt_outCap (n : Word) : (s.setBlkCnt n).outCap = s.outCap := rfl
@[simp] theorem State.setBlkCnt_outLen (n : Word) : (s.setBlkCnt n).outLen = s.outLen := rfl
@[simp] theorem State.setBlkCnt_blkCnt (n : Word) : (s.setBlkCnt n).blkCnt = n := rfl
@[simp] theorem State.setBlkCnt_bfinal (n : Word) : (s.setBlkCnt n).bfinal = s.bfinal := rfl
@[simp] theorem State.setBlkCnt_btype (n : Word) : (s.setBlkCnt n).btype = s.btype := rfl
@[simp] theorem State.setBlkCnt_hlit (n : Word) : (s.setBlkCnt n).hlit = s.hlit := rfl
@[simp] theorem State.setBlkCnt_hdist (n : Word) : (s.setBlkCnt n).hdist = s.hdist := rfl
@[simp] theorem State.setBlkCnt_hclen (n : Word) : (s.setBlkCnt n).hclen = s.hclen := rfl
@[simp] theorem State.setBlkCnt_clLens (n : Word) : (s.setBlkCnt n).clLens = s.clLens := rfl
@[simp] theorem State.setBlkCnt_lens (n : Word) : (s.setBlkCnt n).lens = s.lens := rfl
@[simp] theorem State.setBlkCnt_treeLL (n : Word) : (s.setBlkCnt n).treeLL = s.treeLL := rfl
@[simp] theorem State.setBlkCnt_treeD (n : Word) : (s.setBlkCnt n).treeD = s.treeD := rfl
@[simp] theorem State.setBlkCnt_treeCL (n : Word) : (s.setBlkCnt n).treeCL = s.treeCL := rfl
@[simp] theorem State.setBlkCnt_inMem (n : Word) : (s.setBlkCnt n).inMem = s.inMem := rfl
@[simp] theorem State.setBlkCnt_outMem (n : Word) : (s.setBlkCnt n).outMem = s.outMem := rfl
@[simp] theorem State.setBlkCnt_lenOp (n : Word) : (s.setBlkCnt n).lenOp = s.lenOp := rfl
@[simp] theorem State.setBlkCnt_distOp (n : Word) : (s.setBlkCnt n).distOp = s.distOp := rfl
@[simp] theorem State.setBlkCnt_inRace (n : Word) : (s.setBlkCnt n).inRace = s.inRace := rfl
@[simp] theorem State.setBlkCnt_outRace (n : Word) : (s.setBlkCnt n).outRace = s.outRace := rfl
@[simp] theorem State.setBlkCnt_hostQ (n : Word) : (s.setBlkCnt n).hostQ = s.hostQ := rfl
@[simp] theorem State.setBlkCnt_hostRData (n : Word) : (s.setBlkCnt n).hostRData = s.hostRData := rfl
@[simp] theorem State.setBlkCnt_drawIdx (n : Word) : (s.setBlkCnt n).drawIdx = s.drawIdx := rfl
@[simp] theorem State.setBlkCnt_epoch (n : Word) : (s.setBlkCnt n).epoch = s.epoch := rfl
@[simp] theorem State.setBlkCnt_busy (n : Word) : (s.setBlkCnt n).busy = s.busy := rfl
@[simp] theorem State.setBlkCnt_lensIdx (n : Word) : (s.setBlkCnt n).lensIdx = s.lensIdx := rfl
@[simp] theorem State.setBlkCnt_lensTotal (n : Word) : (s.setBlkCnt n).lensTotal = s.lensTotal := rfl
@[simp] theorem State.setBlkCnt_pos (n : Word) : (s.setBlkCnt n).pos = s.pos := rfl
@[simp] theorem State.setBlkCnt_inByte (n : Word) (a : Nat) : (s.setBlkCnt n).inByte a = s.inByte a := rfl

@[simp] theorem State.setLatches_params (f : Bool) (t : BitVec 2) : (s.setLatches f t).params = s.params := rfl
@[simp] theorem State.setLatches_phase (f : Bool) (t : BitVec 2) : (s.setLatches f t).phase = s.phase := rfl
@[simp] theorem State.setLatches_bytePos (f : Bool) (t : BitVec 2) : (s.setLatches f t).bytePos = s.bytePos := rfl
@[simp] theorem State.setLatches_bitOff (f : Bool) (t : BitVec 2) : (s.setLatches f t).bitOff = s.bitOff := rfl
@[simp] theorem State.setLatches_done (f : Bool) (t : BitVec 2) : (s.setLatches f t).done = s.done := rfl
@[simp] theorem State.setLatches_err (f : Bool) (t : BitVec 2) : (s.setLatches f t).err = s.err := rfl
@[simp] theorem State.setLatches_inLen (f : Bool) (t : BitVec 2) : (s.setLatches f t).inLen = s.inLen := rfl
@[simp] theorem State.setLatches_outCap (f : Bool) (t : BitVec 2) : (s.setLatches f t).outCap = s.outCap := rfl
@[simp] theorem State.setLatches_outLen (f : Bool) (t : BitVec 2) : (s.setLatches f t).outLen = s.outLen := rfl
@[simp] theorem State.setLatches_blkCnt (f : Bool) (t : BitVec 2) : (s.setLatches f t).blkCnt = s.blkCnt := rfl
@[simp] theorem State.setLatches_bfinal (f : Bool) (t : BitVec 2) : (s.setLatches f t).bfinal = f := rfl
@[simp] theorem State.setLatches_btype (f : Bool) (t : BitVec 2) : (s.setLatches f t).btype = t := rfl
@[simp] theorem State.setLatches_hlit (f : Bool) (t : BitVec 2) : (s.setLatches f t).hlit = s.hlit := rfl
@[simp] theorem State.setLatches_hdist (f : Bool) (t : BitVec 2) : (s.setLatches f t).hdist = s.hdist := rfl
@[simp] theorem State.setLatches_hclen (f : Bool) (t : BitVec 2) : (s.setLatches f t).hclen = s.hclen := rfl
@[simp] theorem State.setLatches_clLens (f : Bool) (t : BitVec 2) : (s.setLatches f t).clLens = s.clLens := rfl
@[simp] theorem State.setLatches_lens (f : Bool) (t : BitVec 2) : (s.setLatches f t).lens = s.lens := rfl
@[simp] theorem State.setLatches_treeLL (f : Bool) (t : BitVec 2) : (s.setLatches f t).treeLL = s.treeLL := rfl
@[simp] theorem State.setLatches_treeD (f : Bool) (t : BitVec 2) : (s.setLatches f t).treeD = s.treeD := rfl
@[simp] theorem State.setLatches_treeCL (f : Bool) (t : BitVec 2) : (s.setLatches f t).treeCL = s.treeCL := rfl
@[simp] theorem State.setLatches_inMem (f : Bool) (t : BitVec 2) : (s.setLatches f t).inMem = s.inMem := rfl
@[simp] theorem State.setLatches_outMem (f : Bool) (t : BitVec 2) : (s.setLatches f t).outMem = s.outMem := rfl
@[simp] theorem State.setLatches_lenOp (f : Bool) (t : BitVec 2) : (s.setLatches f t).lenOp = s.lenOp := rfl
@[simp] theorem State.setLatches_distOp (f : Bool) (t : BitVec 2) : (s.setLatches f t).distOp = s.distOp := rfl
@[simp] theorem State.setLatches_inRace (f : Bool) (t : BitVec 2) : (s.setLatches f t).inRace = s.inRace := rfl
@[simp] theorem State.setLatches_outRace (f : Bool) (t : BitVec 2) : (s.setLatches f t).outRace = s.outRace := rfl
@[simp] theorem State.setLatches_hostQ (f : Bool) (t : BitVec 2) : (s.setLatches f t).hostQ = s.hostQ := rfl
@[simp] theorem State.setLatches_hostRData (f : Bool) (t : BitVec 2) : (s.setLatches f t).hostRData = s.hostRData := rfl
@[simp] theorem State.setLatches_drawIdx (f : Bool) (t : BitVec 2) : (s.setLatches f t).drawIdx = s.drawIdx := rfl
@[simp] theorem State.setLatches_epoch (f : Bool) (t : BitVec 2) : (s.setLatches f t).epoch = s.epoch := rfl
@[simp] theorem State.setLatches_busy (f : Bool) (t : BitVec 2) : (s.setLatches f t).busy = s.busy := rfl
@[simp] theorem State.setLatches_lensIdx (f : Bool) (t : BitVec 2) : (s.setLatches f t).lensIdx = s.lensIdx := rfl
@[simp] theorem State.setLatches_lensTotal (f : Bool) (t : BitVec 2) : (s.setLatches f t).lensTotal = s.lensTotal := rfl
@[simp] theorem State.setLatches_pos (f : Bool) (t : BitVec 2) : (s.setLatches f t).pos = s.pos := rfl
@[simp] theorem State.setLatches_inByte (f : Bool) (t : BitVec 2) (a : Nat) : (s.setLatches f t).inByte a = s.inByte a := rfl

@[simp] theorem State.setHlit_params (n : BitVec 9) : (s.setHlit n).params = s.params := rfl
@[simp] theorem State.setHlit_phase (n : BitVec 9) : (s.setHlit n).phase = s.phase := rfl
@[simp] theorem State.setHlit_bytePos (n : BitVec 9) : (s.setHlit n).bytePos = s.bytePos := rfl
@[simp] theorem State.setHlit_bitOff (n : BitVec 9) : (s.setHlit n).bitOff = s.bitOff := rfl
@[simp] theorem State.setHlit_done (n : BitVec 9) : (s.setHlit n).done = s.done := rfl
@[simp] theorem State.setHlit_err (n : BitVec 9) : (s.setHlit n).err = s.err := rfl
@[simp] theorem State.setHlit_inLen (n : BitVec 9) : (s.setHlit n).inLen = s.inLen := rfl
@[simp] theorem State.setHlit_outCap (n : BitVec 9) : (s.setHlit n).outCap = s.outCap := rfl
@[simp] theorem State.setHlit_outLen (n : BitVec 9) : (s.setHlit n).outLen = s.outLen := rfl
@[simp] theorem State.setHlit_blkCnt (n : BitVec 9) : (s.setHlit n).blkCnt = s.blkCnt := rfl
@[simp] theorem State.setHlit_bfinal (n : BitVec 9) : (s.setHlit n).bfinal = s.bfinal := rfl
@[simp] theorem State.setHlit_btype (n : BitVec 9) : (s.setHlit n).btype = s.btype := rfl
@[simp] theorem State.setHlit_hlit (n : BitVec 9) : (s.setHlit n).hlit = n := rfl
@[simp] theorem State.setHlit_hdist (n : BitVec 9) : (s.setHlit n).hdist = s.hdist := rfl
@[simp] theorem State.setHlit_hclen (n : BitVec 9) : (s.setHlit n).hclen = s.hclen := rfl
@[simp] theorem State.setHlit_clLens (n : BitVec 9) : (s.setHlit n).clLens = s.clLens := rfl
@[simp] theorem State.setHlit_lens (n : BitVec 9) : (s.setHlit n).lens = s.lens := rfl
@[simp] theorem State.setHlit_treeLL (n : BitVec 9) : (s.setHlit n).treeLL = s.treeLL := rfl
@[simp] theorem State.setHlit_treeD (n : BitVec 9) : (s.setHlit n).treeD = s.treeD := rfl
@[simp] theorem State.setHlit_treeCL (n : BitVec 9) : (s.setHlit n).treeCL = s.treeCL := rfl
@[simp] theorem State.setHlit_inMem (n : BitVec 9) : (s.setHlit n).inMem = s.inMem := rfl
@[simp] theorem State.setHlit_outMem (n : BitVec 9) : (s.setHlit n).outMem = s.outMem := rfl
@[simp] theorem State.setHlit_lenOp (n : BitVec 9) : (s.setHlit n).lenOp = s.lenOp := rfl
@[simp] theorem State.setHlit_distOp (n : BitVec 9) : (s.setHlit n).distOp = s.distOp := rfl
@[simp] theorem State.setHlit_inRace (n : BitVec 9) : (s.setHlit n).inRace = s.inRace := rfl
@[simp] theorem State.setHlit_outRace (n : BitVec 9) : (s.setHlit n).outRace = s.outRace := rfl
@[simp] theorem State.setHlit_hostQ (n : BitVec 9) : (s.setHlit n).hostQ = s.hostQ := rfl
@[simp] theorem State.setHlit_hostRData (n : BitVec 9) : (s.setHlit n).hostRData = s.hostRData := rfl
@[simp] theorem State.setHlit_drawIdx (n : BitVec 9) : (s.setHlit n).drawIdx = s.drawIdx := rfl
@[simp] theorem State.setHlit_epoch (n : BitVec 9) : (s.setHlit n).epoch = s.epoch := rfl
@[simp] theorem State.setHlit_busy (n : BitVec 9) : (s.setHlit n).busy = s.busy := rfl
@[simp] theorem State.setHlit_lensIdx (n : BitVec 9) : (s.setHlit n).lensIdx = s.lensIdx := rfl
@[simp] theorem State.setHlit_pos (n : BitVec 9) : (s.setHlit n).pos = s.pos := rfl
@[simp] theorem State.setHlit_inByte (n : BitVec 9) (a : Nat) : (s.setHlit n).inByte a = s.inByte a := rfl

@[simp] theorem State.setHdist_params (n : BitVec 5) : (s.setHdist n).params = s.params := rfl
@[simp] theorem State.setHdist_phase (n : BitVec 5) : (s.setHdist n).phase = s.phase := rfl
@[simp] theorem State.setHdist_bytePos (n : BitVec 5) : (s.setHdist n).bytePos = s.bytePos := rfl
@[simp] theorem State.setHdist_bitOff (n : BitVec 5) : (s.setHdist n).bitOff = s.bitOff := rfl
@[simp] theorem State.setHdist_done (n : BitVec 5) : (s.setHdist n).done = s.done := rfl
@[simp] theorem State.setHdist_err (n : BitVec 5) : (s.setHdist n).err = s.err := rfl
@[simp] theorem State.setHdist_inLen (n : BitVec 5) : (s.setHdist n).inLen = s.inLen := rfl
@[simp] theorem State.setHdist_outCap (n : BitVec 5) : (s.setHdist n).outCap = s.outCap := rfl
@[simp] theorem State.setHdist_outLen (n : BitVec 5) : (s.setHdist n).outLen = s.outLen := rfl
@[simp] theorem State.setHdist_blkCnt (n : BitVec 5) : (s.setHdist n).blkCnt = s.blkCnt := rfl
@[simp] theorem State.setHdist_bfinal (n : BitVec 5) : (s.setHdist n).bfinal = s.bfinal := rfl
@[simp] theorem State.setHdist_btype (n : BitVec 5) : (s.setHdist n).btype = s.btype := rfl
@[simp] theorem State.setHdist_hlit (n : BitVec 5) : (s.setHdist n).hlit = s.hlit := rfl
@[simp] theorem State.setHdist_hdist (n : BitVec 5) : (s.setHdist n).hdist = n := rfl
@[simp] theorem State.setHdist_hclen (n : BitVec 5) : (s.setHdist n).hclen = s.hclen := rfl
@[simp] theorem State.setHdist_clLens (n : BitVec 5) : (s.setHdist n).clLens = s.clLens := rfl
@[simp] theorem State.setHdist_lens (n : BitVec 5) : (s.setHdist n).lens = s.lens := rfl
@[simp] theorem State.setHdist_treeLL (n : BitVec 5) : (s.setHdist n).treeLL = s.treeLL := rfl
@[simp] theorem State.setHdist_treeD (n : BitVec 5) : (s.setHdist n).treeD = s.treeD := rfl
@[simp] theorem State.setHdist_treeCL (n : BitVec 5) : (s.setHdist n).treeCL = s.treeCL := rfl
@[simp] theorem State.setHdist_inMem (n : BitVec 5) : (s.setHdist n).inMem = s.inMem := rfl
@[simp] theorem State.setHdist_outMem (n : BitVec 5) : (s.setHdist n).outMem = s.outMem := rfl
@[simp] theorem State.setHdist_lenOp (n : BitVec 5) : (s.setHdist n).lenOp = s.lenOp := rfl
@[simp] theorem State.setHdist_distOp (n : BitVec 5) : (s.setHdist n).distOp = s.distOp := rfl
@[simp] theorem State.setHdist_inRace (n : BitVec 5) : (s.setHdist n).inRace = s.inRace := rfl
@[simp] theorem State.setHdist_outRace (n : BitVec 5) : (s.setHdist n).outRace = s.outRace := rfl
@[simp] theorem State.setHdist_hostQ (n : BitVec 5) : (s.setHdist n).hostQ = s.hostQ := rfl
@[simp] theorem State.setHdist_hostRData (n : BitVec 5) : (s.setHdist n).hostRData = s.hostRData := rfl
@[simp] theorem State.setHdist_drawIdx (n : BitVec 5) : (s.setHdist n).drawIdx = s.drawIdx := rfl
@[simp] theorem State.setHdist_epoch (n : BitVec 5) : (s.setHdist n).epoch = s.epoch := rfl
@[simp] theorem State.setHdist_busy (n : BitVec 5) : (s.setHdist n).busy = s.busy := rfl
@[simp] theorem State.setHdist_lensIdx (n : BitVec 5) : (s.setHdist n).lensIdx = s.lensIdx := rfl
@[simp] theorem State.setHdist_pos (n : BitVec 5) : (s.setHdist n).pos = s.pos := rfl
@[simp] theorem State.setHdist_inByte (n : BitVec 5) (a : Nat) : (s.setHdist n).inByte a = s.inByte a := rfl

@[simp] theorem State.setHclen_params (n : BitVec 5) : (s.setHclen n).params = s.params := rfl
@[simp] theorem State.setHclen_phase (n : BitVec 5) : (s.setHclen n).phase = s.phase := rfl
@[simp] theorem State.setHclen_bytePos (n : BitVec 5) : (s.setHclen n).bytePos = s.bytePos := rfl
@[simp] theorem State.setHclen_bitOff (n : BitVec 5) : (s.setHclen n).bitOff = s.bitOff := rfl
@[simp] theorem State.setHclen_done (n : BitVec 5) : (s.setHclen n).done = s.done := rfl
@[simp] theorem State.setHclen_err (n : BitVec 5) : (s.setHclen n).err = s.err := rfl
@[simp] theorem State.setHclen_inLen (n : BitVec 5) : (s.setHclen n).inLen = s.inLen := rfl
@[simp] theorem State.setHclen_outCap (n : BitVec 5) : (s.setHclen n).outCap = s.outCap := rfl
@[simp] theorem State.setHclen_outLen (n : BitVec 5) : (s.setHclen n).outLen = s.outLen := rfl
@[simp] theorem State.setHclen_blkCnt (n : BitVec 5) : (s.setHclen n).blkCnt = s.blkCnt := rfl
@[simp] theorem State.setHclen_bfinal (n : BitVec 5) : (s.setHclen n).bfinal = s.bfinal := rfl
@[simp] theorem State.setHclen_btype (n : BitVec 5) : (s.setHclen n).btype = s.btype := rfl
@[simp] theorem State.setHclen_hlit (n : BitVec 5) : (s.setHclen n).hlit = s.hlit := rfl
@[simp] theorem State.setHclen_hdist (n : BitVec 5) : (s.setHclen n).hdist = s.hdist := rfl
@[simp] theorem State.setHclen_hclen (n : BitVec 5) : (s.setHclen n).hclen = n := rfl
@[simp] theorem State.setHclen_clLens (n : BitVec 5) : (s.setHclen n).clLens = s.clLens := rfl
@[simp] theorem State.setHclen_lens (n : BitVec 5) : (s.setHclen n).lens = s.lens := rfl
@[simp] theorem State.setHclen_treeLL (n : BitVec 5) : (s.setHclen n).treeLL = s.treeLL := rfl
@[simp] theorem State.setHclen_treeD (n : BitVec 5) : (s.setHclen n).treeD = s.treeD := rfl
@[simp] theorem State.setHclen_treeCL (n : BitVec 5) : (s.setHclen n).treeCL = s.treeCL := rfl
@[simp] theorem State.setHclen_inMem (n : BitVec 5) : (s.setHclen n).inMem = s.inMem := rfl
@[simp] theorem State.setHclen_outMem (n : BitVec 5) : (s.setHclen n).outMem = s.outMem := rfl
@[simp] theorem State.setHclen_lenOp (n : BitVec 5) : (s.setHclen n).lenOp = s.lenOp := rfl
@[simp] theorem State.setHclen_distOp (n : BitVec 5) : (s.setHclen n).distOp = s.distOp := rfl
@[simp] theorem State.setHclen_inRace (n : BitVec 5) : (s.setHclen n).inRace = s.inRace := rfl
@[simp] theorem State.setHclen_outRace (n : BitVec 5) : (s.setHclen n).outRace = s.outRace := rfl
@[simp] theorem State.setHclen_hostQ (n : BitVec 5) : (s.setHclen n).hostQ = s.hostQ := rfl
@[simp] theorem State.setHclen_hostRData (n : BitVec 5) : (s.setHclen n).hostRData = s.hostRData := rfl
@[simp] theorem State.setHclen_drawIdx (n : BitVec 5) : (s.setHclen n).drawIdx = s.drawIdx := rfl
@[simp] theorem State.setHclen_epoch (n : BitVec 5) : (s.setHclen n).epoch = s.epoch := rfl
@[simp] theorem State.setHclen_busy (n : BitVec 5) : (s.setHclen n).busy = s.busy := rfl
@[simp] theorem State.setHclen_lensIdx (n : BitVec 5) : (s.setHclen n).lensIdx = s.lensIdx := rfl
@[simp] theorem State.setHclen_lensTotal (n : BitVec 5) : (s.setHclen n).lensTotal = s.lensTotal := rfl
@[simp] theorem State.setHclen_pos (n : BitVec 5) : (s.setHclen n).pos = s.pos := rfl
@[simp] theorem State.setHclen_inByte (n : BitVec 5) (a : Nat) : (s.setHclen n).inByte a = s.inByte a := rfl

@[simp] theorem State.setClLens_params (l : List (BitVec 3)) : (s.setClLens l).params = s.params := rfl
@[simp] theorem State.setClLens_phase (l : List (BitVec 3)) : (s.setClLens l).phase = s.phase := rfl
@[simp] theorem State.setClLens_bytePos (l : List (BitVec 3)) : (s.setClLens l).bytePos = s.bytePos := rfl
@[simp] theorem State.setClLens_bitOff (l : List (BitVec 3)) : (s.setClLens l).bitOff = s.bitOff := rfl
@[simp] theorem State.setClLens_done (l : List (BitVec 3)) : (s.setClLens l).done = s.done := rfl
@[simp] theorem State.setClLens_err (l : List (BitVec 3)) : (s.setClLens l).err = s.err := rfl
@[simp] theorem State.setClLens_inLen (l : List (BitVec 3)) : (s.setClLens l).inLen = s.inLen := rfl
@[simp] theorem State.setClLens_outCap (l : List (BitVec 3)) : (s.setClLens l).outCap = s.outCap := rfl
@[simp] theorem State.setClLens_outLen (l : List (BitVec 3)) : (s.setClLens l).outLen = s.outLen := rfl
@[simp] theorem State.setClLens_blkCnt (l : List (BitVec 3)) : (s.setClLens l).blkCnt = s.blkCnt := rfl
@[simp] theorem State.setClLens_bfinal (l : List (BitVec 3)) : (s.setClLens l).bfinal = s.bfinal := rfl
@[simp] theorem State.setClLens_btype (l : List (BitVec 3)) : (s.setClLens l).btype = s.btype := rfl
@[simp] theorem State.setClLens_hlit (l : List (BitVec 3)) : (s.setClLens l).hlit = s.hlit := rfl
@[simp] theorem State.setClLens_hdist (l : List (BitVec 3)) : (s.setClLens l).hdist = s.hdist := rfl
@[simp] theorem State.setClLens_hclen (l : List (BitVec 3)) : (s.setClLens l).hclen = s.hclen := rfl
@[simp] theorem State.setClLens_clLens (l : List (BitVec 3)) : (s.setClLens l).clLens = l := rfl
@[simp] theorem State.setClLens_lens (l : List (BitVec 3)) : (s.setClLens l).lens = s.lens := rfl
@[simp] theorem State.setClLens_treeLL (l : List (BitVec 3)) : (s.setClLens l).treeLL = s.treeLL := rfl
@[simp] theorem State.setClLens_treeD (l : List (BitVec 3)) : (s.setClLens l).treeD = s.treeD := rfl
@[simp] theorem State.setClLens_treeCL (l : List (BitVec 3)) : (s.setClLens l).treeCL = s.treeCL := rfl
@[simp] theorem State.setClLens_inMem (l : List (BitVec 3)) : (s.setClLens l).inMem = s.inMem := rfl
@[simp] theorem State.setClLens_outMem (l : List (BitVec 3)) : (s.setClLens l).outMem = s.outMem := rfl
@[simp] theorem State.setClLens_lenOp (l : List (BitVec 3)) : (s.setClLens l).lenOp = s.lenOp := rfl
@[simp] theorem State.setClLens_distOp (l : List (BitVec 3)) : (s.setClLens l).distOp = s.distOp := rfl
@[simp] theorem State.setClLens_inRace (l : List (BitVec 3)) : (s.setClLens l).inRace = s.inRace := rfl
@[simp] theorem State.setClLens_outRace (l : List (BitVec 3)) : (s.setClLens l).outRace = s.outRace := rfl
@[simp] theorem State.setClLens_hostQ (l : List (BitVec 3)) : (s.setClLens l).hostQ = s.hostQ := rfl
@[simp] theorem State.setClLens_hostRData (l : List (BitVec 3)) : (s.setClLens l).hostRData = s.hostRData := rfl
@[simp] theorem State.setClLens_drawIdx (l : List (BitVec 3)) : (s.setClLens l).drawIdx = s.drawIdx := rfl
@[simp] theorem State.setClLens_epoch (l : List (BitVec 3)) : (s.setClLens l).epoch = s.epoch := rfl
@[simp] theorem State.setClLens_busy (l : List (BitVec 3)) : (s.setClLens l).busy = s.busy := rfl
@[simp] theorem State.setClLens_lensIdx (l : List (BitVec 3)) : (s.setClLens l).lensIdx = s.lensIdx := rfl
@[simp] theorem State.setClLens_lensTotal (l : List (BitVec 3)) : (s.setClLens l).lensTotal = s.lensTotal := rfl
@[simp] theorem State.setClLens_pos (l : List (BitVec 3)) : (s.setClLens l).pos = s.pos := rfl
@[simp] theorem State.setClLens_inByte (l : List (BitVec 3)) (a : Nat) : (s.setClLens l).inByte a = s.inByte a := rfl

@[simp] theorem State.setLens_params (l : List (BitVec 4)) : (s.setLens l).params = s.params := rfl
@[simp] theorem State.setLens_phase (l : List (BitVec 4)) : (s.setLens l).phase = s.phase := rfl
@[simp] theorem State.setLens_bytePos (l : List (BitVec 4)) : (s.setLens l).bytePos = s.bytePos := rfl
@[simp] theorem State.setLens_bitOff (l : List (BitVec 4)) : (s.setLens l).bitOff = s.bitOff := rfl
@[simp] theorem State.setLens_done (l : List (BitVec 4)) : (s.setLens l).done = s.done := rfl
@[simp] theorem State.setLens_err (l : List (BitVec 4)) : (s.setLens l).err = s.err := rfl
@[simp] theorem State.setLens_inLen (l : List (BitVec 4)) : (s.setLens l).inLen = s.inLen := rfl
@[simp] theorem State.setLens_outCap (l : List (BitVec 4)) : (s.setLens l).outCap = s.outCap := rfl
@[simp] theorem State.setLens_outLen (l : List (BitVec 4)) : (s.setLens l).outLen = s.outLen := rfl
@[simp] theorem State.setLens_blkCnt (l : List (BitVec 4)) : (s.setLens l).blkCnt = s.blkCnt := rfl
@[simp] theorem State.setLens_bfinal (l : List (BitVec 4)) : (s.setLens l).bfinal = s.bfinal := rfl
@[simp] theorem State.setLens_btype (l : List (BitVec 4)) : (s.setLens l).btype = s.btype := rfl
@[simp] theorem State.setLens_hlit (l : List (BitVec 4)) : (s.setLens l).hlit = s.hlit := rfl
@[simp] theorem State.setLens_hdist (l : List (BitVec 4)) : (s.setLens l).hdist = s.hdist := rfl
@[simp] theorem State.setLens_hclen (l : List (BitVec 4)) : (s.setLens l).hclen = s.hclen := rfl
@[simp] theorem State.setLens_clLens (l : List (BitVec 4)) : (s.setLens l).clLens = s.clLens := rfl
@[simp] theorem State.setLens_lens (l : List (BitVec 4)) : (s.setLens l).lens = l := rfl
@[simp] theorem State.setLens_treeLL (l : List (BitVec 4)) : (s.setLens l).treeLL = s.treeLL := rfl
@[simp] theorem State.setLens_treeD (l : List (BitVec 4)) : (s.setLens l).treeD = s.treeD := rfl
@[simp] theorem State.setLens_treeCL (l : List (BitVec 4)) : (s.setLens l).treeCL = s.treeCL := rfl
@[simp] theorem State.setLens_inMem (l : List (BitVec 4)) : (s.setLens l).inMem = s.inMem := rfl
@[simp] theorem State.setLens_outMem (l : List (BitVec 4)) : (s.setLens l).outMem = s.outMem := rfl
@[simp] theorem State.setLens_lenOp (l : List (BitVec 4)) : (s.setLens l).lenOp = s.lenOp := rfl
@[simp] theorem State.setLens_distOp (l : List (BitVec 4)) : (s.setLens l).distOp = s.distOp := rfl
@[simp] theorem State.setLens_inRace (l : List (BitVec 4)) : (s.setLens l).inRace = s.inRace := rfl
@[simp] theorem State.setLens_outRace (l : List (BitVec 4)) : (s.setLens l).outRace = s.outRace := rfl
@[simp] theorem State.setLens_hostQ (l : List (BitVec 4)) : (s.setLens l).hostQ = s.hostQ := rfl
@[simp] theorem State.setLens_hostRData (l : List (BitVec 4)) : (s.setLens l).hostRData = s.hostRData := rfl
@[simp] theorem State.setLens_drawIdx (l : List (BitVec 4)) : (s.setLens l).drawIdx = s.drawIdx := rfl
@[simp] theorem State.setLens_epoch (l : List (BitVec 4)) : (s.setLens l).epoch = s.epoch := rfl
@[simp] theorem State.setLens_busy (l : List (BitVec 4)) : (s.setLens l).busy = s.busy := rfl
@[simp] theorem State.setLens_lensTotal (l : List (BitVec 4)) : (s.setLens l).lensTotal = s.lensTotal := rfl
@[simp] theorem State.setLens_pos (l : List (BitVec 4)) : (s.setLens l).pos = s.pos := rfl
@[simp] theorem State.setLens_inByte (l : List (BitVec 4)) (a : Nat) : (s.setLens l).inByte a = s.inByte a := rfl

@[simp] theorem State.setTreeLL_params (t : Tree) : (s.setTreeLL t).params = s.params := rfl
@[simp] theorem State.setTreeLL_phase (t : Tree) : (s.setTreeLL t).phase = s.phase := rfl
@[simp] theorem State.setTreeLL_bytePos (t : Tree) : (s.setTreeLL t).bytePos = s.bytePos := rfl
@[simp] theorem State.setTreeLL_bitOff (t : Tree) : (s.setTreeLL t).bitOff = s.bitOff := rfl
@[simp] theorem State.setTreeLL_done (t : Tree) : (s.setTreeLL t).done = s.done := rfl
@[simp] theorem State.setTreeLL_err (t : Tree) : (s.setTreeLL t).err = s.err := rfl
@[simp] theorem State.setTreeLL_inLen (t : Tree) : (s.setTreeLL t).inLen = s.inLen := rfl
@[simp] theorem State.setTreeLL_outCap (t : Tree) : (s.setTreeLL t).outCap = s.outCap := rfl
@[simp] theorem State.setTreeLL_outLen (t : Tree) : (s.setTreeLL t).outLen = s.outLen := rfl
@[simp] theorem State.setTreeLL_blkCnt (t : Tree) : (s.setTreeLL t).blkCnt = s.blkCnt := rfl
@[simp] theorem State.setTreeLL_bfinal (t : Tree) : (s.setTreeLL t).bfinal = s.bfinal := rfl
@[simp] theorem State.setTreeLL_btype (t : Tree) : (s.setTreeLL t).btype = s.btype := rfl
@[simp] theorem State.setTreeLL_hlit (t : Tree) : (s.setTreeLL t).hlit = s.hlit := rfl
@[simp] theorem State.setTreeLL_hdist (t : Tree) : (s.setTreeLL t).hdist = s.hdist := rfl
@[simp] theorem State.setTreeLL_hclen (t : Tree) : (s.setTreeLL t).hclen = s.hclen := rfl
@[simp] theorem State.setTreeLL_clLens (t : Tree) : (s.setTreeLL t).clLens = s.clLens := rfl
@[simp] theorem State.setTreeLL_lens (t : Tree) : (s.setTreeLL t).lens = s.lens := rfl
@[simp] theorem State.setTreeLL_treeLL (t : Tree) : (s.setTreeLL t).treeLL = t := rfl
@[simp] theorem State.setTreeLL_treeD (t : Tree) : (s.setTreeLL t).treeD = s.treeD := rfl
@[simp] theorem State.setTreeLL_treeCL (t : Tree) : (s.setTreeLL t).treeCL = s.treeCL := rfl
@[simp] theorem State.setTreeLL_inMem (t : Tree) : (s.setTreeLL t).inMem = s.inMem := rfl
@[simp] theorem State.setTreeLL_outMem (t : Tree) : (s.setTreeLL t).outMem = s.outMem := rfl
@[simp] theorem State.setTreeLL_lenOp (t : Tree) : (s.setTreeLL t).lenOp = s.lenOp := rfl
@[simp] theorem State.setTreeLL_distOp (t : Tree) : (s.setTreeLL t).distOp = s.distOp := rfl
@[simp] theorem State.setTreeLL_inRace (t : Tree) : (s.setTreeLL t).inRace = s.inRace := rfl
@[simp] theorem State.setTreeLL_outRace (t : Tree) : (s.setTreeLL t).outRace = s.outRace := rfl
@[simp] theorem State.setTreeLL_hostQ (t : Tree) : (s.setTreeLL t).hostQ = s.hostQ := rfl
@[simp] theorem State.setTreeLL_hostRData (t : Tree) : (s.setTreeLL t).hostRData = s.hostRData := rfl
@[simp] theorem State.setTreeLL_drawIdx (t : Tree) : (s.setTreeLL t).drawIdx = s.drawIdx := rfl
@[simp] theorem State.setTreeLL_epoch (t : Tree) : (s.setTreeLL t).epoch = s.epoch := rfl
@[simp] theorem State.setTreeLL_busy (t : Tree) : (s.setTreeLL t).busy = s.busy := rfl
@[simp] theorem State.setTreeLL_lensIdx (t : Tree) : (s.setTreeLL t).lensIdx = s.lensIdx := rfl
@[simp] theorem State.setTreeLL_lensTotal (t : Tree) : (s.setTreeLL t).lensTotal = s.lensTotal := rfl
@[simp] theorem State.setTreeLL_pos (t : Tree) : (s.setTreeLL t).pos = s.pos := rfl
@[simp] theorem State.setTreeLL_inByte (t : Tree) (a : Nat) : (s.setTreeLL t).inByte a = s.inByte a := rfl

@[simp] theorem State.setTreeD_params (t : Tree) : (s.setTreeD t).params = s.params := rfl
@[simp] theorem State.setTreeD_phase (t : Tree) : (s.setTreeD t).phase = s.phase := rfl
@[simp] theorem State.setTreeD_bytePos (t : Tree) : (s.setTreeD t).bytePos = s.bytePos := rfl
@[simp] theorem State.setTreeD_bitOff (t : Tree) : (s.setTreeD t).bitOff = s.bitOff := rfl
@[simp] theorem State.setTreeD_done (t : Tree) : (s.setTreeD t).done = s.done := rfl
@[simp] theorem State.setTreeD_err (t : Tree) : (s.setTreeD t).err = s.err := rfl
@[simp] theorem State.setTreeD_inLen (t : Tree) : (s.setTreeD t).inLen = s.inLen := rfl
@[simp] theorem State.setTreeD_outCap (t : Tree) : (s.setTreeD t).outCap = s.outCap := rfl
@[simp] theorem State.setTreeD_outLen (t : Tree) : (s.setTreeD t).outLen = s.outLen := rfl
@[simp] theorem State.setTreeD_blkCnt (t : Tree) : (s.setTreeD t).blkCnt = s.blkCnt := rfl
@[simp] theorem State.setTreeD_bfinal (t : Tree) : (s.setTreeD t).bfinal = s.bfinal := rfl
@[simp] theorem State.setTreeD_btype (t : Tree) : (s.setTreeD t).btype = s.btype := rfl
@[simp] theorem State.setTreeD_hlit (t : Tree) : (s.setTreeD t).hlit = s.hlit := rfl
@[simp] theorem State.setTreeD_hdist (t : Tree) : (s.setTreeD t).hdist = s.hdist := rfl
@[simp] theorem State.setTreeD_hclen (t : Tree) : (s.setTreeD t).hclen = s.hclen := rfl
@[simp] theorem State.setTreeD_clLens (t : Tree) : (s.setTreeD t).clLens = s.clLens := rfl
@[simp] theorem State.setTreeD_lens (t : Tree) : (s.setTreeD t).lens = s.lens := rfl
@[simp] theorem State.setTreeD_treeLL (t : Tree) : (s.setTreeD t).treeLL = s.treeLL := rfl
@[simp] theorem State.setTreeD_treeD (t : Tree) : (s.setTreeD t).treeD = t := rfl
@[simp] theorem State.setTreeD_treeCL (t : Tree) : (s.setTreeD t).treeCL = s.treeCL := rfl
@[simp] theorem State.setTreeD_inMem (t : Tree) : (s.setTreeD t).inMem = s.inMem := rfl
@[simp] theorem State.setTreeD_outMem (t : Tree) : (s.setTreeD t).outMem = s.outMem := rfl
@[simp] theorem State.setTreeD_lenOp (t : Tree) : (s.setTreeD t).lenOp = s.lenOp := rfl
@[simp] theorem State.setTreeD_distOp (t : Tree) : (s.setTreeD t).distOp = s.distOp := rfl
@[simp] theorem State.setTreeD_inRace (t : Tree) : (s.setTreeD t).inRace = s.inRace := rfl
@[simp] theorem State.setTreeD_outRace (t : Tree) : (s.setTreeD t).outRace = s.outRace := rfl
@[simp] theorem State.setTreeD_hostQ (t : Tree) : (s.setTreeD t).hostQ = s.hostQ := rfl
@[simp] theorem State.setTreeD_hostRData (t : Tree) : (s.setTreeD t).hostRData = s.hostRData := rfl
@[simp] theorem State.setTreeD_drawIdx (t : Tree) : (s.setTreeD t).drawIdx = s.drawIdx := rfl
@[simp] theorem State.setTreeD_epoch (t : Tree) : (s.setTreeD t).epoch = s.epoch := rfl
@[simp] theorem State.setTreeD_busy (t : Tree) : (s.setTreeD t).busy = s.busy := rfl
@[simp] theorem State.setTreeD_lensIdx (t : Tree) : (s.setTreeD t).lensIdx = s.lensIdx := rfl
@[simp] theorem State.setTreeD_lensTotal (t : Tree) : (s.setTreeD t).lensTotal = s.lensTotal := rfl
@[simp] theorem State.setTreeD_pos (t : Tree) : (s.setTreeD t).pos = s.pos := rfl
@[simp] theorem State.setTreeD_inByte (t : Tree) (a : Nat) : (s.setTreeD t).inByte a = s.inByte a := rfl

@[simp] theorem State.setTreeCL_params (t : Tree) : (s.setTreeCL t).params = s.params := rfl
@[simp] theorem State.setTreeCL_phase (t : Tree) : (s.setTreeCL t).phase = s.phase := rfl
@[simp] theorem State.setTreeCL_bytePos (t : Tree) : (s.setTreeCL t).bytePos = s.bytePos := rfl
@[simp] theorem State.setTreeCL_bitOff (t : Tree) : (s.setTreeCL t).bitOff = s.bitOff := rfl
@[simp] theorem State.setTreeCL_done (t : Tree) : (s.setTreeCL t).done = s.done := rfl
@[simp] theorem State.setTreeCL_err (t : Tree) : (s.setTreeCL t).err = s.err := rfl
@[simp] theorem State.setTreeCL_inLen (t : Tree) : (s.setTreeCL t).inLen = s.inLen := rfl
@[simp] theorem State.setTreeCL_outCap (t : Tree) : (s.setTreeCL t).outCap = s.outCap := rfl
@[simp] theorem State.setTreeCL_outLen (t : Tree) : (s.setTreeCL t).outLen = s.outLen := rfl
@[simp] theorem State.setTreeCL_blkCnt (t : Tree) : (s.setTreeCL t).blkCnt = s.blkCnt := rfl
@[simp] theorem State.setTreeCL_bfinal (t : Tree) : (s.setTreeCL t).bfinal = s.bfinal := rfl
@[simp] theorem State.setTreeCL_btype (t : Tree) : (s.setTreeCL t).btype = s.btype := rfl
@[simp] theorem State.setTreeCL_hlit (t : Tree) : (s.setTreeCL t).hlit = s.hlit := rfl
@[simp] theorem State.setTreeCL_hdist (t : Tree) : (s.setTreeCL t).hdist = s.hdist := rfl
@[simp] theorem State.setTreeCL_hclen (t : Tree) : (s.setTreeCL t).hclen = s.hclen := rfl
@[simp] theorem State.setTreeCL_clLens (t : Tree) : (s.setTreeCL t).clLens = s.clLens := rfl
@[simp] theorem State.setTreeCL_lens (t : Tree) : (s.setTreeCL t).lens = s.lens := rfl
@[simp] theorem State.setTreeCL_treeLL (t : Tree) : (s.setTreeCL t).treeLL = s.treeLL := rfl
@[simp] theorem State.setTreeCL_treeD (t : Tree) : (s.setTreeCL t).treeD = s.treeD := rfl
@[simp] theorem State.setTreeCL_treeCL (t : Tree) : (s.setTreeCL t).treeCL = t := rfl
@[simp] theorem State.setTreeCL_inMem (t : Tree) : (s.setTreeCL t).inMem = s.inMem := rfl
@[simp] theorem State.setTreeCL_outMem (t : Tree) : (s.setTreeCL t).outMem = s.outMem := rfl
@[simp] theorem State.setTreeCL_lenOp (t : Tree) : (s.setTreeCL t).lenOp = s.lenOp := rfl
@[simp] theorem State.setTreeCL_distOp (t : Tree) : (s.setTreeCL t).distOp = s.distOp := rfl
@[simp] theorem State.setTreeCL_inRace (t : Tree) : (s.setTreeCL t).inRace = s.inRace := rfl
@[simp] theorem State.setTreeCL_outRace (t : Tree) : (s.setTreeCL t).outRace = s.outRace := rfl
@[simp] theorem State.setTreeCL_hostQ (t : Tree) : (s.setTreeCL t).hostQ = s.hostQ := rfl
@[simp] theorem State.setTreeCL_hostRData (t : Tree) : (s.setTreeCL t).hostRData = s.hostRData := rfl
@[simp] theorem State.setTreeCL_drawIdx (t : Tree) : (s.setTreeCL t).drawIdx = s.drawIdx := rfl
@[simp] theorem State.setTreeCL_epoch (t : Tree) : (s.setTreeCL t).epoch = s.epoch := rfl
@[simp] theorem State.setTreeCL_busy (t : Tree) : (s.setTreeCL t).busy = s.busy := rfl
@[simp] theorem State.setTreeCL_lensIdx (t : Tree) : (s.setTreeCL t).lensIdx = s.lensIdx := rfl
@[simp] theorem State.setTreeCL_lensTotal (t : Tree) : (s.setTreeCL t).lensTotal = s.lensTotal := rfl
@[simp] theorem State.setTreeCL_pos (t : Tree) : (s.setTreeCL t).pos = s.pos := rfl
@[simp] theorem State.setTreeCL_inByte (t : Tree) (a : Nat) : (s.setTreeCL t).inByte a = s.inByte a := rfl

@[simp] theorem State.setInMem_params (m : Memory) : (s.setInMem m).params = s.params := rfl
@[simp] theorem State.setInMem_phase (m : Memory) : (s.setInMem m).phase = s.phase := rfl
@[simp] theorem State.setInMem_bytePos (m : Memory) : (s.setInMem m).bytePos = s.bytePos := rfl
@[simp] theorem State.setInMem_bitOff (m : Memory) : (s.setInMem m).bitOff = s.bitOff := rfl
@[simp] theorem State.setInMem_done (m : Memory) : (s.setInMem m).done = s.done := rfl
@[simp] theorem State.setInMem_err (m : Memory) : (s.setInMem m).err = s.err := rfl
@[simp] theorem State.setInMem_inLen (m : Memory) : (s.setInMem m).inLen = s.inLen := rfl
@[simp] theorem State.setInMem_outCap (m : Memory) : (s.setInMem m).outCap = s.outCap := rfl
@[simp] theorem State.setInMem_outLen (m : Memory) : (s.setInMem m).outLen = s.outLen := rfl
@[simp] theorem State.setInMem_blkCnt (m : Memory) : (s.setInMem m).blkCnt = s.blkCnt := rfl
@[simp] theorem State.setInMem_bfinal (m : Memory) : (s.setInMem m).bfinal = s.bfinal := rfl
@[simp] theorem State.setInMem_btype (m : Memory) : (s.setInMem m).btype = s.btype := rfl
@[simp] theorem State.setInMem_hlit (m : Memory) : (s.setInMem m).hlit = s.hlit := rfl
@[simp] theorem State.setInMem_hdist (m : Memory) : (s.setInMem m).hdist = s.hdist := rfl
@[simp] theorem State.setInMem_hclen (m : Memory) : (s.setInMem m).hclen = s.hclen := rfl
@[simp] theorem State.setInMem_clLens (m : Memory) : (s.setInMem m).clLens = s.clLens := rfl
@[simp] theorem State.setInMem_lens (m : Memory) : (s.setInMem m).lens = s.lens := rfl
@[simp] theorem State.setInMem_treeLL (m : Memory) : (s.setInMem m).treeLL = s.treeLL := rfl
@[simp] theorem State.setInMem_treeD (m : Memory) : (s.setInMem m).treeD = s.treeD := rfl
@[simp] theorem State.setInMem_treeCL (m : Memory) : (s.setInMem m).treeCL = s.treeCL := rfl
@[simp] theorem State.setInMem_inMem (m : Memory) : (s.setInMem m).inMem = m := rfl
@[simp] theorem State.setInMem_outMem (m : Memory) : (s.setInMem m).outMem = s.outMem := rfl
@[simp] theorem State.setInMem_lenOp (m : Memory) : (s.setInMem m).lenOp = s.lenOp := rfl
@[simp] theorem State.setInMem_distOp (m : Memory) : (s.setInMem m).distOp = s.distOp := rfl
@[simp] theorem State.setInMem_inRace (m : Memory) : (s.setInMem m).inRace = s.inRace := rfl
@[simp] theorem State.setInMem_outRace (m : Memory) : (s.setInMem m).outRace = s.outRace := rfl
@[simp] theorem State.setInMem_hostQ (m : Memory) : (s.setInMem m).hostQ = s.hostQ := rfl
@[simp] theorem State.setInMem_hostRData (m : Memory) : (s.setInMem m).hostRData = s.hostRData := rfl
@[simp] theorem State.setInMem_drawIdx (m : Memory) : (s.setInMem m).drawIdx = s.drawIdx := rfl
@[simp] theorem State.setInMem_epoch (m : Memory) : (s.setInMem m).epoch = s.epoch := rfl
@[simp] theorem State.setInMem_busy (m : Memory) : (s.setInMem m).busy = s.busy := rfl
@[simp] theorem State.setInMem_lensIdx (m : Memory) : (s.setInMem m).lensIdx = s.lensIdx := rfl
@[simp] theorem State.setInMem_lensTotal (m : Memory) : (s.setInMem m).lensTotal = s.lensTotal := rfl
@[simp] theorem State.setInMem_pos (m : Memory) : (s.setInMem m).pos = s.pos := rfl

@[simp] theorem State.setOutMem_params (m : Memory) : (s.setOutMem m).params = s.params := rfl
@[simp] theorem State.setOutMem_phase (m : Memory) : (s.setOutMem m).phase = s.phase := rfl
@[simp] theorem State.setOutMem_bytePos (m : Memory) : (s.setOutMem m).bytePos = s.bytePos := rfl
@[simp] theorem State.setOutMem_bitOff (m : Memory) : (s.setOutMem m).bitOff = s.bitOff := rfl
@[simp] theorem State.setOutMem_done (m : Memory) : (s.setOutMem m).done = s.done := rfl
@[simp] theorem State.setOutMem_err (m : Memory) : (s.setOutMem m).err = s.err := rfl
@[simp] theorem State.setOutMem_inLen (m : Memory) : (s.setOutMem m).inLen = s.inLen := rfl
@[simp] theorem State.setOutMem_outCap (m : Memory) : (s.setOutMem m).outCap = s.outCap := rfl
@[simp] theorem State.setOutMem_outLen (m : Memory) : (s.setOutMem m).outLen = s.outLen := rfl
@[simp] theorem State.setOutMem_blkCnt (m : Memory) : (s.setOutMem m).blkCnt = s.blkCnt := rfl
@[simp] theorem State.setOutMem_bfinal (m : Memory) : (s.setOutMem m).bfinal = s.bfinal := rfl
@[simp] theorem State.setOutMem_btype (m : Memory) : (s.setOutMem m).btype = s.btype := rfl
@[simp] theorem State.setOutMem_hlit (m : Memory) : (s.setOutMem m).hlit = s.hlit := rfl
@[simp] theorem State.setOutMem_hdist (m : Memory) : (s.setOutMem m).hdist = s.hdist := rfl
@[simp] theorem State.setOutMem_hclen (m : Memory) : (s.setOutMem m).hclen = s.hclen := rfl
@[simp] theorem State.setOutMem_clLens (m : Memory) : (s.setOutMem m).clLens = s.clLens := rfl
@[simp] theorem State.setOutMem_lens (m : Memory) : (s.setOutMem m).lens = s.lens := rfl
@[simp] theorem State.setOutMem_treeLL (m : Memory) : (s.setOutMem m).treeLL = s.treeLL := rfl
@[simp] theorem State.setOutMem_treeD (m : Memory) : (s.setOutMem m).treeD = s.treeD := rfl
@[simp] theorem State.setOutMem_treeCL (m : Memory) : (s.setOutMem m).treeCL = s.treeCL := rfl
@[simp] theorem State.setOutMem_inMem (m : Memory) : (s.setOutMem m).inMem = s.inMem := rfl
@[simp] theorem State.setOutMem_outMem (m : Memory) : (s.setOutMem m).outMem = m := rfl
@[simp] theorem State.setOutMem_lenOp (m : Memory) : (s.setOutMem m).lenOp = s.lenOp := rfl
@[simp] theorem State.setOutMem_distOp (m : Memory) : (s.setOutMem m).distOp = s.distOp := rfl
@[simp] theorem State.setOutMem_inRace (m : Memory) : (s.setOutMem m).inRace = s.inRace := rfl
@[simp] theorem State.setOutMem_outRace (m : Memory) : (s.setOutMem m).outRace = s.outRace := rfl
@[simp] theorem State.setOutMem_hostQ (m : Memory) : (s.setOutMem m).hostQ = s.hostQ := rfl
@[simp] theorem State.setOutMem_hostRData (m : Memory) : (s.setOutMem m).hostRData = s.hostRData := rfl
@[simp] theorem State.setOutMem_drawIdx (m : Memory) : (s.setOutMem m).drawIdx = s.drawIdx := rfl
@[simp] theorem State.setOutMem_epoch (m : Memory) : (s.setOutMem m).epoch = s.epoch := rfl
@[simp] theorem State.setOutMem_busy (m : Memory) : (s.setOutMem m).busy = s.busy := rfl
@[simp] theorem State.setOutMem_lensIdx (m : Memory) : (s.setOutMem m).lensIdx = s.lensIdx := rfl
@[simp] theorem State.setOutMem_lensTotal (m : Memory) : (s.setOutMem m).lensTotal = s.lensTotal := rfl
@[simp] theorem State.setOutMem_pos (m : Memory) : (s.setOutMem m).pos = s.pos := rfl
@[simp] theorem State.setOutMem_inByte (m : Memory) (a : Nat) : (s.setOutMem m).inByte a = s.inByte a := rfl

@[simp] theorem State.setLenOp_params (o : Option (BitVec 9)) : (s.setLenOp o).params = s.params := rfl
@[simp] theorem State.setLenOp_phase (o : Option (BitVec 9)) : (s.setLenOp o).phase = s.phase := rfl
@[simp] theorem State.setLenOp_bytePos (o : Option (BitVec 9)) : (s.setLenOp o).bytePos = s.bytePos := rfl
@[simp] theorem State.setLenOp_bitOff (o : Option (BitVec 9)) : (s.setLenOp o).bitOff = s.bitOff := rfl
@[simp] theorem State.setLenOp_done (o : Option (BitVec 9)) : (s.setLenOp o).done = s.done := rfl
@[simp] theorem State.setLenOp_err (o : Option (BitVec 9)) : (s.setLenOp o).err = s.err := rfl
@[simp] theorem State.setLenOp_inLen (o : Option (BitVec 9)) : (s.setLenOp o).inLen = s.inLen := rfl
@[simp] theorem State.setLenOp_outCap (o : Option (BitVec 9)) : (s.setLenOp o).outCap = s.outCap := rfl
@[simp] theorem State.setLenOp_outLen (o : Option (BitVec 9)) : (s.setLenOp o).outLen = s.outLen := rfl
@[simp] theorem State.setLenOp_blkCnt (o : Option (BitVec 9)) : (s.setLenOp o).blkCnt = s.blkCnt := rfl
@[simp] theorem State.setLenOp_bfinal (o : Option (BitVec 9)) : (s.setLenOp o).bfinal = s.bfinal := rfl
@[simp] theorem State.setLenOp_btype (o : Option (BitVec 9)) : (s.setLenOp o).btype = s.btype := rfl
@[simp] theorem State.setLenOp_hlit (o : Option (BitVec 9)) : (s.setLenOp o).hlit = s.hlit := rfl
@[simp] theorem State.setLenOp_hdist (o : Option (BitVec 9)) : (s.setLenOp o).hdist = s.hdist := rfl
@[simp] theorem State.setLenOp_hclen (o : Option (BitVec 9)) : (s.setLenOp o).hclen = s.hclen := rfl
@[simp] theorem State.setLenOp_clLens (o : Option (BitVec 9)) : (s.setLenOp o).clLens = s.clLens := rfl
@[simp] theorem State.setLenOp_lens (o : Option (BitVec 9)) : (s.setLenOp o).lens = s.lens := rfl
@[simp] theorem State.setLenOp_treeLL (o : Option (BitVec 9)) : (s.setLenOp o).treeLL = s.treeLL := rfl
@[simp] theorem State.setLenOp_treeD (o : Option (BitVec 9)) : (s.setLenOp o).treeD = s.treeD := rfl
@[simp] theorem State.setLenOp_treeCL (o : Option (BitVec 9)) : (s.setLenOp o).treeCL = s.treeCL := rfl
@[simp] theorem State.setLenOp_inMem (o : Option (BitVec 9)) : (s.setLenOp o).inMem = s.inMem := rfl
@[simp] theorem State.setLenOp_outMem (o : Option (BitVec 9)) : (s.setLenOp o).outMem = s.outMem := rfl
@[simp] theorem State.setLenOp_lenOp (o : Option (BitVec 9)) : (s.setLenOp o).lenOp = o := rfl
@[simp] theorem State.setLenOp_distOp (o : Option (BitVec 9)) : (s.setLenOp o).distOp = s.distOp := rfl
@[simp] theorem State.setLenOp_inRace (o : Option (BitVec 9)) : (s.setLenOp o).inRace = s.inRace := rfl
@[simp] theorem State.setLenOp_outRace (o : Option (BitVec 9)) : (s.setLenOp o).outRace = s.outRace := rfl
@[simp] theorem State.setLenOp_hostQ (o : Option (BitVec 9)) : (s.setLenOp o).hostQ = s.hostQ := rfl
@[simp] theorem State.setLenOp_hostRData (o : Option (BitVec 9)) : (s.setLenOp o).hostRData = s.hostRData := rfl
@[simp] theorem State.setLenOp_drawIdx (o : Option (BitVec 9)) : (s.setLenOp o).drawIdx = s.drawIdx := rfl
@[simp] theorem State.setLenOp_epoch (o : Option (BitVec 9)) : (s.setLenOp o).epoch = s.epoch := rfl
@[simp] theorem State.setLenOp_busy (o : Option (BitVec 9)) : (s.setLenOp o).busy = s.busy := rfl
@[simp] theorem State.setLenOp_lensIdx (o : Option (BitVec 9)) : (s.setLenOp o).lensIdx = s.lensIdx := rfl
@[simp] theorem State.setLenOp_lensTotal (o : Option (BitVec 9)) : (s.setLenOp o).lensTotal = s.lensTotal := rfl
@[simp] theorem State.setLenOp_pos (o : Option (BitVec 9)) : (s.setLenOp o).pos = s.pos := rfl
@[simp] theorem State.setLenOp_inByte (o : Option (BitVec 9)) (a : Nat) : (s.setLenOp o).inByte a = s.inByte a := rfl

@[simp] theorem State.setDistOp_params (o : Option (BitVec 16)) : (s.setDistOp o).params = s.params := rfl
@[simp] theorem State.setDistOp_phase (o : Option (BitVec 16)) : (s.setDistOp o).phase = s.phase := rfl
@[simp] theorem State.setDistOp_bytePos (o : Option (BitVec 16)) : (s.setDistOp o).bytePos = s.bytePos := rfl
@[simp] theorem State.setDistOp_bitOff (o : Option (BitVec 16)) : (s.setDistOp o).bitOff = s.bitOff := rfl
@[simp] theorem State.setDistOp_done (o : Option (BitVec 16)) : (s.setDistOp o).done = s.done := rfl
@[simp] theorem State.setDistOp_err (o : Option (BitVec 16)) : (s.setDistOp o).err = s.err := rfl
@[simp] theorem State.setDistOp_inLen (o : Option (BitVec 16)) : (s.setDistOp o).inLen = s.inLen := rfl
@[simp] theorem State.setDistOp_outCap (o : Option (BitVec 16)) : (s.setDistOp o).outCap = s.outCap := rfl
@[simp] theorem State.setDistOp_outLen (o : Option (BitVec 16)) : (s.setDistOp o).outLen = s.outLen := rfl
@[simp] theorem State.setDistOp_blkCnt (o : Option (BitVec 16)) : (s.setDistOp o).blkCnt = s.blkCnt := rfl
@[simp] theorem State.setDistOp_bfinal (o : Option (BitVec 16)) : (s.setDistOp o).bfinal = s.bfinal := rfl
@[simp] theorem State.setDistOp_btype (o : Option (BitVec 16)) : (s.setDistOp o).btype = s.btype := rfl
@[simp] theorem State.setDistOp_hlit (o : Option (BitVec 16)) : (s.setDistOp o).hlit = s.hlit := rfl
@[simp] theorem State.setDistOp_hdist (o : Option (BitVec 16)) : (s.setDistOp o).hdist = s.hdist := rfl
@[simp] theorem State.setDistOp_hclen (o : Option (BitVec 16)) : (s.setDistOp o).hclen = s.hclen := rfl
@[simp] theorem State.setDistOp_clLens (o : Option (BitVec 16)) : (s.setDistOp o).clLens = s.clLens := rfl
@[simp] theorem State.setDistOp_lens (o : Option (BitVec 16)) : (s.setDistOp o).lens = s.lens := rfl
@[simp] theorem State.setDistOp_treeLL (o : Option (BitVec 16)) : (s.setDistOp o).treeLL = s.treeLL := rfl
@[simp] theorem State.setDistOp_treeD (o : Option (BitVec 16)) : (s.setDistOp o).treeD = s.treeD := rfl
@[simp] theorem State.setDistOp_treeCL (o : Option (BitVec 16)) : (s.setDistOp o).treeCL = s.treeCL := rfl
@[simp] theorem State.setDistOp_inMem (o : Option (BitVec 16)) : (s.setDistOp o).inMem = s.inMem := rfl
@[simp] theorem State.setDistOp_outMem (o : Option (BitVec 16)) : (s.setDistOp o).outMem = s.outMem := rfl
@[simp] theorem State.setDistOp_lenOp (o : Option (BitVec 16)) : (s.setDistOp o).lenOp = s.lenOp := rfl
@[simp] theorem State.setDistOp_distOp (o : Option (BitVec 16)) : (s.setDistOp o).distOp = o := rfl
@[simp] theorem State.setDistOp_inRace (o : Option (BitVec 16)) : (s.setDistOp o).inRace = s.inRace := rfl
@[simp] theorem State.setDistOp_outRace (o : Option (BitVec 16)) : (s.setDistOp o).outRace = s.outRace := rfl
@[simp] theorem State.setDistOp_hostQ (o : Option (BitVec 16)) : (s.setDistOp o).hostQ = s.hostQ := rfl
@[simp] theorem State.setDistOp_hostRData (o : Option (BitVec 16)) : (s.setDistOp o).hostRData = s.hostRData := rfl
@[simp] theorem State.setDistOp_drawIdx (o : Option (BitVec 16)) : (s.setDistOp o).drawIdx = s.drawIdx := rfl
@[simp] theorem State.setDistOp_epoch (o : Option (BitVec 16)) : (s.setDistOp o).epoch = s.epoch := rfl
@[simp] theorem State.setDistOp_busy (o : Option (BitVec 16)) : (s.setDistOp o).busy = s.busy := rfl
@[simp] theorem State.setDistOp_lensIdx (o : Option (BitVec 16)) : (s.setDistOp o).lensIdx = s.lensIdx := rfl
@[simp] theorem State.setDistOp_lensTotal (o : Option (BitVec 16)) : (s.setDistOp o).lensTotal = s.lensTotal := rfl
@[simp] theorem State.setDistOp_pos (o : Option (BitVec 16)) : (s.setDistOp o).pos = s.pos := rfl
@[simp] theorem State.setDistOp_inByte (o : Option (BitVec 16)) (a : Nat) : (s.setDistOp o).inByte a = s.inByte a := rfl

@[simp] theorem State.setInRace_params (r : List Host.Cell) : (s.setInRace r).params = s.params := rfl
@[simp] theorem State.setInRace_phase (r : List Host.Cell) : (s.setInRace r).phase = s.phase := rfl
@[simp] theorem State.setInRace_bytePos (r : List Host.Cell) : (s.setInRace r).bytePos = s.bytePos := rfl
@[simp] theorem State.setInRace_bitOff (r : List Host.Cell) : (s.setInRace r).bitOff = s.bitOff := rfl
@[simp] theorem State.setInRace_done (r : List Host.Cell) : (s.setInRace r).done = s.done := rfl
@[simp] theorem State.setInRace_err (r : List Host.Cell) : (s.setInRace r).err = s.err := rfl
@[simp] theorem State.setInRace_inLen (r : List Host.Cell) : (s.setInRace r).inLen = s.inLen := rfl
@[simp] theorem State.setInRace_outCap (r : List Host.Cell) : (s.setInRace r).outCap = s.outCap := rfl
@[simp] theorem State.setInRace_outLen (r : List Host.Cell) : (s.setInRace r).outLen = s.outLen := rfl
@[simp] theorem State.setInRace_blkCnt (r : List Host.Cell) : (s.setInRace r).blkCnt = s.blkCnt := rfl
@[simp] theorem State.setInRace_bfinal (r : List Host.Cell) : (s.setInRace r).bfinal = s.bfinal := rfl
@[simp] theorem State.setInRace_btype (r : List Host.Cell) : (s.setInRace r).btype = s.btype := rfl
@[simp] theorem State.setInRace_hlit (r : List Host.Cell) : (s.setInRace r).hlit = s.hlit := rfl
@[simp] theorem State.setInRace_hdist (r : List Host.Cell) : (s.setInRace r).hdist = s.hdist := rfl
@[simp] theorem State.setInRace_hclen (r : List Host.Cell) : (s.setInRace r).hclen = s.hclen := rfl
@[simp] theorem State.setInRace_clLens (r : List Host.Cell) : (s.setInRace r).clLens = s.clLens := rfl
@[simp] theorem State.setInRace_lens (r : List Host.Cell) : (s.setInRace r).lens = s.lens := rfl
@[simp] theorem State.setInRace_treeLL (r : List Host.Cell) : (s.setInRace r).treeLL = s.treeLL := rfl
@[simp] theorem State.setInRace_treeD (r : List Host.Cell) : (s.setInRace r).treeD = s.treeD := rfl
@[simp] theorem State.setInRace_treeCL (r : List Host.Cell) : (s.setInRace r).treeCL = s.treeCL := rfl
@[simp] theorem State.setInRace_inMem (r : List Host.Cell) : (s.setInRace r).inMem = s.inMem := rfl
@[simp] theorem State.setInRace_outMem (r : List Host.Cell) : (s.setInRace r).outMem = s.outMem := rfl
@[simp] theorem State.setInRace_lenOp (r : List Host.Cell) : (s.setInRace r).lenOp = s.lenOp := rfl
@[simp] theorem State.setInRace_distOp (r : List Host.Cell) : (s.setInRace r).distOp = s.distOp := rfl
@[simp] theorem State.setInRace_inRace (r : List Host.Cell) : (s.setInRace r).inRace = r := rfl
@[simp] theorem State.setInRace_outRace (r : List Host.Cell) : (s.setInRace r).outRace = s.outRace := rfl
@[simp] theorem State.setInRace_hostQ (r : List Host.Cell) : (s.setInRace r).hostQ = s.hostQ := rfl
@[simp] theorem State.setInRace_hostRData (r : List Host.Cell) : (s.setInRace r).hostRData = s.hostRData := rfl
@[simp] theorem State.setInRace_drawIdx (r : List Host.Cell) : (s.setInRace r).drawIdx = s.drawIdx := rfl
@[simp] theorem State.setInRace_epoch (r : List Host.Cell) : (s.setInRace r).epoch = s.epoch := rfl
@[simp] theorem State.setInRace_busy (r : List Host.Cell) : (s.setInRace r).busy = s.busy := rfl
@[simp] theorem State.setInRace_lensIdx (r : List Host.Cell) : (s.setInRace r).lensIdx = s.lensIdx := rfl
@[simp] theorem State.setInRace_lensTotal (r : List Host.Cell) : (s.setInRace r).lensTotal = s.lensTotal := rfl
@[simp] theorem State.setInRace_pos (r : List Host.Cell) : (s.setInRace r).pos = s.pos := rfl
@[simp] theorem State.setInRace_inByte (r : List Host.Cell) (a : Nat) : (s.setInRace r).inByte a = s.inByte a := rfl

@[simp] theorem State.setOutRace_params (r : List Host.Cell) : (s.setOutRace r).params = s.params := rfl
@[simp] theorem State.setOutRace_phase (r : List Host.Cell) : (s.setOutRace r).phase = s.phase := rfl
@[simp] theorem State.setOutRace_bytePos (r : List Host.Cell) : (s.setOutRace r).bytePos = s.bytePos := rfl
@[simp] theorem State.setOutRace_bitOff (r : List Host.Cell) : (s.setOutRace r).bitOff = s.bitOff := rfl
@[simp] theorem State.setOutRace_done (r : List Host.Cell) : (s.setOutRace r).done = s.done := rfl
@[simp] theorem State.setOutRace_err (r : List Host.Cell) : (s.setOutRace r).err = s.err := rfl
@[simp] theorem State.setOutRace_inLen (r : List Host.Cell) : (s.setOutRace r).inLen = s.inLen := rfl
@[simp] theorem State.setOutRace_outCap (r : List Host.Cell) : (s.setOutRace r).outCap = s.outCap := rfl
@[simp] theorem State.setOutRace_outLen (r : List Host.Cell) : (s.setOutRace r).outLen = s.outLen := rfl
@[simp] theorem State.setOutRace_blkCnt (r : List Host.Cell) : (s.setOutRace r).blkCnt = s.blkCnt := rfl
@[simp] theorem State.setOutRace_bfinal (r : List Host.Cell) : (s.setOutRace r).bfinal = s.bfinal := rfl
@[simp] theorem State.setOutRace_btype (r : List Host.Cell) : (s.setOutRace r).btype = s.btype := rfl
@[simp] theorem State.setOutRace_hlit (r : List Host.Cell) : (s.setOutRace r).hlit = s.hlit := rfl
@[simp] theorem State.setOutRace_hdist (r : List Host.Cell) : (s.setOutRace r).hdist = s.hdist := rfl
@[simp] theorem State.setOutRace_hclen (r : List Host.Cell) : (s.setOutRace r).hclen = s.hclen := rfl
@[simp] theorem State.setOutRace_clLens (r : List Host.Cell) : (s.setOutRace r).clLens = s.clLens := rfl
@[simp] theorem State.setOutRace_lens (r : List Host.Cell) : (s.setOutRace r).lens = s.lens := rfl
@[simp] theorem State.setOutRace_treeLL (r : List Host.Cell) : (s.setOutRace r).treeLL = s.treeLL := rfl
@[simp] theorem State.setOutRace_treeD (r : List Host.Cell) : (s.setOutRace r).treeD = s.treeD := rfl
@[simp] theorem State.setOutRace_treeCL (r : List Host.Cell) : (s.setOutRace r).treeCL = s.treeCL := rfl
@[simp] theorem State.setOutRace_inMem (r : List Host.Cell) : (s.setOutRace r).inMem = s.inMem := rfl
@[simp] theorem State.setOutRace_outMem (r : List Host.Cell) : (s.setOutRace r).outMem = s.outMem := rfl
@[simp] theorem State.setOutRace_lenOp (r : List Host.Cell) : (s.setOutRace r).lenOp = s.lenOp := rfl
@[simp] theorem State.setOutRace_distOp (r : List Host.Cell) : (s.setOutRace r).distOp = s.distOp := rfl
@[simp] theorem State.setOutRace_inRace (r : List Host.Cell) : (s.setOutRace r).inRace = s.inRace := rfl
@[simp] theorem State.setOutRace_outRace (r : List Host.Cell) : (s.setOutRace r).outRace = r := rfl
@[simp] theorem State.setOutRace_hostQ (r : List Host.Cell) : (s.setOutRace r).hostQ = s.hostQ := rfl
@[simp] theorem State.setOutRace_hostRData (r : List Host.Cell) : (s.setOutRace r).hostRData = s.hostRData := rfl
@[simp] theorem State.setOutRace_drawIdx (r : List Host.Cell) : (s.setOutRace r).drawIdx = s.drawIdx := rfl
@[simp] theorem State.setOutRace_epoch (r : List Host.Cell) : (s.setOutRace r).epoch = s.epoch := rfl
@[simp] theorem State.setOutRace_busy (r : List Host.Cell) : (s.setOutRace r).busy = s.busy := rfl
@[simp] theorem State.setOutRace_lensIdx (r : List Host.Cell) : (s.setOutRace r).lensIdx = s.lensIdx := rfl
@[simp] theorem State.setOutRace_lensTotal (r : List Host.Cell) : (s.setOutRace r).lensTotal = s.lensTotal := rfl
@[simp] theorem State.setOutRace_pos (r : List Host.Cell) : (s.setOutRace r).pos = s.pos := rfl
@[simp] theorem State.setOutRace_inByte (r : List Host.Cell) (a : Nat) : (s.setOutRace r).inByte a = s.inByte a := rfl

@[simp] theorem State.setHostQ_params (q : List HostOp) : (s.setHostQ q).params = s.params := rfl
@[simp] theorem State.setHostQ_phase (q : List HostOp) : (s.setHostQ q).phase = s.phase := rfl
@[simp] theorem State.setHostQ_bytePos (q : List HostOp) : (s.setHostQ q).bytePos = s.bytePos := rfl
@[simp] theorem State.setHostQ_bitOff (q : List HostOp) : (s.setHostQ q).bitOff = s.bitOff := rfl
@[simp] theorem State.setHostQ_done (q : List HostOp) : (s.setHostQ q).done = s.done := rfl
@[simp] theorem State.setHostQ_err (q : List HostOp) : (s.setHostQ q).err = s.err := rfl
@[simp] theorem State.setHostQ_inLen (q : List HostOp) : (s.setHostQ q).inLen = s.inLen := rfl
@[simp] theorem State.setHostQ_outCap (q : List HostOp) : (s.setHostQ q).outCap = s.outCap := rfl
@[simp] theorem State.setHostQ_outLen (q : List HostOp) : (s.setHostQ q).outLen = s.outLen := rfl
@[simp] theorem State.setHostQ_blkCnt (q : List HostOp) : (s.setHostQ q).blkCnt = s.blkCnt := rfl
@[simp] theorem State.setHostQ_bfinal (q : List HostOp) : (s.setHostQ q).bfinal = s.bfinal := rfl
@[simp] theorem State.setHostQ_btype (q : List HostOp) : (s.setHostQ q).btype = s.btype := rfl
@[simp] theorem State.setHostQ_hlit (q : List HostOp) : (s.setHostQ q).hlit = s.hlit := rfl
@[simp] theorem State.setHostQ_hdist (q : List HostOp) : (s.setHostQ q).hdist = s.hdist := rfl
@[simp] theorem State.setHostQ_hclen (q : List HostOp) : (s.setHostQ q).hclen = s.hclen := rfl
@[simp] theorem State.setHostQ_clLens (q : List HostOp) : (s.setHostQ q).clLens = s.clLens := rfl
@[simp] theorem State.setHostQ_lens (q : List HostOp) : (s.setHostQ q).lens = s.lens := rfl
@[simp] theorem State.setHostQ_treeLL (q : List HostOp) : (s.setHostQ q).treeLL = s.treeLL := rfl
@[simp] theorem State.setHostQ_treeD (q : List HostOp) : (s.setHostQ q).treeD = s.treeD := rfl
@[simp] theorem State.setHostQ_treeCL (q : List HostOp) : (s.setHostQ q).treeCL = s.treeCL := rfl
@[simp] theorem State.setHostQ_inMem (q : List HostOp) : (s.setHostQ q).inMem = s.inMem := rfl
@[simp] theorem State.setHostQ_outMem (q : List HostOp) : (s.setHostQ q).outMem = s.outMem := rfl
@[simp] theorem State.setHostQ_lenOp (q : List HostOp) : (s.setHostQ q).lenOp = s.lenOp := rfl
@[simp] theorem State.setHostQ_distOp (q : List HostOp) : (s.setHostQ q).distOp = s.distOp := rfl
@[simp] theorem State.setHostQ_inRace (q : List HostOp) : (s.setHostQ q).inRace = s.inRace := rfl
@[simp] theorem State.setHostQ_outRace (q : List HostOp) : (s.setHostQ q).outRace = s.outRace := rfl
@[simp] theorem State.setHostQ_hostQ (q : List HostOp) : (s.setHostQ q).hostQ = q := rfl
@[simp] theorem State.setHostQ_hostRData (q : List HostOp) : (s.setHostQ q).hostRData = s.hostRData := rfl
@[simp] theorem State.setHostQ_drawIdx (q : List HostOp) : (s.setHostQ q).drawIdx = s.drawIdx := rfl
@[simp] theorem State.setHostQ_epoch (q : List HostOp) : (s.setHostQ q).epoch = s.epoch := rfl
@[simp] theorem State.setHostQ_busy (q : List HostOp) : (s.setHostQ q).busy = s.busy := rfl
@[simp] theorem State.setHostQ_lensIdx (q : List HostOp) : (s.setHostQ q).lensIdx = s.lensIdx := rfl
@[simp] theorem State.setHostQ_lensTotal (q : List HostOp) : (s.setHostQ q).lensTotal = s.lensTotal := rfl
@[simp] theorem State.setHostQ_pos (q : List HostOp) : (s.setHostQ q).pos = s.pos := rfl
@[simp] theorem State.setHostQ_inByte (q : List HostOp) (a : Nat) : (s.setHostQ q).inByte a = s.inByte a := rfl

@[simp] theorem State.setHostRData_params (v : Nat) : (s.setHostRData v).params = s.params := rfl
@[simp] theorem State.setHostRData_phase (v : Nat) : (s.setHostRData v).phase = s.phase := rfl
@[simp] theorem State.setHostRData_bytePos (v : Nat) : (s.setHostRData v).bytePos = s.bytePos := rfl
@[simp] theorem State.setHostRData_bitOff (v : Nat) : (s.setHostRData v).bitOff = s.bitOff := rfl
@[simp] theorem State.setHostRData_done (v : Nat) : (s.setHostRData v).done = s.done := rfl
@[simp] theorem State.setHostRData_err (v : Nat) : (s.setHostRData v).err = s.err := rfl
@[simp] theorem State.setHostRData_inLen (v : Nat) : (s.setHostRData v).inLen = s.inLen := rfl
@[simp] theorem State.setHostRData_outCap (v : Nat) : (s.setHostRData v).outCap = s.outCap := rfl
@[simp] theorem State.setHostRData_outLen (v : Nat) : (s.setHostRData v).outLen = s.outLen := rfl
@[simp] theorem State.setHostRData_blkCnt (v : Nat) : (s.setHostRData v).blkCnt = s.blkCnt := rfl
@[simp] theorem State.setHostRData_bfinal (v : Nat) : (s.setHostRData v).bfinal = s.bfinal := rfl
@[simp] theorem State.setHostRData_btype (v : Nat) : (s.setHostRData v).btype = s.btype := rfl
@[simp] theorem State.setHostRData_hlit (v : Nat) : (s.setHostRData v).hlit = s.hlit := rfl
@[simp] theorem State.setHostRData_hdist (v : Nat) : (s.setHostRData v).hdist = s.hdist := rfl
@[simp] theorem State.setHostRData_hclen (v : Nat) : (s.setHostRData v).hclen = s.hclen := rfl
@[simp] theorem State.setHostRData_clLens (v : Nat) : (s.setHostRData v).clLens = s.clLens := rfl
@[simp] theorem State.setHostRData_lens (v : Nat) : (s.setHostRData v).lens = s.lens := rfl
@[simp] theorem State.setHostRData_treeLL (v : Nat) : (s.setHostRData v).treeLL = s.treeLL := rfl
@[simp] theorem State.setHostRData_treeD (v : Nat) : (s.setHostRData v).treeD = s.treeD := rfl
@[simp] theorem State.setHostRData_treeCL (v : Nat) : (s.setHostRData v).treeCL = s.treeCL := rfl
@[simp] theorem State.setHostRData_inMem (v : Nat) : (s.setHostRData v).inMem = s.inMem := rfl
@[simp] theorem State.setHostRData_outMem (v : Nat) : (s.setHostRData v).outMem = s.outMem := rfl
@[simp] theorem State.setHostRData_lenOp (v : Nat) : (s.setHostRData v).lenOp = s.lenOp := rfl
@[simp] theorem State.setHostRData_distOp (v : Nat) : (s.setHostRData v).distOp = s.distOp := rfl
@[simp] theorem State.setHostRData_inRace (v : Nat) : (s.setHostRData v).inRace = s.inRace := rfl
@[simp] theorem State.setHostRData_outRace (v : Nat) : (s.setHostRData v).outRace = s.outRace := rfl
@[simp] theorem State.setHostRData_hostQ (v : Nat) : (s.setHostRData v).hostQ = s.hostQ := rfl
@[simp] theorem State.setHostRData_hostRData (v : Nat) : (s.setHostRData v).hostRData = v := rfl
@[simp] theorem State.setHostRData_drawIdx (v : Nat) : (s.setHostRData v).drawIdx = s.drawIdx := rfl
@[simp] theorem State.setHostRData_epoch (v : Nat) : (s.setHostRData v).epoch = s.epoch := rfl
@[simp] theorem State.setHostRData_busy (v : Nat) : (s.setHostRData v).busy = s.busy := rfl
@[simp] theorem State.setHostRData_lensIdx (v : Nat) : (s.setHostRData v).lensIdx = s.lensIdx := rfl
@[simp] theorem State.setHostRData_lensTotal (v : Nat) : (s.setHostRData v).lensTotal = s.lensTotal := rfl
@[simp] theorem State.setHostRData_pos (v : Nat) : (s.setHostRData v).pos = s.pos := rfl
@[simp] theorem State.setHostRData_inByte (v : Nat) (a : Nat) : (s.setHostRData v).inByte a = s.inByte a := rfl

@[simp] theorem State.setDrawIdx_params (n : Nat) : (s.setDrawIdx n).params = s.params := rfl
@[simp] theorem State.setDrawIdx_phase (n : Nat) : (s.setDrawIdx n).phase = s.phase := rfl
@[simp] theorem State.setDrawIdx_bytePos (n : Nat) : (s.setDrawIdx n).bytePos = s.bytePos := rfl
@[simp] theorem State.setDrawIdx_bitOff (n : Nat) : (s.setDrawIdx n).bitOff = s.bitOff := rfl
@[simp] theorem State.setDrawIdx_done (n : Nat) : (s.setDrawIdx n).done = s.done := rfl
@[simp] theorem State.setDrawIdx_err (n : Nat) : (s.setDrawIdx n).err = s.err := rfl
@[simp] theorem State.setDrawIdx_inLen (n : Nat) : (s.setDrawIdx n).inLen = s.inLen := rfl
@[simp] theorem State.setDrawIdx_outCap (n : Nat) : (s.setDrawIdx n).outCap = s.outCap := rfl
@[simp] theorem State.setDrawIdx_outLen (n : Nat) : (s.setDrawIdx n).outLen = s.outLen := rfl
@[simp] theorem State.setDrawIdx_blkCnt (n : Nat) : (s.setDrawIdx n).blkCnt = s.blkCnt := rfl
@[simp] theorem State.setDrawIdx_bfinal (n : Nat) : (s.setDrawIdx n).bfinal = s.bfinal := rfl
@[simp] theorem State.setDrawIdx_btype (n : Nat) : (s.setDrawIdx n).btype = s.btype := rfl
@[simp] theorem State.setDrawIdx_hlit (n : Nat) : (s.setDrawIdx n).hlit = s.hlit := rfl
@[simp] theorem State.setDrawIdx_hdist (n : Nat) : (s.setDrawIdx n).hdist = s.hdist := rfl
@[simp] theorem State.setDrawIdx_hclen (n : Nat) : (s.setDrawIdx n).hclen = s.hclen := rfl
@[simp] theorem State.setDrawIdx_clLens (n : Nat) : (s.setDrawIdx n).clLens = s.clLens := rfl
@[simp] theorem State.setDrawIdx_lens (n : Nat) : (s.setDrawIdx n).lens = s.lens := rfl
@[simp] theorem State.setDrawIdx_treeLL (n : Nat) : (s.setDrawIdx n).treeLL = s.treeLL := rfl
@[simp] theorem State.setDrawIdx_treeD (n : Nat) : (s.setDrawIdx n).treeD = s.treeD := rfl
@[simp] theorem State.setDrawIdx_treeCL (n : Nat) : (s.setDrawIdx n).treeCL = s.treeCL := rfl
@[simp] theorem State.setDrawIdx_inMem (n : Nat) : (s.setDrawIdx n).inMem = s.inMem := rfl
@[simp] theorem State.setDrawIdx_outMem (n : Nat) : (s.setDrawIdx n).outMem = s.outMem := rfl
@[simp] theorem State.setDrawIdx_lenOp (n : Nat) : (s.setDrawIdx n).lenOp = s.lenOp := rfl
@[simp] theorem State.setDrawIdx_distOp (n : Nat) : (s.setDrawIdx n).distOp = s.distOp := rfl
@[simp] theorem State.setDrawIdx_inRace (n : Nat) : (s.setDrawIdx n).inRace = s.inRace := rfl
@[simp] theorem State.setDrawIdx_outRace (n : Nat) : (s.setDrawIdx n).outRace = s.outRace := rfl
@[simp] theorem State.setDrawIdx_hostQ (n : Nat) : (s.setDrawIdx n).hostQ = s.hostQ := rfl
@[simp] theorem State.setDrawIdx_hostRData (n : Nat) : (s.setDrawIdx n).hostRData = s.hostRData := rfl
@[simp] theorem State.setDrawIdx_drawIdx (n : Nat) : (s.setDrawIdx n).drawIdx = n := rfl
@[simp] theorem State.setDrawIdx_epoch (n : Nat) : (s.setDrawIdx n).epoch = s.epoch := rfl
@[simp] theorem State.setDrawIdx_busy (n : Nat) : (s.setDrawIdx n).busy = s.busy := rfl
@[simp] theorem State.setDrawIdx_lensIdx (n : Nat) : (s.setDrawIdx n).lensIdx = s.lensIdx := rfl
@[simp] theorem State.setDrawIdx_lensTotal (n : Nat) : (s.setDrawIdx n).lensTotal = s.lensTotal := rfl
@[simp] theorem State.setDrawIdx_pos (n : Nat) : (s.setDrawIdx n).pos = s.pos := rfl
@[simp] theorem State.setDrawIdx_inByte (n : Nat) (a : Nat) : (s.setDrawIdx n).inByte a = s.inByte a := rfl

@[simp] theorem State.setEpoch_params (n : Nat) : (s.setEpoch n).params = s.params := rfl
@[simp] theorem State.setEpoch_phase (n : Nat) : (s.setEpoch n).phase = s.phase := rfl
@[simp] theorem State.setEpoch_bytePos (n : Nat) : (s.setEpoch n).bytePos = s.bytePos := rfl
@[simp] theorem State.setEpoch_bitOff (n : Nat) : (s.setEpoch n).bitOff = s.bitOff := rfl
@[simp] theorem State.setEpoch_done (n : Nat) : (s.setEpoch n).done = s.done := rfl
@[simp] theorem State.setEpoch_err (n : Nat) : (s.setEpoch n).err = s.err := rfl
@[simp] theorem State.setEpoch_inLen (n : Nat) : (s.setEpoch n).inLen = s.inLen := rfl
@[simp] theorem State.setEpoch_outCap (n : Nat) : (s.setEpoch n).outCap = s.outCap := rfl
@[simp] theorem State.setEpoch_outLen (n : Nat) : (s.setEpoch n).outLen = s.outLen := rfl
@[simp] theorem State.setEpoch_blkCnt (n : Nat) : (s.setEpoch n).blkCnt = s.blkCnt := rfl
@[simp] theorem State.setEpoch_bfinal (n : Nat) : (s.setEpoch n).bfinal = s.bfinal := rfl
@[simp] theorem State.setEpoch_btype (n : Nat) : (s.setEpoch n).btype = s.btype := rfl
@[simp] theorem State.setEpoch_hlit (n : Nat) : (s.setEpoch n).hlit = s.hlit := rfl
@[simp] theorem State.setEpoch_hdist (n : Nat) : (s.setEpoch n).hdist = s.hdist := rfl
@[simp] theorem State.setEpoch_hclen (n : Nat) : (s.setEpoch n).hclen = s.hclen := rfl
@[simp] theorem State.setEpoch_clLens (n : Nat) : (s.setEpoch n).clLens = s.clLens := rfl
@[simp] theorem State.setEpoch_lens (n : Nat) : (s.setEpoch n).lens = s.lens := rfl
@[simp] theorem State.setEpoch_treeLL (n : Nat) : (s.setEpoch n).treeLL = s.treeLL := rfl
@[simp] theorem State.setEpoch_treeD (n : Nat) : (s.setEpoch n).treeD = s.treeD := rfl
@[simp] theorem State.setEpoch_treeCL (n : Nat) : (s.setEpoch n).treeCL = s.treeCL := rfl
@[simp] theorem State.setEpoch_inMem (n : Nat) : (s.setEpoch n).inMem = s.inMem := rfl
@[simp] theorem State.setEpoch_outMem (n : Nat) : (s.setEpoch n).outMem = s.outMem := rfl
@[simp] theorem State.setEpoch_lenOp (n : Nat) : (s.setEpoch n).lenOp = s.lenOp := rfl
@[simp] theorem State.setEpoch_distOp (n : Nat) : (s.setEpoch n).distOp = s.distOp := rfl
@[simp] theorem State.setEpoch_inRace (n : Nat) : (s.setEpoch n).inRace = s.inRace := rfl
@[simp] theorem State.setEpoch_outRace (n : Nat) : (s.setEpoch n).outRace = s.outRace := rfl
@[simp] theorem State.setEpoch_hostQ (n : Nat) : (s.setEpoch n).hostQ = s.hostQ := rfl
@[simp] theorem State.setEpoch_hostRData (n : Nat) : (s.setEpoch n).hostRData = s.hostRData := rfl
@[simp] theorem State.setEpoch_drawIdx (n : Nat) : (s.setEpoch n).drawIdx = s.drawIdx := rfl
@[simp] theorem State.setEpoch_epoch (n : Nat) : (s.setEpoch n).epoch = n := rfl
@[simp] theorem State.setEpoch_busy (n : Nat) : (s.setEpoch n).busy = s.busy := rfl
@[simp] theorem State.setEpoch_lensIdx (n : Nat) : (s.setEpoch n).lensIdx = s.lensIdx := rfl
@[simp] theorem State.setEpoch_lensTotal (n : Nat) : (s.setEpoch n).lensTotal = s.lensTotal := rfl
@[simp] theorem State.setEpoch_pos (n : Nat) : (s.setEpoch n).pos = s.pos := rfl

@[simp] theorem State.setPhase_busy (p : Phase) : (s.setPhase p).busy = (p != .idle) := rfl
@[simp] theorem State.setLens_lensIdx (l : List (BitVec 4)) : (s.setLens l).lensIdx = l.length := rfl

@[simp] theorem State.atPos_params (k : Nat) : (s.atPos k).params = s.params := rfl
@[simp] theorem State.atPos_phase (k : Nat) : (s.atPos k).phase = s.phase := rfl
@[simp] theorem State.atPos_done (k : Nat) : (s.atPos k).done = s.done := rfl
@[simp] theorem State.atPos_err (k : Nat) : (s.atPos k).err = s.err := rfl
@[simp] theorem State.atPos_inLen (k : Nat) : (s.atPos k).inLen = s.inLen := rfl
@[simp] theorem State.atPos_outCap (k : Nat) : (s.atPos k).outCap = s.outCap := rfl
@[simp] theorem State.atPos_outLen (k : Nat) : (s.atPos k).outLen = s.outLen := rfl
@[simp] theorem State.atPos_blkCnt (k : Nat) : (s.atPos k).blkCnt = s.blkCnt := rfl
@[simp] theorem State.atPos_bfinal (k : Nat) : (s.atPos k).bfinal = s.bfinal := rfl
@[simp] theorem State.atPos_btype (k : Nat) : (s.atPos k).btype = s.btype := rfl
@[simp] theorem State.atPos_hlit (k : Nat) : (s.atPos k).hlit = s.hlit := rfl
@[simp] theorem State.atPos_hdist (k : Nat) : (s.atPos k).hdist = s.hdist := rfl
@[simp] theorem State.atPos_hclen (k : Nat) : (s.atPos k).hclen = s.hclen := rfl
@[simp] theorem State.atPos_clLens (k : Nat) : (s.atPos k).clLens = s.clLens := rfl
@[simp] theorem State.atPos_lens (k : Nat) : (s.atPos k).lens = s.lens := rfl
@[simp] theorem State.atPos_treeLL (k : Nat) : (s.atPos k).treeLL = s.treeLL := rfl
@[simp] theorem State.atPos_treeD (k : Nat) : (s.atPos k).treeD = s.treeD := rfl
@[simp] theorem State.atPos_treeCL (k : Nat) : (s.atPos k).treeCL = s.treeCL := rfl
@[simp] theorem State.atPos_inMem (k : Nat) : (s.atPos k).inMem = s.inMem := rfl
@[simp] theorem State.atPos_outMem (k : Nat) : (s.atPos k).outMem = s.outMem := rfl
@[simp] theorem State.atPos_lenOp (k : Nat) : (s.atPos k).lenOp = s.lenOp := rfl
@[simp] theorem State.atPos_distOp (k : Nat) : (s.atPos k).distOp = s.distOp := rfl
@[simp] theorem State.atPos_inRace (k : Nat) : (s.atPos k).inRace = s.inRace := rfl
@[simp] theorem State.atPos_outRace (k : Nat) : (s.atPos k).outRace = s.outRace := rfl
@[simp] theorem State.atPos_hostQ (k : Nat) : (s.atPos k).hostQ = s.hostQ := rfl
@[simp] theorem State.atPos_hostRData (k : Nat) : (s.atPos k).hostRData = s.hostRData := rfl
@[simp] theorem State.atPos_drawIdx (k : Nat) : (s.atPos k).drawIdx = s.drawIdx := rfl
@[simp] theorem State.atPos_epoch (k : Nat) : (s.atPos k).epoch = s.epoch := rfl
@[simp] theorem State.atPos_busy (k : Nat) : (s.atPos k).busy = s.busy := rfl
@[simp] theorem State.atPos_lensIdx (k : Nat) : (s.atPos k).lensIdx = s.lensIdx := rfl
@[simp] theorem State.atPos_lensTotal (k : Nat) : (s.atPos k).lensTotal = s.lensTotal := rfl
@[simp] theorem State.atPos_inByte (k a : Nat) : (s.atPos k).inByte a = s.inByte a := rfl
@[simp] theorem State.atPos_atPos (j k : Nat) : (s.atPos j).atPos k = s.atPos k := rfl

end Sys2Proof.Machine
end

