-- ==== Sys2Proof/Laws/Res.lean ====
section
/-! SUPPORT. Reasoning about the operations inside a step: what a sequence of them answers, and a
one-line way to say everything an operation can do. -/

namespace Sys2Proof.Machine

variable {α β : Type}

@[simp] theorem Res.ok_bind (a : α) (s : State) (f : α → State → Res β) :
    (Res.ok a s).bind f = f a s := rfl
@[simp] theorem Res.raise_bind (k : ErrKind) (s : State) (f : α → State → Res β) :
    (Res.raise k s : Res α).bind f = .raise k s := rfl
@[simp] theorem Res.fault_bind (e : Fault) (f : α → State → Res β) :
    (Res.fault e : Res α).bind f = .fault e := rfl
@[simp] theorem Res.refused_bind (r : Refusal) (f : α → State → Res β) :
    (Res.refused r : Res α).bind f = .refused r := rfl

@[simp] theorem Res.ok_finish (s : State) : (Res.ok () s).finish = .next s := rfl
@[simp] theorem Res.raise_finish (k : ErrKind) (s : State) :
    (Res.raise k s : Res Unit).finish = .next (raiseError k s) := rfl
@[simp] theorem Res.fault_finish (e : Fault) : (Res.fault e : Res Unit).finish = .fault e := rfl
@[simp] theorem Res.refused_finish (r : Refusal) :
    (Res.refused r : Res Unit).finish = .refused r := rfl

theorem Res.bind_assoc {γ : Type} (x : Res α) (f : α → State → Res β) (g : β → State → Res γ) :
    (x.bind f).bind g = x.bind fun a s => (f a s).bind g := by cases x <;> rfl

theorem Res.bind_eq_ok {x : Res α} {f : α → State → Res β} {b : β} {t : State} :
    x.bind f = .ok b t ↔ ∃ a s, x = .ok a s ∧ f a s = .ok b t := by cases x <;> simp

theorem Res.bind_eq_raise {x : Res α} {f : α → State → Res β} {k : ErrKind} {t : State} :
    x.bind f = .raise k t ↔ x = .raise k t ∨ ∃ a s, x = .ok a s ∧ f a s = .raise k t := by
  cases x <;> simp

/-- A step that ends with a next state ended well or took the error entry. -/
theorem Res.finish_eq_next {x : Res Unit} {t : State} :
    x.finish = .next t ↔ x = .ok () t ∨ ∃ k s, x = .raise k s ∧ t = raiseError k s := by
  cases x <;> simp [Res.finish, eq_comm]

variable {P : α → State → Prop} {Q : ErrKind → State → Prop} {S : Prop}

@[simp] theorem Res.ok_sat (a : α) (t : State) : (Res.ok a t).sat P Q S ↔ P a t := Iff.rfl
@[simp] theorem Res.raise_sat (k : ErrKind) (t : State) :
    (Res.raise k t : Res α).sat P Q S ↔ Q k t := Iff.rfl
@[simp] theorem Res.fault_sat (e : Fault) : (Res.fault e : Res α).sat P Q S ↔ S := Iff.rfl
@[simp] theorem Res.refused_sat (r : Refusal) : (Res.refused r : Res α).sat P Q S ↔ S := Iff.rfl

theorem Res.sat_mono {P' : α → State → Prop} {Q' : ErrKind → State → Prop} {S' : Prop} {x : Res α}
    (h : x.sat P Q S) (hP : ∀ a t, P a t → P' a t) (hQ : ∀ k t, Q k t → Q' k t) (hS : S → S') :
    x.sat P' Q' S' := by
  cases x with
  | ok a t => exact hP a t h
  | raise k t => exact hQ k t h
  | fault e => exact hS h
  | refused r => exact hS h

theorem Res.sat_bind {P' : β → State → Prop} {x : Res α} {f : α → State → Res β}
    (h : x.sat P Q S) (hf : ∀ a t, P a t → (f a t).sat P' Q S) : (x.bind f).sat P' Q S := by
  cases x with
  | ok a t => exact hf a t h
  | raise k t => exact h
  | fault e => exact h
  | refused r => exact h

theorem CursorOnly.refl (s : State) : CursorOnly s s := ⟨s.bytePos, s.bitOff, s.drawIdx, rfl⟩

theorem CursorOnly.trans {s t u : State} (h : CursorOnly s t) (h' : CursorOnly t u) :
    CursorOnly s u := by
  obtain ⟨_, _, _, rfl⟩ := h
  obtain ⟨b, o, d, rfl⟩ := h'
  exact ⟨b, o, d, rfl⟩

theorem CursorOnly.setCursor (s : State) (bp : Word) (bo : BitVec 3) :
    CursorOnly s (s.setCursor bp bo) := ⟨bp, bo, s.drawIdx, rfl⟩

theorem CursorOnly.setDrawIdx (s : State) (d : Nat) : CursorOnly s (s.setDrawIdx d) :=
  ⟨s.bytePos, s.bitOff, d, rfl⟩

theorem CursorOnly.inLen_eq {s t : State} (h : CursorOnly s t) : t.inLen = s.inLen := by
  obtain ⟨_, _, _, rfl⟩ := h; rfl

theorem CursorOnly.params_eq {s t : State} (h : CursorOnly s t) : t.params = s.params := by
  obtain ⟨_, _, _, rfl⟩ := h; rfl

end Sys2Proof.Machine
end

