-- ==== Sys2Proof/Laws/Reader.lean ====
section
/-! SUPPORT. The bit reader (41_bit_reader.md): what each operation reads and where it leaves the
cursor, and everything each can do from any state. -/

namespace Sys2Proof.Machine

variable {s t : State}

/-! ### The cursor as a stream position -/

theorem State.pos_atPos (s : State) {k : Nat} (h : k < 8 * 2 ^ 32) : (s.atPos k).pos = k := by
  simp only [State.atPos, State.pos, State.setCursor, BitVec.toNat_ofNat]
  omega

theorem State.atPos_pos (s : State) : s.atPos s.pos = s := by
  have h1 : BitVec.ofNat 32 (s.pos / 8) = s.bytePos := by
    apply BitVec.eq_of_toNat_eq
    simp only [State.pos, BitVec.toNat_ofNat]; omega
  have h2 : BitVec.ofNat 3 s.pos = s.bitOff := by
    apply BitVec.eq_of_toNat_eq
    simp only [State.pos, BitVec.toNat_ofNat]; omega
  cases s; simp_all [State.atPos, State.setCursor]

theorem State.stepBit_eq_atPos (s : State) : s.stepBit = s.atPos (s.pos + 1) := by
  have e1 : BitVec.ofNat 32 ((s.pos + 1) / 8) =
      if s.bitOff = 7 then s.bytePos + 1 else s.bytePos := by
    apply BitVec.eq_of_toNat_eq
    split
    · next h => simp [State.pos, h, BitVec.toNat_add]; omega
    · next h =>
      have : s.bitOff.toNat ≠ 7 := fun e => h (BitVec.eq_of_toNat_eq e)
      simp only [State.pos, BitVec.toNat_ofNat]; omega
  have e2 : BitVec.ofNat 3 (s.pos + 1) = if s.bitOff = 7 then 0 else s.bitOff + 1 := by
    apply BitVec.eq_of_toNat_eq
    split
    · next h => simp [State.pos, h]; omega
    · simp only [State.pos, BitVec.toNat_ofNat, BitVec.toNat_add]; simp; omega
  unfold State.stepBit State.atPos
  rw [e1, e2]; split <;> rfl

theorem State.alignedByte_lt (s : State) (h : s.pos ≤ 8 * s.inLen.toNat) :
    s.alignedByte ≤ s.inLen.toNat := by
  unfold State.alignedByte; omega

theorem State.alignByte_eq (s : State) :
    s.alignByte = s.setCursor (BitVec.ofNat 32 s.alignedByte) 0 := by
  have e : BitVec.ofNat 32 s.alignedByte =
      if s.bitOff = 0 then s.bytePos else s.bytePos + 1 := by
    apply BitVec.eq_of_toNat_eq
    split
    · next h => simp [State.alignedByte, State.pos, h]; omega
    · next h =>
      have : s.bitOff.toNat ≠ 0 := fun e => h (BitVec.eq_of_toNat_eq e)
      simp only [State.alignedByte, State.pos, BitVec.toNat_ofNat, BitVec.toNat_add]
      simp; omega
  unfold State.alignByte
  rw [e]; split
  · next h => cases s; simp_all [State.setCursor]
  · rfl

@[simp] theorem State.pos_setCursor (s : State) (bp : Word) (bo : BitVec 3) :
    (s.setCursor bp bo).pos = 8 * bp.toNat + bo.toNat := rfl

theorem State.pos_lt (s : State) : s.pos < 8 * 2 ^ 32 := by unfold State.pos; omega

/-- The cursor is before the end of the input exactly when its byte is. -/
theorem State.bytePos_lt_iff (s : State) :
    s.inLen ≤ s.bytePos ↔ 8 * s.inLen.toNat ≤ s.pos := by
  simp only [BitVec.le_def, State.pos]; omega

/-- A cursor at the end of the input is (`IN_LEN`, 0). -/
theorem State.atPos_inLen_end (s : State) :
    s.atPos (8 * s.inLen.toNat) = s.setCursor s.inLen 0 := by
  have e2 : BitVec.ofNat 3 (8 * s.inLen.toNat) = 0 := by
    apply BitVec.eq_of_toNat_eq; simp [BitVec.toNat_ofNat]
  simp [State.atPos, e2]

/-! ### Quiet states -/

theorem State.Quiet.inRace (h : s.Quiet) : s.inRace = [] := h.1.1
theorem State.Quiet.outRace (h : s.Quiet) : s.outRace = [] := h.1.2
theorem State.Quiet.inLen_le (h : s.Quiet) : s.inLen.toNat ≤ s.params.inMemSize.toNat := h.2.1
theorem State.Quiet.outCap_le (h : s.Quiet) : s.outCap.toNat ≤ s.params.outMemSize.toNat := h.2.2.1
theorem State.Quiet.pos_le (h : s.Quiet) : s.pos ≤ 8 * s.inLen.toNat := h.2.2.2

theorem State.Quiet.setCursor (h : s.Quiet) {bp : Word} {bo : BitVec 3}
    (hk : 8 * bp.toNat + bo.toNat ≤ 8 * s.inLen.toNat) : (s.setCursor bp bo).Quiet :=
  ⟨h.1, h.2.1, h.2.2.1, hk⟩

theorem State.Quiet.atPos (h : s.Quiet) {k : Nat} (hk : k ≤ 8 * s.inLen.toNat) :
    (s.atPos k).Quiet := by
  refine ⟨h.1, h.2.1, h.2.2.1, ?_⟩
  rw [State.pos_atPos s (by omega)]; exact hk

theorem State.Readable.quiet {n : Nat} (h : s.Readable n) : s.Quiet := h.1

theorem State.Readable.mono {m n : Nat} (h : s.Readable n) (hm : m ≤ n) : s.Readable m :=
  ⟨h.1, by have := h.2; omega⟩

/-- After `m` of `m + n` readable bits, `n` are readable. -/
theorem State.Readable.atPos {m n : Nat} (h : s.Readable (m + n)) :
    (s.atPos (s.pos + m)).Readable n := by
  have h2 := h.2
  refine ⟨h.1.atPos (by omega), ?_⟩
  rw [State.pos_atPos s (by omega)]; simp only [State.atPos_inLen]; omega

theorem State.Readable.pos_atPos {m : Nat} (h : s.Readable m) :
    (s.atPos (s.pos + m)).pos = s.pos + m := by
  have := h.2
  exact State.pos_atPos s (by omega)

theorem State.Quiet.readable_or_short (h : s.Quiet) (n : Nat) : s.Readable n ∨ s.Short n := by
  rcases Nat.lt_or_ge (8 * s.inLen.toNat) (s.pos + n) with h1 | h1
  · exact .inr ⟨h, h1⟩
  · exact .inl ⟨h, h1⟩

/-! ### The stream's bits -/

@[simp] theorem State.streamBit_atPos (s : State) (j k : Nat) :
    (s.atPos j).streamBit k = s.streamBit k := rfl

/-- The stream of a state depends on its input bytes only. -/
theorem State.streamBit_congr (h : ∀ a, s.inByte a = t.inByte a) (k : Nat) :
    s.streamBit k = t.streamBit k := by simp [State.streamBit, h]

theorem State.streamField_congr (h : ∀ a, s.inByte a = t.inByte a) (k n : Nat) :
    s.streamField k n = t.streamField k n := by
  induction n generalizing k with
  | zero => rfl
  | succ n ih => simp [State.streamField, ih, State.streamBit_congr h]

theorem State.streamBits_congr (h : ∀ a, s.inByte a = t.inByte a) (k n : Nat) :
    s.streamBits k n = t.streamBits k n := by
  induction n generalizing k with
  | zero => rfl
  | succ n ih => simp [State.streamBits, ih, State.streamBit_congr h]

@[simp] theorem State.streamField_atPos (s : State) (j k n : Nat) :
    (s.atPos j).streamField k n = s.streamField k n :=
  State.streamField_congr (s := s.atPos j) (t := s) (fun _ => rfl) k n

@[simp] theorem State.streamBits_atPos (s : State) (j k n : Nat) :
    (s.atPos j).streamBits k n = s.streamBits k n :=
  State.streamBits_congr (s := s.atPos j) (t := s) (fun _ => rfl) k n

@[simp] theorem State.streamBits_length (s : State) (k n : Nat) :
    (s.streamBits k n).length = n := by
  induction n generalizing k with
  | zero => rfl
  | succ n ih => simp [State.streamBits, ih]

theorem State.streamBits_append (s : State) (k m n : Nat) :
    s.streamBits k (m + n) = s.streamBits k m ++ s.streamBits (k + m) n := by
  induction m generalizing k with
  | zero => simp [State.streamBits]
  | succ m ih =>
    rw [Nat.add_right_comm, State.streamBits, ih]
    simp [State.streamBits, Nat.add_assoc, Nat.add_comm 1 m]

/-- A field's value is below `2^n`, and its bit `i` is the `i`-th bit of the stream (R131). -/
theorem State.streamField_lt (s : State) (k n : Nat) : s.streamField k n < 2 ^ n := by
  induction n generalizing k with
  | zero => simp [State.streamField]
  | succ n ih =>
    have := ih (k + 1)
    have hb : (s.streamBit k).toNat ≤ 1 := Bool.toNat_le _
    simp only [State.streamField, Nat.pow_succ]; omega

theorem State.testBit_streamField (s : State) {k n i : Nat} (h : i < n) :
    (s.streamField k n).testBit i = s.streamBit (k + i) := by
  induction n generalizing k i with
  | zero => omega
  | succ n ih =>
    cases i with
    | zero =>
      simp only [State.streamField, Nat.testBit_zero, Nat.add_zero]
      cases s.streamBit k <;> simp [Nat.add_mod]
    | succ i =>
      rw [Nat.testBit_succ, State.streamField]
      have e : ((s.streamBit k).toNat + 2 * s.streamField (k + 1) n) / 2 =
          s.streamField (k + 1) n := by
        have hb : (s.streamBit k).toNat ≤ 1 := Bool.toNat_le _
        omega
      rw [e, ih (by omega)]; congr 1; omega

/-! ### What the operations read -/

/-- `ReadBit` where a bit is left (R130). -/
theorem readBit_ok (h : s.Readable 1) : readBit s = .ok (s.streamBit s.pos) (s.atPos (s.pos + 1)) := by
  have h2 := h.2
  have hp : ¬ s.inLen ≤ s.bytePos := by rw [State.bytePos_lt_iff]; omega
  have hm : ¬ s.params.inMemSize.toNat ≤ s.bytePos.toNat := by
    have h3 := h.1.inLen_le
    have h4 : s.bytePos.toNat < s.inLen.toNat := by simpa [BitVec.le_def] using hp
    omega
  have hb : (s.inByte s.bytePos.toNat).getLsbD s.bitOff.toNat = s.streamBit s.pos := by
    have e1 : s.pos / 8 = s.bytePos.toNat := by unfold State.pos; omega
    have e2 : s.pos % 8 = s.bitOff.toNat := by unfold State.pos; omega
    rw [State.streamBit, e1, e2]
  simp [readBit, readIn, drawByte, raceAt, h.1.inRace, hp, hm, hb, State.stepBit_eq_atPos]

/-- `ReadBit` at the end of the input (R130). -/
theorem readBit_end (h : 8 * s.inLen.toNat ≤ s.pos) : readBit s = .raise .outOfData s := by
  simp [readBit, (State.bytePos_lt_iff s).2 h]

theorem readBitsFrom_ok {n : Nat} (i : Nat) (h : s.Readable n) :
    readBitsFrom n i s = .ok (2 ^ i * s.streamField s.pos n) (s.atPos (s.pos + n)) := by
  induction n generalizing i s with
  | zero => simp [readBitsFrom, State.streamField, State.atPos_pos]
  | succ n ih =>
    have h1 : s.Readable 1 := h.mono (by omega)
    have h2 : (s.atPos (s.pos + 1)).Readable n := State.Readable.atPos (by rwa [Nat.add_comm])
    rw [readBitsFrom, readBit_ok h1, Res.ok_bind, ih _ h2, h1.pos_atPos, Res.ok_bind]
    simp only [State.streamField_atPos, State.atPos_atPos, State.streamField]
    congr 1
    · cases s.streamBit s.pos <;> simp [Nat.pow_succ] <;> ring
    · congr 1; omega

theorem readBitsFrom_short {n : Nat} (i : Nat) (h : s.Short n) :
    readBitsFrom n i s = .raise .outOfData (s.setCursor s.inLen 0) := by
  induction n generalizing i s with
  | zero => have := h.1.pos_le; have := h.2; omega
  | succ n ih =>
    rcases Nat.lt_or_ge s.pos (8 * s.inLen.toNat) with hlt | hge
    · have h1 : s.Readable 1 := ⟨h.1, by omega⟩
      have h2 : (s.atPos (s.pos + 1)).Short n :=
        ⟨h.1.atPos (by omega), by rw [h1.pos_atPos]; have := h.2; simpa using by omega⟩
      rw [readBitsFrom, readBit_ok h1, Res.ok_bind, ih _ h2, Res.raise_bind]; rfl
    · have e : s.pos = 8 * s.inLen.toNat := Nat.le_antisymm h.1.pos_le hge
      rw [readBitsFrom, readBit_end hge, Res.raise_bind, ← State.atPos_inLen_end, ← e,
        State.atPos_pos]

/-- `ReadBits` where the field is there (R131, R61). -/
theorem readBits_ok {n : Nat} (hn : n ≤ 32) (h : s.Readable n) :
    readBits n s = .ok (s.streamField s.pos n) (s.atPos (s.pos + n)) := by
  simp [readBits, Config.readBitsMax, Nat.not_lt.2 hn, readBitsFrom_ok 0 h]

/-- `ReadBits` where the input ends inside the field (R131). -/
theorem readBits_short {n : Nat} (hn : n ≤ 32) (h : s.Short n) :
    readBits n s = .raise .outOfData (s.setCursor s.inLen 0) := by
  simp [readBits, Config.readBitsMax, Nat.not_lt.2 hn, readBitsFrom_short 0 h]

/-- `base + ReadBits(n)` where the field is there (R99). -/
theorem readPlus_ok {n : Nat} (base : Nat) (hn : n ≤ 32) (h : s.Readable n) :
    readPlus n base s = .ok (base + s.streamField s.pos n) (s.atPos (s.pos + n)) := by
  simp [readPlus, readBits_ok hn h]

theorem readPlus_short {n : Nat} (base : Nat) (hn : n ≤ 32) (h : s.Short n) :
    readPlus n base s = .raise .outOfData (s.setCursor s.inLen 0) := by
  simp [readPlus, readBits_short hn h]

/-- `ReadByte` where a whole byte is left (R132). -/
theorem readByte_ok (h : s.Quiet) (hb : s.alignedByte < s.inLen.toNat) :
    readByte s = .ok (s.inByte s.alignedByte)
      (s.setCursor (BitVec.ofNat 32 (s.alignedByte + 1)) 0) := by
  have hlt : s.alignedByte < 2 ^ 32 := by omega
  have e : (BitVec.ofNat 32 s.alignedByte).toNat = s.alignedByte := by
    simp only [BitVec.toNat_ofNat]; omega
  have e1 : BitVec.ofNat 32 s.alignedByte + 1 = BitVec.ofNat 32 (s.alignedByte + 1) := by
    apply BitVec.eq_of_toNat_eq; simp [BitVec.toNat_add]
  have h1 : ¬ s.inLen ≤ BitVec.ofNat 32 s.alignedByte := by
    rw [BitVec.le_def, e]; omega
  have h2 : ¬ s.params.inMemSize.toNat ≤ s.alignedByte := by
    have := h.inLen_le; omega
  simp only [readByte, State.alignByte_eq, State.setCursor_inLen, State.setCursor_bytePos, h1,
    if_false, readIn, State.setCursor_params, e, h2, State.setCursor_inByte,
    State.setCursor_inRace, h.inRace, raceAt, List.filter_nil, List.map_nil, drawByte, Res.ok_bind,
    e1]
  rfl

/-- `ReadByte` where no whole byte is left: the alignment stays done (R132). -/
theorem readByte_end (h : s.Quiet) (hb : s.inLen.toNat ≤ s.alignedByte) :
    readByte s = .raise .outOfData (s.setCursor (BitVec.ofNat 32 s.alignedByte) 0) := by
  have ha := s.alignedByte_lt h.pos_le
  have e : (BitVec.ofNat 32 s.alignedByte).toNat = s.alignedByte := by
    simp only [BitVec.toNat_ofNat]; omega
  have h1 : s.inLen ≤ BitVec.ofNat 32 s.alignedByte := by rw [BitVec.le_def, e]; omega
  simp [readByte, State.alignByte_eq, h1]

@[simp] theorem State.alignedByte_setCursor_zero (s : State) {a : Nat} (h : a < 2 ^ 32) :
    (s.setCursor (BitVec.ofNat 32 a) 0).alignedByte = a := by
  simp only [State.alignedByte, State.pos_setCursor, BitVec.toNat_ofNat]; simp; omega

theorem State.Quiet.afterByte (h : s.Quiet) {a : Nat} (ha : a ≤ s.inLen.toNat) :
    (s.setCursor (BitVec.ofNat 32 a) 0).Quiet := by
  refine h.setCursor ?_
  simp only [BitVec.toNat_ofNat]; simp; omega

/-- `ReadBytes` where the bytes are there (R133). -/
theorem readBytes_ok {n : Nat} (h : s.Quiet) (hn : 0 < n)
    (hb : s.alignedByte + n ≤ s.inLen.toNat) :
    readBytes n s = .ok ((List.range n).map fun i => s.inByte (s.alignedByte + i))
      (s.setCursor (BitVec.ofNat 32 (s.alignedByte + n)) 0) := by
  induction n generalizing s with
  | zero => omega
  | succ n ih =>
    rw [readBytes, readByte_ok h (by omega), Res.ok_bind]
    cases n with
    | zero => simp [readBytes]
    | succ n =>
      have hq := h.afterByte (a := s.alignedByte + 1) (by omega)
      have ea : (s.setCursor (BitVec.ofNat 32 (s.alignedByte + 1)) 0).alignedByte =
          s.alignedByte + 1 := State.alignedByte_setCursor_zero s (by omega)
      rw [ih hq (by omega) (by rw [ea]; simpa using by omega), ea, Res.ok_bind]
      congr 1
      · rw [List.range_succ_eq_map (n := n + 1)]
        simp [Function.comp_def, Nat.add_assoc, Nat.add_comm 1]
      · simp [State.setCursor, Nat.add_assoc, Nat.add_comm 1]

/-- `ReadBytes` where they are not all there (R133). -/
theorem readBytes_short {n : Nat} (h : s.Quiet) (hn : 0 < n)
    (hb : s.inLen.toNat < s.alignedByte + n) :
    readBytes n s = .raise .outOfData (s.setCursor s.inLen 0) := by
  induction n generalizing s with
  | zero => omega
  | succ n ih =>
    have ha := s.alignedByte_lt h.pos_le
    rcases Nat.lt_or_ge s.alignedByte s.inLen.toNat with hlt | hge
    · have hq := h.afterByte (a := s.alignedByte + 1) (by omega)
      have ea : (s.setCursor (BitVec.ofNat 32 (s.alignedByte + 1)) 0).alignedByte =
          s.alignedByte + 1 := State.alignedByte_setCursor_zero s (by omega)
      rw [readBytes, readByte_ok h hlt, Res.ok_bind, ih hq (by omega)
        (by rw [ea]; simpa using by omega), Res.raise_bind]
      rfl
    · have e : s.alignedByte = s.inLen.toNat := by omega
      rw [readBytes, readByte_end h hge, Res.raise_bind, e]; simp

/-! ### Everything the operations can do -/

/-- The cursor is within the input (R26). -/
def State.InInput (s : State) : Prop := s.pos ≤ 8 * s.inLen.toNat

/-- The cursor does not move back, and stays within the input if it was (R26, R134). -/
def Onward (s t : State) : Prop := s.InInput → s.pos ≤ t.pos ∧ t.InInput

/-- The cursor does not move back, and moves on if it was within the input. -/
def Ahead (s t : State) : Prop := Onward s t ∧ (s.InInput → s.pos < t.pos)

/-- A read: nothing but the cursor and the count of draws changes, and the cursor goes onward. -/
def Forward (s t : State) : Prop := CursorOnly s t ∧ Onward s t

theorem Onward.refl (s : State) : Onward s s := fun h => ⟨Nat.le_refl _, h⟩

theorem Onward.trans {u : State} (h : Onward s t) (h' : Onward t u) : Onward s u := fun hs =>
  ⟨Nat.le_trans (h hs).1 (h' (h hs).2).1, (h' (h hs).2).2⟩

theorem Ahead.trans_onward {u : State} (h : Ahead s t) (h' : Onward t u) : Ahead s u :=
  ⟨h.1.trans h', fun hs => Nat.lt_of_lt_of_le (h.2 hs) (h' (h.1 hs).2).1⟩

theorem Onward.trans_ahead {u : State} (h : Onward s t) (h' : Ahead t u) : Ahead s u :=
  ⟨h.trans h'.1, fun hs => Nat.lt_of_le_of_lt (h hs).1 (h'.2 (h hs).2)⟩

theorem Forward.trans {u : State} (h : Forward s t) (h' : Forward t u) : Forward s u :=
  ⟨h.1.trans h'.1, h.2.trans h'.2⟩

theorem Forward.refl (s : State) : Forward s s := ⟨CursorOnly.refl s, Onward.refl s⟩

/-- A read of a byte: nothing but the count of draws changes, and no error is raised. -/
theorem readIn_sat (a : Nat) (s : State) : (readIn a s).sat
    (fun b t => (∃ d, t = s.setDrawIdx d) ∧ (b = s.inByte a ∨ b ∈ raceAt s.inRace a))
    (fun _ _ => False) (s.params.inMemSize.toNat ≤ a) := by
  unfold readIn
  split
  · next h => exact h
  · unfold drawByte
    split
    · exact ⟨⟨s.drawIdx, rfl⟩, .inl rfl⟩
    · next c l e =>
      refine ⟨⟨_, rfl⟩, ?_⟩
      generalize hi : Config.pick s.drawIdx % ((c :: l).length + 1) = i
      have hlt : i < (s.inByte a :: c :: l).length := by
        rw [← hi]; exact Nat.mod_lt _ (by simp)
      have hm : (s.inByte a :: c :: l).getD i (s.inByte a) ∈ s.inByte a :: c :: l := by
        rw [List.getD_eq_getElem _ _ hlt]; exact List.getElem_mem hlt
      rw [e, hi]
      exact List.mem_cons.1 hm

theorem readBit_sat (s : State) : (readBit s).sat
    (fun _ t => Forward s t ∧ Ahead s t ∧ t.pos = s.pos + 1) (fun k t => k = .outOfData ∧ Forward s t)
    (s.params.inMemSize < s.inLen) := by
  unfold readBit
  split
  · exact ⟨rfl, Forward.refl s⟩
  · next hp =>
    rw [State.bytePos_lt_iff] at hp
    have hr := readIn_sat s.bytePos.toNat s
    cases hx : readIn s.bytePos.toNat s with
    | ok b t =>
      rw [hx] at hr
      obtain ⟨⟨d, rfl⟩, -⟩ := hr
      have e : ((s.setDrawIdx d).stepBit).pos = s.pos + 1 := by
        rw [State.stepBit_eq_atPos]; exact State.pos_atPos _ (by change s.pos + 1 < _; omega)
      have ho : Onward s (s.setDrawIdx d).stepBit := fun _ => by
        refine ⟨by rw [e]; omega, ?_⟩
        rw [State.InInput, e, State.stepBit_eq_atPos]; change s.pos + 1 ≤ 8 * s.inLen.toNat; omega
      refine ⟨⟨?_, ho⟩, ⟨ho, fun _ => by rw [e]; omega⟩, e⟩
      rw [State.stepBit_eq_atPos]; exact ⟨_, _, d, rfl⟩
    | raise k t => rw [hx] at hr; exact hr.elim
    | fault e =>
      rw [hx] at hr
      change s.params.inMemSize.toNat ≤ _ at hr
      rw [Res.fault_bind, Res.fault_sat, BitVec.lt_def]
      unfold State.pos at hp; omega
    | refused r =>
      rw [hx] at hr
      change s.params.inMemSize.toNat ≤ _ at hr
      rw [Res.refused_bind, Res.refused_sat, BitVec.lt_def]
      unfold State.pos at hp; omega

theorem readBitsFrom_sat (n i : Nat) (s : State) : (readBitsFrom n i s).sat
    (fun v t => Forward s t ∧ t.pos = s.pos + n ∧ ∃ x, x < 2 ^ n ∧ v = 2 ^ i * x)
    (fun k t => k = .outOfData ∧ Forward s t) (s.params.inMemSize < s.inLen) := by
  induction n generalizing i s with
  | zero => exact ⟨Forward.refl s, rfl, 0, by simp, by simp⟩
  | succ n ih =>
    refine Res.sat_bind (readBit_sat s) fun b t ⟨ht, _, hp⟩ => ?_
    have hi := ih (i + 1) t
    rw [ht.1.params_eq, ht.1.inLen_eq] at hi
    refine Res.sat_bind (Res.sat_mono hi (fun _ _ h => h) (fun k u hu => ⟨hu.1, ht.trans hu.2⟩) id) ?_
    rintro v u ⟨hu, hpu, x, hx, rfl⟩
    refine ⟨ht.trans hu, by omega, (if b then 1 else 0) + 2 * x, ?_, ?_⟩
    · rw [Nat.pow_succ]; split <;> omega
    · cases b <;> simp [Nat.pow_succ] <;> ring

theorem readBits_sat {n : Nat} (hn : n ≤ 32) (s : State) : (readBits n s).sat
    (fun v t => Forward s t ∧ t.pos = s.pos + n ∧ v < 2 ^ n)
    (fun k t => k = .outOfData ∧ Forward s t) (s.params.inMemSize < s.inLen) := by
  simp only [readBits, Config.readBitsMax, Nat.not_lt.2 hn, if_false]
  exact Res.sat_mono (readBitsFrom_sat n 0 s)
    (fun _ _ ⟨h1, h2, x, h3, h4⟩ => ⟨h1, h2, by simpa [h4] using h3⟩) (fun _ _ h => h) id

theorem readPlus_sat {n : Nat} (base : Nat) (hn : n ≤ 32) (s : State) :
    (readPlus n base s).sat
      (fun v t => Forward s t ∧ t.pos = s.pos + n ∧ base ≤ v ∧ v < base + 2 ^ n)
      (fun k t => k = .outOfData ∧ Forward s t) (s.params.inMemSize < s.inLen) :=
  Res.sat_bind (readBits_sat hn s) fun _ _ ⟨h1, h2, h3⟩ =>
    ⟨h1, h2, Nat.le_add_right _ _, Nat.add_lt_add_left h3 _⟩

theorem alignByte_forward (s : State) : Forward s s.alignByte := by
  rw [State.alignByte_eq]
  refine ⟨CursorOnly.setCursor s _ _, fun h => ?_⟩
  have ha := s.alignedByte_lt h
  have e : (BitVec.ofNat 32 s.alignedByte).toNat = s.alignedByte := by
    simp only [BitVec.toNat_ofNat]; omega
  rw [State.InInput, State.pos_setCursor, State.setCursor_inLen, e]
  unfold State.alignedByte at *
  simp; omega

theorem readByte_sat (s : State) : (readByte s).sat
    (fun _ t => Forward s t ∧ Ahead s t) (fun k t => k = .outOfData ∧ Forward s t)
    (s.params.inMemSize < s.inLen) := by
  have hal := alignByte_forward s
  have h0 : s.alignByte.bitOff = 0 := by rw [State.alignByte_eq]; rfl
  have ep := hal.1.params_eq
  have el := hal.1.inLen_eq
  unfold readByte
  generalize s.alignByte = u at hal h0 ep el ⊢
  dsimp only
  split
  · exact ⟨rfl, hal⟩
  · next hp =>
    have hlt : u.bytePos.toNat < u.inLen.toNat := by simpa [BitVec.le_def] using hp
    have hr := readIn_sat u.bytePos.toNat u
    cases hx : readIn u.bytePos.toNat u with
    | ok b t =>
      rw [hx] at hr
      obtain ⟨⟨d, rfl⟩, -⟩ := hr
      have e1 : (u.bytePos + 1).toNat = u.bytePos.toNat + 1 := by
        rw [BitVec.toNat_add]; simp; omega
      have hpu : u.pos = 8 * u.bytePos.toNat := by simp [State.pos, h0]
      have hpv : ((u.setDrawIdx d).setCursor (u.bytePos + 1) u.bitOff).pos = u.pos + 8 := by
        rw [State.pos_setCursor, e1, h0, hpu]; simp; omega
      have hu : Ahead u ((u.setDrawIdx d).setCursor (u.bytePos + 1) u.bitOff) := by
        refine ⟨fun _ => ⟨by rw [hpv]; omega, ?_⟩, fun _ => by rw [hpv]; omega⟩
        rw [State.InInput, hpv]; change u.pos + 8 ≤ 8 * u.inLen.toNat; omega
      exact ⟨⟨hal.1.trans ⟨_, _, d, rfl⟩, hal.2.trans hu.1⟩, hal.2.trans_ahead hu⟩
    | raise k t => rw [hx] at hr; exact hr.elim
    | fault f =>
      rw [hx] at hr
      change u.params.inMemSize.toNat ≤ _ at hr
      rw [Res.fault_bind, Res.fault_sat, BitVec.lt_def, ← ep, ← el]; omega
    | refused r =>
      rw [hx] at hr
      change u.params.inMemSize.toNat ≤ _ at hr
      rw [Res.refused_bind, Res.refused_sat, BitVec.lt_def, ← ep, ← el]; omega

theorem readBytes_sat (n : Nat) (s : State) : (readBytes n s).sat
    (fun l t => Forward s t ∧ l.length = n) (fun k t => k = .outOfData ∧ Forward s t)
    (s.params.inMemSize < s.inLen) := by
  induction n generalizing s with
  | zero => exact ⟨Forward.refl s, rfl⟩
  | succ n ih =>
    refine Res.sat_bind (readByte_sat s) fun b t ⟨ht, _⟩ => ?_
    have hi := ih t
    rw [ht.1.params_eq, ht.1.inLen_eq] at hi
    exact Res.sat_bind (Res.sat_mono hi (fun _ _ h => h) (fun k u hu => ⟨hu.1, ht.trans hu.2⟩) id)
      fun l u ⟨hu, hl⟩ => ⟨ht.trans hu, by simp [hl]⟩

theorem twoBytes_sat {α : Type} (s : State) (f : Byte → Byte → α) :
    ((readByte s).bind fun b0 s1 => (readByte s1).bind fun b1 s2 => .ok (f b0 b1) s2).sat
      (fun _ t => Forward s t ∧ Ahead s t) (fun k t => k = .outOfData ∧ Forward s t)
      (s.params.inMemSize < s.inLen) := by
  refine Res.sat_bind (readByte_sat s) fun b t ⟨ht, ha⟩ => ?_
  have hi := readByte_sat t
  rw [ht.1.params_eq, ht.1.inLen_eq] at hi
  exact Res.sat_bind (Res.sat_mono hi (fun _ _ h => h) (fun k u hu => ⟨hu.1, ht.trans hu.2⟩) id)
    fun l u ⟨hu, _⟩ => ⟨ht.trans hu, ha.trans_onward hu.2⟩

theorem read16_sat (s : State) : (read16 s).sat
    (fun _ t => Forward s t ∧ Ahead s t) (fun k t => k = .outOfData ∧ Forward s t)
    (s.params.inMemSize < s.inLen) := twoBytes_sat s fun b0 b1 => b0.toNat + 256 * b1.toNat

theorem readZlibH_sat (s : State) : (readZlibH s).sat
    (fun _ t => Forward s t ∧ Ahead s t) (fun k t => k = .outOfData ∧ Forward s t)
    (s.params.inMemSize < s.inLen) := twoBytes_sat s fun b0 b1 => b0.toNat * 256 + b1.toNat

theorem readBlockHeader_sat (s : State) : (readBlockHeader s).sat
    (fun _ t => Forward s t ∧ Ahead s t) (fun k t => k = .outOfData ∧ Forward s t)
    (s.params.inMemSize < s.inLen) := by
  refine Res.sat_bind (Res.sat_mono (readBit_sat s) (fun _ _ h => h) (fun _ _ h => h) id)
    fun b t ⟨ht, ha, _⟩ => ?_
  have hi := readBits_sat (n := 2) (by omega) t
  rw [ht.1.params_eq, ht.1.inLen_eq] at hi
  exact Res.sat_bind (Res.sat_mono hi (fun _ _ h => h) (fun k u hu => ⟨hu.1, ht.trans hu.2⟩) id)
    fun l u ⟨hu, _⟩ => ⟨ht.trans hu, ha.trans_onward hu.2⟩

end Sys2Proof.Machine
end

