-- ==== Sys2Proof/Laws/Huffman.lean ====
section
/-! SUPPORT. The canonical Huffman code (42_huffman.md): the Kraft sum, prefix-freedom, what a built
tree finds, and what the walk does on it. -/

namespace Sys2Proof.Machine

/-! ### Bits of a code -/

@[simp] theorem codeBits_length (n c : Nat) : (codeBits n c).length = n := by
  induction n with
  | zero => rfl
  | succ n ih => simp [codeBits, ih]

theorem codeBits_take (n d c : Nat) : (codeBits (n + d) c).take n = codeBits n (c / 2 ^ d) := by
  induction n with
  | zero => simp [codeBits]
  | succ n ih =>
    rw [Nat.add_right_comm, codeBits, codeBits, List.take_succ_cons, ih]
    simp [Nat.testBit_div_two_pow]

theorem codeBits_testBit {n a b : Nat} (h : codeBits n a = codeBits n b) :
    ∀ i, i < n → a.testBit i = b.testBit i := by
  induction n with
  | zero => intro i hi; omega
  | succ n ih =>
    simp only [codeBits, List.cons.injEq] at h
    intro i hi
    rcases Nat.lt_succ_iff_lt_or_eq.1 hi with hi | rfl
    · exact ih h.2 i hi
    · exact h.1

theorem codeBits_inj {n a b : Nat} (ha : a < 2 ^ n) (hb : b < 2 ^ n)
    (h : codeBits n a = codeBits n b) : a = b := by
  refine Nat.eq_of_testBit_eq fun i => ?_
  rcases Nat.lt_or_ge i n with hi | hi
  · exact codeBits_testBit h i hi
  · have h2 : 2 ^ n ≤ 2 ^ i := Nat.pow_le_pow_right (by omega) hi
    rw [Nat.testBit_lt_two_pow (by omega), Nat.testBit_lt_two_pow (by omega)]

/-- One code is a prefix of another exactly when it is the other's high bits. -/
theorem codeBits_prefix {n d a b : Nat} (ha : a < 2 ^ n) (hb : b < 2 ^ (n + d))
    (h : codeBits n a <+: codeBits (n + d) b) : a = b / 2 ^ d := by
  have h1 := List.prefix_iff_eq_take.1 h
  rw [codeBits_length, codeBits_take] at h1
  refine codeBits_inj ha ?_ h1
  rw [Nat.div_lt_iff_lt_mul (by positivity), ← Nat.pow_add]; exact hb

/-! ### The Kraft sum -/

/-- The codes of length `l` and below, as intervals at depth `l`. -/
def spent (lengths : List Nat) (l : Nat) : Nat := firstCode lengths l + codeCount lengths l

theorem spent_succ (lengths : List Nat) (l : Nat) :
    spent lengths (l + 1) = 2 * spent lengths l + lengths.count (l + 1) := by
  simp [spent, firstCode, codeCount, Nat.mul_comm]

theorem kraftSum_step (lengths : List Nat) (l : Nat) :
    ((lengths.filter fun x => decide (x ≠ 0) && decide (x ≤ l + 1)).map
        (fun x => 2 ^ (l + 1 - x))).sum =
      2 * ((lengths.filter fun x => decide (x ≠ 0) && decide (x ≤ l)).map
        (fun x => 2 ^ (l - x))).sum + lengths.count (l + 1) := by
  induction lengths with
  | nil => rfl
  | cons x xs ih =>
    rcases Nat.eq_zero_or_pos x with rfl | hx
    · simpa using ih
    · rcases Nat.lt_trichotomy x (l + 1) with h | h | h
      · have e : l + 1 - x = (l - x) + 1 := by omega
        have h1 : x ≤ l := by omega
        have h2 : x ≤ l + 1 := by omega
        have h3 : x ≠ l + 1 := by omega
        simp [hx.ne', h1, h2, e, Nat.pow_succ, h3] at ih ⊢
        omega
      · subst h
        simp at ih ⊢
        omega
      · have h1 : ¬ x ≤ l := by omega
        have h2 : ¬ x ≤ l + 1 := by omega
        have h3 : x ≠ l + 1 := by omega
        simp [h1, h2, h3] at ih ⊢
        omega

theorem spent_eq_sum (lengths : List Nat) (l : Nat) : spent lengths l =
    ((lengths.filter fun x => decide (x ≠ 0) && decide (x ≤ l)).map (fun x => 2 ^ (l - x))).sum := by
  induction l with
  | zero =>
    have : (lengths.filter fun x => decide (x ≠ 0) && decide (x ≤ 0)) = [] := by
      rw [List.filter_eq_nil_iff]; intro x _; simp
    rw [this]; rfl
  | succ l ih => rw [spent_succ, ih, kraftSum_step]

theorem spent_eq_kraftSum {lengths : List Nat} {maxbits : Nat} (h : ∀ l ∈ lengths, l ≤ maxbits) :
    spent lengths maxbits = kraftSum lengths maxbits := by
  rw [spent_eq_sum, kraftSum]
  congr 2
  refine List.filter_congr fun x hx => ?_
  simp [h x hx]

theorem spent_grow (lengths : List Nat) (l d : Nat) :
    2 ^ d * spent lengths l ≤ spent lengths (l + d) := by
  induction d with
  | zero => simp
  | succ d ih =>
    rw [← Nat.add_assoc, spent_succ, Nat.pow_succ]; nlinarith

/-- The codes of a longer length come after all shorter ones (R143). -/
theorem firstCode_grow (lengths : List Nat) (l d : Nat) :
    2 ^ (d + 1) * spent lengths l ≤ firstCode lengths (l + (d + 1)) := by
  have h := spent_grow lengths l d
  have e : firstCode lengths (l + (d + 1)) = spent lengths (l + d) * 2 := rfl
  rw [e, Nat.pow_succ]; nlinarith

theorem not_overSubscribed {lengths : List Nat} {maxbits : Nat}
    (h : overSubscribed lengths maxbits = false) {l : Nat} (hl : l ≤ maxbits) :
    spent lengths l ≤ 2 ^ l := by
  cases l with
  | zero => simp [spent, firstCode, codeCount]
  | succ l =>
    have := List.any_eq_false.1 h l (List.mem_range.2 (by omega))
    simpa [spent] using this

/-- The check of R144 is the Kraft sum. -/
theorem overSubscribed_iff {lengths : List Nat} {maxbits : Nat} (h : ∀ l ∈ lengths, l ≤ maxbits) :
    overSubscribed lengths maxbits = true ↔ 2 ^ maxbits < kraftSum lengths maxbits := by
  rw [← spent_eq_kraftSum h]
  constructor
  · intro ho
    obtain ⟨l, hl, hc⟩ := List.any_eq_true.1 ho
    have hl := List.mem_range.1 hl
    have hc : 2 ^ (l + 1) < spent lengths (l + 1) := by simpa [spent] using hc
    have hg := spent_grow lengths (l + 1) (maxbits - (l + 1))
    rw [show l + 1 + (maxbits - (l + 1)) = maxbits by omega] at hg
    have e : 2 ^ maxbits = 2 ^ (maxbits - (l + 1)) * 2 ^ (l + 1) := by
      rw [← Nat.pow_add]; congr 1; omega
    rw [e]
    exact Nat.lt_of_lt_of_le ((Nat.mul_lt_mul_left (by positivity)).2 hc) hg
  · intro hs
    by_contra hn
    have := not_overSubscribed (by simpa using hn) (Nat.le_refl maxbits)
    omega

theorem build_eq_none_iff {lengths : List Nat} {maxbits : Nat} (h : ∀ l ∈ lengths, l ≤ maxbits) :
    build lengths maxbits = none ↔ 2 ^ maxbits < kraftSum lengths maxbits := by
  rw [← overSubscribed_iff h, build]; split <;> simp [*]

/-! ### Prefix-freedom -/

theorem HasCode.length_mem {lengths : List Nat} {a : Nat} (h : HasCode lengths a) :
    lengths.getD a 0 ∈ lengths := by
  rw [List.getD_eq_getElem _ _ h.1]; exact List.getElem_mem h.1

/-- A code lies between the first code of its length and the last (R145). -/
theorem codeOf_lt {lengths : List Nat} {a : Nat} (h : HasCode lengths a) :
    codeOf lengths a + 1 ≤ spent lengths (lengths.getD a 0) := by
  have hc : (lengths.take a).count (lengths.getD a 0) + 1 ≤ lengths.count (lengths.getD a 0) := by
    have hlt := h.1
    have e : lengths.take a ++ lengths[a] :: lengths.drop (a + 1) = lengths := by
      rw [List.getElem_cons_drop, List.take_append_drop]
    have hg : lengths.getD a 0 = lengths[a] := List.getD_eq_getElem _ _ hlt
    generalize lengths.getD a 0 = y at hg ⊢
    have hc := congrArg (List.count y) e
    rw [List.count_append, ← hg, List.count_cons_self] at hc
    omega
  have h0 := h.2
  simp only [codeOf, spent, codeCount, h0, if_false]; omega

theorem codeOf_lt_of_lt {lengths : List Nat} {a b : Nat} (ha : HasCode lengths a)
    (hl : lengths.getD a 0 = lengths.getD b 0) (hab : a < b) :
    codeOf lengths a < codeOf lengths b := by
  simp only [codeOf, hl, Nat.add_lt_add_iff_left]
  have e : lengths.take b = lengths.take a ++ (lengths.drop a).take (b - a) := by
    rw [← List.take_append_drop a (lengths.take b), List.take_take, Nat.min_eq_left hab.le,
      List.drop_take]
  rw [e, List.count_append]
  refine Nat.lt_add_of_pos_right (List.count_pos_iff.2 ?_)
  rw [← hl, List.getD_eq_getElem _ _ ha.1]
  have h1 : (lengths.drop a).take (b - a) = lengths[a]'ha.1 :: ((lengths.drop (a + 1)).take (b - a - 1)) := by
    rw [← List.getElem_cons_drop ha.1, show b - a = (b - a - 1) + 1 by omega, List.take_succ_cons]
    simp
  rw [h1]; exact List.mem_cons_self

/-- No code of a length set that passes the check is a prefix of another (R144). -/
theorem codes_prefixFree {lengths : List Nat} {maxbits : Nat} (hm : ∀ l ∈ lengths, l ≤ maxbits)
    (ho : overSubscribed lengths maxbits = false) {a b : Nat} (ha : HasCode lengths a)
    (hb : HasCode lengths b) (hab : a ≠ b) : ¬ codeOfBits lengths a <+: codeOfBits lengths b := by
  intro hp
  have hsa := not_overSubscribed ho (hm _ ha.length_mem)
  have hsb := not_overSubscribed ho (hm _ hb.length_mem)
  have hca := codeOf_lt ha
  have hcb := codeOf_lt hb
  have hle : lengths.getD a 0 ≤ lengths.getD b 0 := by
    simpa [codeOfBits] using hp.length_le
  obtain ⟨d, hd⟩ := Nat.exists_eq_add_of_le hle
  simp only [codeOfBits] at hp
  rw [hd] at hp
  have hq := codeBits_prefix (by omega) (by rw [← hd]; omega) hp
  cases d with
  | zero =>
    simp only [Nat.pow_zero, Nat.div_one] at hq
    rcases Nat.lt_or_gt_of_ne hab with h | h
    · have := codeOf_lt_of_lt ha hd.symm h; omega
    · have := codeOf_lt_of_lt hb hd h; omega
  | succ d =>
    have hf := firstCode_grow lengths (lengths.getD a 0) d
    rw [← hd] at hf
    have hb1 : firstCode lengths (lengths.getD b 0) ≤ codeOf lengths b := Nat.le_add_right _ _
    have h2 : 2 ^ (d + 1) * (codeOf lengths a + 1) ≤ codeOf lengths b :=
      Nat.le_trans (Nat.le_trans (Nat.mul_le_mul_left _ hca) hf) hb1
    have h3 : codeOf lengths a + 1 ≤ codeOf lengths b / 2 ^ (d + 1) := by
      rw [Nat.le_div_iff_mul_le (by positivity), Nat.mul_comm]; exact h2
    omega

/-! ### What a tree holds -/

/-- The subtree at a bit path. -/
def Tree.at : Tree → List Bool → Tree
  | t, [] => t
  | .node c0 c1, b :: bs => if b then c1.at bs else c0.at bs
  | _, _ :: _ => .absent

@[simp] theorem Tree.at_nil (t : Tree) : t.at [] = t := by cases t <;> rfl

@[simp] theorem Tree.find_absent (bs : List Bool) : Tree.absent.find bs = none := by
  cases bs <;> rfl

theorem Tree.find_eq_at (t : Tree) (bs : List Bool) :
    t.find bs = match t.at bs with | .leaf sym => some sym | _ => none := by
  induction bs generalizing t with
  | nil => cases t <;> rfl
  | cons b bs ih => cases t <;> simp [Tree.find, Tree.at]; cases b <;> simp [ih]

theorem Tree.at_append (t : Tree) (bs cs : List Bool) : t.at (bs ++ cs) = (t.at bs).at cs := by
  induction bs generalizing t with
  | nil => simp
  | cons b bs ih =>
    cases t with
    | node c0 c1 => cases b <;> simp [Tree.at, ih]
    | leaf s => cases cs <;> simp [Tree.at]
    | absent => cases cs <;> simp [Tree.at]

theorem Tree.find_append (t : Tree) (bs cs : List Bool) : t.find (bs ++ cs) = (t.at bs).find cs := by
  rw [Tree.find_eq_at, Tree.find_eq_at, Tree.at_append]

/-- No leaf stands on the path `bs`, above it or below it. -/
def Tree.Free (t : Tree) (bs : List Bool) : Prop :=
  ∀ cs sym, t.find cs = some sym → ¬ cs <+: bs ∧ ¬ bs <+: cs

/-- Inserting a code on a free path adds that code and changes no other (R146). -/
theorem Tree.find_insert {t : Tree} {bs : List Bool} (h : t.Free bs) (sym : Nat) (cs : List Bool) :
    (t.insert bs sym).find cs = if cs = bs then some sym else t.find cs := by
  induction bs generalizing t cs with
  | nil =>
    have hn : ∀ cs, t.find cs = none := by
      intro cs
      by_contra hc
      obtain ⟨y, hy⟩ := Option.ne_none_iff_exists'.1 hc
      exact (h cs y hy).2 List.nil_prefix
    cases cs with
    | nil => cases t <;> simp [Tree.insert, Tree.find]
    | cons c cs =>
      rw [hn]; cases t <;> simp [Tree.insert, Tree.find]
  | cons b bs ih =>
    cases t with
    | leaf y => exact absurd List.nil_prefix (h [] y rfl).1
    | absent =>
      have hf : Tree.absent.Free bs := fun cs y hy => by simp at hy
      cases cs with
      | nil => cases b <;> simp [Tree.insert, Tree.find]
      | cons c cs => cases b <;> cases c <;> simp [Tree.insert, Tree.find, ih hf]
    | node c0 c1 =>
      have h0 : b = false → c0.Free bs := by
        rintro rfl cs y hy
        have := h (false :: cs) y (by simpa [Tree.find] using hy)
        simpa [List.cons_prefix_cons] using this
      have h1 : b = true → c1.Free bs := by
        rintro rfl cs y hy
        have := h (true :: cs) y (by simpa [Tree.find] using hy)
        simpa [List.cons_prefix_cons] using this
      cases cs with
      | nil => cases b <;> simp [Tree.insert, Tree.find]
      | cons c cs =>
        cases b
        · cases c <;> simp [Tree.insert, Tree.find, ih (h0 rfl)]
        · cases c <;> simp [Tree.insert, Tree.find, ih (h1 rfl)]

theorem Tree.at_insert {t : Tree} {bs : List Bool} (sym : Nat) {cs : List Bool}
    (h : (t.insert bs sym).at cs ≠ .absent) : t.at cs ≠ .absent ∨ cs <+: bs ∨ bs <+: cs := by
  induction bs generalizing t cs with
  | nil => exact .inr (.inr List.nil_prefix)
  | cons b bs ih =>
    cases cs with
    | nil => exact .inr (.inl List.nil_prefix)
    | cons c cs =>
      have habs : Tree.absent.at cs = .absent := by cases cs <;> simp [Tree.at]
      have iha : (Tree.absent.insert bs sym).at cs ≠ .absent → cs <+: bs ∨ bs <+: cs :=
        fun h => (ih h).resolve_left (fun h' => h' habs)
      simp only [List.cons_prefix_cons]
      cases t <;> cases b <;> cases c <;> simp [Tree.insert, Tree.at] at h ⊢ <;>
        first
          | exact h
          | exact ih h
          | exact iha h
          | exact absurd habs h

/-- Below every subtree but the root there is a leaf. -/
def Tree.Live (t : Tree) : Prop :=
  ∀ bs, bs ≠ [] → t.at bs ≠ .absent → ∃ cs sym, t.find (bs ++ cs) = some sym

theorem Tree.live_insert {t : Tree} {bs : List Bool} (h : t.Free bs) (hl : t.Live) (sym : Nat) :
    (t.insert bs sym).Live := by
  intro cs hne hat
  have hleaf : ∀ ds, (t.insert bs sym).find ds = if ds = bs then some sym else t.find ds :=
    Tree.find_insert h sym
  rcases Tree.at_insert sym hat with h1 | ⟨ds, h1⟩ | ⟨ds, h1⟩
  · obtain ⟨ds, y, hy⟩ := hl cs hne h1
    refine ⟨ds, ?_⟩
    rw [hleaf]; split
    · exact ⟨sym, rfl⟩
    · exact ⟨y, hy⟩
  · exact ⟨ds, sym, by rw [h1, hleaf, if_pos rfl]⟩
  · cases ds with
    | nil => exact ⟨[], sym, by rw [← h1, List.append_nil, List.append_nil, hleaf, if_pos rfl]⟩
    | cons d ds =>
      have : (t.insert bs sym).at bs = .leaf sym := by
        have hf := hleaf bs
        rw [if_pos rfl, Tree.find_eq_at] at hf
        revert hf
        cases (t.insert bs sym).at bs <;> simp
      rw [← h1, Tree.at_append, this] at hat
      exact absurd rfl hat

theorem Tree.isNode_insert {t : Tree} (h : t.isNode = true) {bs : List Bool} (hb : bs ≠ [])
    (sym : Nat) : (t.insert bs sym).isNode = true := by
  cases t with
  | node c0 c1 =>
    cases bs with
    | nil => exact absurd rfl hb
    | cons b bs => cases b <;> rfl
  | leaf _ => cases h
  | absent => cases h

/-- The code that the insertion loop hands to the `j`-th of the remaining symbols. -/
def loopBits (next ls : List Nat) (j : Nat) : List Bool :=
  codeBits (ls.getD j 0) (next.getD (ls.getD j 0) 0 + (ls.take j).count (ls.getD j 0))

theorem hasCode_cons_succ (l : Nat) (ls : List Nat) (j : Nat) :
    HasCode (l :: ls) (j + 1) ↔ HasCode ls j := by simp [HasCode]

theorem loopBits_skip (next ls : List Nat) {j : Nat} (h : HasCode ls j) :
    loopBits next (0 :: ls) (j + 1) = loopBits next ls j := by
  have h0 : ¬ 0 = ls.getD j 0 := Ne.symm h.2
  simp only [loopBits, List.getD_cons_succ, List.take_succ_cons, List.count_cons, beq_iff_eq, h0,
    if_false, Nat.add_zero]

theorem loopBits_set {next : List Nat} {l : Nat} (hl : l < next.length) (ls : List Nat) (j : Nat) :
    loopBits next (l :: ls) (j + 1) = loopBits (next.set l (next.getD l 0 + 1)) ls j := by
  simp only [loopBits, List.getD_cons_succ, List.take_succ_cons, List.count_cons]
  congr 1
  by_cases e : l = ls.getD j 0
  · have e1 : (next.set l (next.getD l 0 + 1)).getD l 0 = next.getD l 0 + 1 := by
      rw [List.getD_eq_getElem _ _ (by simpa using hl)]; simp
    rw [← e, e1]; simp; omega
  · have e1 : (next.set l (next.getD l 0 + 1)).getD (ls.getD j 0) 0 = next.getD (ls.getD j 0) 0 := by
      rw [List.getD_eq_getElem?_getD, List.getElem?_set_ne e, ← List.getD_eq_getElem?_getD]
    rw [e1]; simp only [beq_iff_eq, e, if_false, Nat.add_zero]

/-- What the insertion loop leaves (R146): the leaves that were there, and one for each remaining
symbol that has a code. -/
theorem insertCodes_spec (ls : List Nat) (sym : Nat) (next : List Nat) (t : Tree)
    (hlen : ∀ l ∈ ls, l < next.length) (hfree : ∀ j, HasCode ls j → t.Free (loopBits next ls j))
    (hpf : ∀ i j, HasCode ls i → HasCode ls j → i ≠ j →
      ¬ loopBits next ls i <+: loopBits next ls j) (hlive : t.Live) (hnode : t.isNode = true) :
    (∀ bs y, (insertCodes ls sym next t).find bs = some y ↔
      t.find bs = some y ∨ ∃ j, HasCode ls j ∧ y = sym + j ∧ bs = loopBits next ls j) ∧
    (insertCodes ls sym next t).Live ∧ (insertCodes ls sym next t).isNode = true := by
  induction ls generalizing sym next t with
  | nil => exact ⟨fun bs y => by simp [insertCodes, HasCode], hlive, hnode⟩
  | cons l ls ih =>
    rw [insertCodes]
    split
    · next e =>
      subst e
      have key : ∀ j, HasCode ls j → loopBits next (0 :: ls) (j + 1) = loopBits next ls j :=
        fun j hj => loopBits_skip next ls hj
      obtain ⟨h1, h2⟩ := ih (sym + 1) next t (fun l hl => hlen l (List.mem_cons_of_mem _ hl))
        (fun j hj => key j hj ▸ hfree (j + 1) ((hasCode_cons_succ 0 ls j).2 hj))
        (fun i j hi hj hij => key i hi ▸ key j hj ▸ hpf (i + 1) (j + 1)
          ((hasCode_cons_succ 0 ls i).2 hi) ((hasCode_cons_succ 0 ls j).2 hj) (by omega)) hlive hnode
      refine ⟨fun bs y => (h1 bs y).trans (or_congr Iff.rfl ⟨?_, ?_⟩), h2⟩
      · rintro ⟨j, hj, rfl, rfl⟩
        exact ⟨j + 1, (hasCode_cons_succ 0 ls j).2 hj, by omega, (key j hj).symm⟩
      · rintro ⟨j, hj, rfl, rfl⟩
        cases j with
        | zero => exact absurd rfl hj.2
        | succ j =>
          have hj' := (hasCode_cons_succ 0 ls j).1 hj
          exact ⟨j, hj', by omega, key j hj'⟩
    · next hl0 =>
      have hll := hlen l List.mem_cons_self
      have h0 : HasCode (l :: ls) 0 := ⟨by simp, by simpa using hl0⟩
      have hb0 : loopBits next (l :: ls) 0 = codeBits l (next.getD l 0) := by simp [loopBits]
      have key : ∀ j, loopBits next (l :: ls) (j + 1) =
          loopBits (next.set l (next.getD l 0 + 1)) ls j := loopBits_set hll ls
      have hf0 : t.Free (codeBits l (next.getD l 0)) := hb0 ▸ hfree 0 h0
      have hins := Tree.find_insert hf0 sym
      have hne : codeBits l (next.getD l 0) ≠ [] := by
        intro e; apply hl0; simpa using congrArg List.length e
      obtain ⟨h1, h2⟩ := ih (sym + 1) (next.set l (next.getD l 0 + 1))
        (t.insert (codeBits l (next.getD l 0)) sym)
        (fun l' hl' => by simpa using hlen l' (List.mem_cons_of_mem _ hl'))
        (by
          intro j hj cs y hy
          have hj' := (hasCode_cons_succ l ls j).2 hj
          rw [hins] at hy
          rw [← key]
          split at hy
          · next e =>
            subst e; rw [← hb0]
            exact ⟨hpf 0 (j + 1) h0 hj' (by omega), hpf (j + 1) 0 hj' h0 (by omega)⟩
          · exact hfree (j + 1) hj' cs y hy)
        (by
          intro i j hi hj hij
          rw [← key, ← key]
          exact hpf (i + 1) (j + 1) ((hasCode_cons_succ l ls i).2 hi)
            ((hasCode_cons_succ l ls j).2 hj) (by omega))
        (Tree.live_insert hf0 hlive sym) (Tree.isNode_insert hnode hne sym)
      refine ⟨fun bs y => (h1 bs y).trans ?_, h2⟩
      rw [hins]
      constructor
      · rintro (h | ⟨j, hj, rfl, rfl⟩)
        · split at h
          · next e => exact .inr ⟨0, h0, by simpa using h.symm, by rw [hb0, e]⟩
          · exact .inl h
        · exact .inr ⟨j + 1, (hasCode_cons_succ l ls j).2 hj, by omega, (key j).symm⟩
      · rintro (h | ⟨j, hj, rfl, rfl⟩)
        · left
          split
          · next e => exact absurd (e ▸ List.prefix_refl _) (hf0 bs y h).1
          · exact h
        · cases j with
          | zero => left; rw [hb0, if_pos rfl]; rfl
          | succ j => exact .inr ⟨j, (hasCode_cons_succ l ls j).1 hj, by omega, key j⟩

/-- What a built tree finds (R146, R150): the codes of the length set, and nothing else; below every
subtree but the root there is a leaf; and the root is an internal node. -/
theorem build_spec {lengths : List Nat} {maxbits : Nat} {t : Tree}
    (hm : ∀ l ∈ lengths, l ≤ maxbits) (hb : build lengths maxbits = some t) :
    (∀ bs y, t.find bs = some y ↔ HasCode lengths y ∧ bs = codeOfBits lengths y) ∧
      t.Live ∧ t.isNode = true := by
  rw [build] at hb
  split at hb
  · cases hb
  · next ho =>
    have ho : overSubscribed lengths maxbits = false := by simpa using ho
    have key : ∀ j, HasCode lengths j →
        loopBits ((List.range (maxbits + 1)).map (firstCode lengths)) lengths j =
          codeOfBits lengths j := by
      intro j hj
      have hlt : lengths.getD j 0 < maxbits + 1 := Nat.lt_succ_of_le (hm _ hj.length_mem)
      rw [loopBits, codeOfBits, codeOf]
      congr 2
      rw [List.getD_eq_getElem _ _ (by simpa using hlt)]; simp
    have hfind : ∀ bs, Tree.empty.find bs = none := by
      intro bs
      rcases bs with - | ⟨b, bs⟩
      · rfl
      · cases b <;> simp [Tree.empty, Tree.find]
    obtain ⟨h1, h2⟩ := insertCodes_spec lengths 0
      ((List.range (maxbits + 1)).map (firstCode lengths)) Tree.empty
      (fun l hl => by simpa [Nat.lt_succ_iff] using hm l hl)
      (fun j _ cs y hy => by rw [hfind] at hy; cases hy)
      (fun i j hi hj hij => by
        rw [key i hi, key j hj]; exact codes_prefixFree hm ho hi hj hij)
      (fun bs hne hat => absurd (by
        rcases bs with - | ⟨b, bs⟩
        · exact absurd rfl hne
        · cases b <;> cases bs <;> rfl) hat) rfl
    injection hb with hb
    subst hb
    refine ⟨fun bs y => (h1 bs y).trans ⟨?_, ?_⟩, h2⟩
    · rintro (h | ⟨j, hj, rfl, rfl⟩)
      · rw [hfind] at h; cases h
      · rw [Nat.zero_add]; exact ⟨hj, key j hj⟩
    · rintro ⟨hy, rfl⟩
      exact .inr ⟨y, hy, (Nat.zero_add y).symm, (key y hy).symm⟩

theorem build_isNode {lengths : List Nat} {maxbits : Nat} {t : Tree}
    (hb : build lengths maxbits = some t) : t.isNode = true := by
  have gen : ∀ (ls : List Nat) (sym : Nat) (next : List Nat) (t : Tree), t.isNode = true →
      (insertCodes ls sym next t).isNode = true := by
    intro ls
    induction ls with
    | nil => exact fun _ _ _ h => h
    | cons l ls ih =>
      intro sym next t h
      rw [insertCodes]; split
      · exact ih _ _ _ h
      · next hl =>
        exact ih _ _ _ (Tree.isNode_insert h (fun e => hl (by simpa using congrArg List.length e)) _)
  rw [build] at hb
  split at hb
  · cases hb
  · injection hb with hb; subst hb; exact gen _ _ _ _ rfl

/-! ### The node bound -/

theorem Tree.nodes_insert (t : Tree) (bs : List Bool) (sym : Nat) :
    (t.insert bs sym).nodes ≤ t.nodes + bs.length + (if t = .absent then 1 else 0) := by
  induction bs generalizing t with
  | nil => cases t <;> simp [Tree.insert, Tree.nodes]; omega
  | cons b bs ih =>
    have ha := ih .absent
    simp only [Tree.nodes, if_true] at ha
    cases t with
    | absent => cases b <;> simp [Tree.insert, Tree.nodes] <;> omega
    | leaf y => cases b <;> simp [Tree.insert, Tree.nodes] <;> omega
    | node c0 c1 =>
      have h0 := ih c0
      have h1 := ih c1
      cases b
      · cases c0 <;> simp [Tree.insert, Tree.nodes] at h0 ⊢ <;> omega
      · cases c1 <;> simp [Tree.insert, Tree.nodes] at h1 ⊢ <;> omega

theorem insertCodes_nodes (ls : List Nat) (sym : Nat) (next : List Nat) (t : Tree)
    (h : t.isNode = true) : (insertCodes ls sym next t).nodes ≤ t.nodes + ls.sum := by
  induction ls generalizing sym next t with
  | nil => simp [insertCodes]
  | cons l ls ih =>
    rw [insertCodes, List.sum_cons]
    split
    · have := ih (sym + 1) next t h; omega
    · next hl =>
      have hne : codeBits l (next.getD l 0) ≠ [] := fun e => hl (by simpa using congrArg List.length e)
      have h1 := ih (sym + 1) (next.set l (next.getD l 0 + 1))
        (t.insert (codeBits l (next.getD l 0)) sym) (Tree.isNode_insert h hne sym)
      have h2 := t.nodes_insert (codeBits l (next.getD l 0)) sym
      have h3 : t ≠ .absent := by rintro rfl; cases h
      simp only [h3, if_false, codeBits_length, Nat.add_zero] at h2
      dsimp only
      omega

/-! ### The walk -/

/-- The walk where the next bits lead to a leaf (R148). -/
theorem walk_ok {t : Tree} {s : State} {n sym : Nat} (h : s.Readable n)
    (hf : t.find (s.streamBits s.pos n) = some sym) : walk t s = .ok sym (s.atPos (s.pos + n)) := by
  induction n generalizing t s with
  | zero =>
    cases t <;> simp [State.streamBits, Tree.find] at hf
    subst hf; simp [walk, State.atPos_pos]
  | succ n ih =>
    have h1 : s.Readable 1 := h.mono (by omega)
    have h2 : (s.atPos (s.pos + 1)).Readable n := State.Readable.atPos (by rwa [Nat.add_comm])
    cases t with
    | absent => simp at hf
    | leaf y => simp [State.streamBits, Tree.find] at hf
    | node c0 c1 =>
      have e : s.pos + 1 + n = s.pos + (n + 1) := by omega
      simp only [State.streamBits, Tree.find] at hf
      rw [walk, readBit_ok h1, Res.ok_bind]
      split at hf
      · next hb => rw [if_pos hb, ih h2 (by rw [h1.pos_atPos]; simpa using hf), h1.pos_atPos, e]; rfl
      · next hb => rw [if_neg hb, ih h2 (by rw [h1.pos_atPos]; simpa using hf), h1.pos_atPos, e]; rfl

/-- The walk where the next bits lead to an absent child (R149). -/
theorem walk_corrupt {t : Tree} {s : State} {n : Nat} (h : s.Readable n)
    (ha : t.at (s.streamBits s.pos n) = .absent)
    (hl : ∀ m, m ≤ n → t.find (s.streamBits s.pos m) = none) :
    ∃ m, m ≤ n ∧ walk t s = .raise .corrupt (s.atPos (s.pos + m)) := by
  induction n generalizing t s with
  | zero =>
    have : t = .absent := by simpa [State.streamBits] using ha
    subst this
    exact ⟨0, Nat.le_refl _, by simp [walk, State.atPos_pos]⟩
  | succ n ih =>
    have h1 : s.Readable 1 := h.mono (by omega)
    have h2 : (s.atPos (s.pos + 1)).Readable n := State.Readable.atPos (by rwa [Nat.add_comm])
    cases t with
    | absent => exact ⟨0, Nat.zero_le _, by simp [walk, State.atPos_pos]⟩
    | leaf y => simpa [State.streamBits, Tree.find] using hl 0 (Nat.zero_le _)
    | node c0 c1 =>
      simp only [State.streamBits, Tree.at] at ha
      have hl' : ∀ m, m ≤ n → (if s.streamBit s.pos then c1 else c0).find
          (s.streamBits (s.pos + 1) m) = none := by
        intro m hm
        have := hl (m + 1) (by omega)
        simp only [State.streamBits, Tree.find] at this
        split <;> simp_all
      have ha' : (if s.streamBit s.pos then c1 else c0).at (s.streamBits (s.pos + 1) n) = .absent := by
        split <;> simp_all
      obtain ⟨m, hm, hw⟩ := ih (t := if s.streamBit s.pos then c1 else c0) h2
        (by rw [h1.pos_atPos]; simpa using ha')
        (fun m hm => by rw [h1.pos_atPos]; simpa using hl' m hm)
      refine ⟨m + 1, by omega, ?_⟩
      rw [walk, readBit_ok h1, Res.ok_bind, ← apply_ite (fun t => walk t _), hw, h1.pos_atPos,
        Nat.add_assoc, Nat.add_comm 1 m]
      rfl

/-- The walk where the input ends inside a path that holds no leaf (R148). -/
theorem walk_short {t : Tree} {s : State} {n : Nat} (hq : s.Quiet)
    (hn : s.pos + n = 8 * s.inLen.toNat)
    (ha : (t.at (s.streamBits s.pos n)).isNode = true) :
    walk t s = .raise .outOfData (s.setCursor s.inLen 0) := by
  induction n generalizing t s with
  | zero =>
    have ht : t.isNode = true := by simpa [State.streamBits] using ha
    cases t with
    | node c0 c1 =>
      have e : s.pos = 8 * s.inLen.toNat := hn
      rw [walk, readBit_end (by omega), Res.raise_bind, ← State.atPos_inLen_end, ← e,
        State.atPos_pos]
    | leaf y => cases ht
    | absent => cases ht
  | succ n ih =>
    have h1 : s.Readable 1 := ⟨hq, by omega⟩
    cases t with
    | absent => simp [State.streamBits, Tree.at, Tree.isNode] at ha
    | leaf y => simp [State.streamBits, Tree.at, Tree.isNode] at ha
    | node c0 c1 =>
      simp only [State.streamBits, Tree.at] at ha
      have ha' : ((if s.streamBit s.pos then c1 else c0).at
          (s.streamBits (s.pos + 1) n)).isNode = true := by
        split <;> simp_all
      have := ih (t := if s.streamBit s.pos then c1 else c0) (s := s.atPos (s.pos + 1))
        (hq.atPos (by omega)) (by rw [h1.pos_atPos]; simpa using by omega)
        (by rw [h1.pos_atPos]; simpa using ha')
      rw [walk, readBit_ok h1, Res.ok_bind, ← apply_ite (fun t => walk t _), this]
      rfl

/-- Everything the walk can do, from any state: it reads, and from an internal node it reads at least
one bit. -/
theorem walk_sat (t : Tree) (s : State) : (walk t s).sat
    (fun _ u => Forward s u ∧ (t.isNode = true → Ahead s u))
    (fun k u => (k = .outOfData ∨ k = .corrupt) ∧ Forward s u) (s.params.inMemSize < s.inLen) := by
  induction t generalizing s with
  | absent => exact ⟨.inr rfl, Forward.refl s⟩
  | leaf y => exact ⟨Forward.refl s, fun h => by cases h⟩
  | node c0 c1 ih0 ih1 =>
    rw [walk]
    refine Res.sat_bind (Res.sat_mono (readBit_sat s) (fun _ _ h => h)
      (fun k u hu => ⟨.inl hu.1, hu.2⟩) id) fun b u ⟨hu, ha, _⟩ => ?_
    have key : ∀ t : Tree, (walk t u).sat
        (fun _ v => Forward u v ∧ (t.isNode = true → Ahead u v))
        (fun k v => (k = .outOfData ∨ k = .corrupt) ∧ Forward u v) (u.params.inMemSize < u.inLen) →
        (walk t u).sat (fun _ v => Forward s v ∧ ((Tree.node c0 c1).isNode = true → Ahead s v))
          (fun k v => (k = .outOfData ∨ k = .corrupt) ∧ Forward s v)
          (s.params.inMemSize < s.inLen) := by
      intro t ht
      rw [hu.1.params_eq, hu.1.inLen_eq] at ht
      exact Res.sat_mono ht
        (fun _ v ⟨hv, _⟩ => ⟨hu.trans hv, fun _ => ha.trans_onward hv.2⟩)
        (fun k v ⟨hk, hv⟩ => ⟨hk, hu.trans hv⟩) id
    split
    · exact key c1 (ih1 u)
    · exact key c0 (ih0 u)

end Sys2Proof.Machine
end

