-- ==== Sys2Proof/Laws/Memory.lean ====
section
/-! SUPPORT. The laws of the byte memories: a read after a write, other bytes alone, and the
canonical form, in which equal contents are equal data. -/

namespace Sys2Proof.Machine

@[simp] theorem Memory.get_nil (a : Nat) : Memory.get [] a = none := rfl

@[simp] theorem Memory.get_set_same (m : Memory) (a : Nat) (b : Byte) :
    (m.set a b).get a = some b := by
  induction m with
  | nil => simp [Memory.set, Memory.get]
  | cons c m ih =>
    simp only [Memory.set]
    split
    · simp [Memory.get]
    · split
      · simp [Memory.get]
      · next h1 h2 => simp [Memory.get, ih, Ne.symm h2]

theorem Memory.get_set_other (m : Memory) {a a' : Nat} (b : Byte) (h : a' ≠ a) :
    (m.set a b).get a' = m.get a' := by
  induction m with
  | nil => simp [Memory.set, Memory.get, Ne.symm h]
  | cons c m ih =>
    simp only [Memory.set]
    split
    · simp [Memory.get, Ne.symm h]
    · split
      · next h2 => subst h2; simp [Memory.get, Ne.symm h]
      · simp [Memory.get, ih]

theorem Memory.get_set (m : Memory) (a a' : Nat) (b : Byte) :
    (m.set a b).get a' = if a' = a then some b else m.get a' := by
  by_cases h : a' = a
  · subst h; simp
  · simp [h, Memory.get_set_other m b h]

theorem Memory.nil_wf : Memory.wf [] := List.Pairwise.nil

theorem Memory.mem_set {m : Memory} {a : Nat} {b : Byte} {c : Host.Cell} (h : c ∈ m.set a b) :
    c = (a, b) ∨ c ∈ m := by
  induction m with
  | nil => simpa [Memory.set] using h
  | cons d m ih =>
    simp only [Memory.set] at h
    split at h
    · simpa using h
    · split at h
      · rcases List.mem_cons.1 h with h | h
        · exact .inl h
        · exact .inr (List.mem_cons_of_mem _ h)
      · rcases List.mem_cons.1 h with h | h
        · exact .inr (h ▸ List.mem_cons_self)
        · exact (ih h).imp id (List.mem_cons_of_mem _)

/-- A write keeps the canonical form. -/
theorem Memory.set_wf {m : Memory} (h : m.wf) (a : Nat) (b : Byte) : (m.set a b).wf := by
  induction m with
  | nil => simp [Memory.set, Memory.wf]
  | cons c m ih =>
    have hc := List.pairwise_cons.1 h
    simp only [Memory.set]
    split
    · next h1 =>
      refine List.pairwise_cons.2 ⟨fun d hd => ?_, h⟩
      rcases List.mem_cons.1 hd with rfl | hd
      · exact h1
      · exact Nat.lt_trans h1 (hc.1 d hd)
    · split
      · next h2 => exact List.pairwise_cons.2 ⟨fun d hd => h2 ▸ hc.1 d hd, hc.2⟩
      · next h1 h2 =>
        refine List.pairwise_cons.2 ⟨fun d hd => ?_, ih hc.2⟩
        rcases Memory.mem_set hd with rfl | hd
        · exact Nat.lt_of_le_of_ne (Nat.le_of_not_lt h1) (Ne.symm h2)
        · exact hc.1 d hd

theorem Memory.get_eq_none_of_lt {m : Memory} {a : Nat} (h : ∀ c ∈ m, a < c.1) :
    m.get a = none := by
  induction m with
  | nil => rfl
  | cons c m ih =>
    have h1 := h c List.mem_cons_self
    simp [Memory.get, Nat.ne_of_gt h1, ih fun d hd => h d (List.mem_cons_of_mem _ hd)]

/-- In canonical form, memories that read alike are equal. -/
theorem Memory.ext_of_wf {m m' : Memory} (h : m.wf) (h' : m'.wf)
    (hg : ∀ a, m.get a = m'.get a) : m = m' := by
  induction m generalizing m' with
  | nil =>
    cases m' with
    | nil => rfl
    | cons c m' => simpa [Memory.get] using hg c.1
  | cons c m ih =>
    cases m' with
    | nil => simpa [Memory.get] using hg c.1
    | cons c' m' =>
      have hc := List.pairwise_cons.1 h
      have hc' := List.pairwise_cons.1 h'
      have key : c = c' := by
        rcases Nat.lt_trichotomy c.1 c'.1 with hlt | heq | hgt
        · have h1 := hg c.1
          rw [Memory.get_eq_none_of_lt (m := c' :: m')] at h1
          · simp [Memory.get] at h1
          · intro d hd
            rcases List.mem_cons.1 hd with rfl | hd
            · exact hlt
            · exact Nat.lt_trans hlt (hc'.1 d hd)
        · have h1 := hg c.1
          simp only [Memory.get, heq, if_true] at h1
          exact Prod.ext heq (Option.some.inj h1)
        · have h1 := hg c'.1
          rw [Memory.get_eq_none_of_lt (m := c :: m)] at h1
          · simp [Memory.get] at h1
          · intro d hd
            rcases List.mem_cons.1 hd with rfl | hd
            · exact hgt
            · exact Nat.lt_trans hgt (hc.1 d hd)
      subst key
      refine congrArg (c :: ·) (ih hc.2 hc'.2 fun a => ?_)
      by_cases ha : c.1 = a
      · subst ha
        rw [Memory.get_eq_none_of_lt hc.1, Memory.get_eq_none_of_lt hc'.1]
      · simpa [Memory.get, ha] using hg a

end Sys2Proof.Machine
end

