-- ==== Sys2Proof/Laws/Output.lean ====
section
/-! SUPPORT. The output buffer and the backward copy (48_output_buffer.md, R204): what is written
where, that the canonical form is kept, and everything each operation can do from any state. -/

namespace Sys2Proof.Machine

variable {s t : State}

/-! ### Results -/

/-- `Append` with room left (R350). -/
theorem append_ok (b : Byte) (hc : s.outCap ≤ s.params.outMemSize) (h : s.outLen < s.outCap) :
    append b s = .ok ()
      ((s.setOutMem (s.outMem.set s.outLen.toNat b)).setOutLen (s.outLen + 1)) := by
  have h1 : ¬ s.outCap ≤ s.outLen := by simpa [BitVec.le_def, BitVec.lt_def] using h
  have h2 : ¬ s.params.outMemSize.toNat ≤ s.outLen.toNat := by
    simp only [BitVec.le_def, BitVec.lt_def] at *; omega
  simp [append, h1, emit, writeOut, h2]

/-- `Append` on a full output (R350). -/
theorem append_full (b : Byte) (h : s.outCap ≤ s.outLen) :
    append b s = .raise .outOfMemory s := by simp [append, h]

/-- One byte emitted where the memory has room (R204). -/
theorem emit_ok (b : Byte) (h : s.outLen.toNat < s.params.outMemSize.toNat) :
    emit b s = .ok ()
      ((s.setOutMem (s.outMem.set s.outLen.toNat b)).setOutLen (s.outLen + 1)) := by
  simp [emit, writeOut, Nat.not_le.2 h]

/-- A read of a byte that has a value and is not raced (R10). -/
theorem readOut_ok {a : Nat} {b : Byte} (hr : s.outRace = [])
    (ha : a < s.params.outMemSize.toNat) (hb : s.outMem.get a = some b) :
    readOut a s = .ok b s := by
  simp [readOut, Nat.not_le.2 ha, hb, hr, raceAt, drawByte]

theorem CopiedMem.succ {m0 m : Memory} {b : Byte} {start len dist : Nat} (hd : 1 ≤ dist)
    (hs : dist ≤ start) (hb : m0.get (start - dist) = some b)
    (h : CopiedMem (m0.set start b) m (start + 1) len dist) : CopiedMem m0 m start (len + 1) dist := by
  refine ⟨fun k hk => ?_, fun a ha => ?_⟩
  · cases k with
    | zero =>
      rw [Nat.zero_mod, Nat.add_zero, Nat.add_zero, hb, h.2 start (.inl (by omega)),
        Memory.get_set_same]
    | succ k =>
      have hk' := h.1 k (by omega)
      rw [show start + (k + 1) = start + 1 + k by omega, hk']
      have hlt : k % dist < dist := Nat.mod_lt _ (by omega)
      have hmod : (k + 1) % dist = if k % dist + 1 = dist then 0 else k % dist + 1 := by
        split
        · next e =>
          have hdm := Nat.div_add_mod k dist
          rw [show k + 1 = dist * (k / dist + 1) by rw [Nat.mul_add]; omega, Nat.mul_mod_right]
        · next e =>
          rw [Nat.add_mod, Nat.mod_eq_of_lt (a := 1) (by omega), Nat.mod_eq_of_lt (by omega)]
      rw [hmod]
      split
      · next e =>
        rw [show start + 1 - dist + k % dist = start by omega, Memory.get_set_same]
        simp [hb]
      · next e =>
        rw [Memory.get_set_other _ _ (by omega)]
        congr 1; omega
  · rw [h.2 a (by omega), Memory.get_set_other _ _ (by omega)]

/-- `Copy` (R204): byte `k` is the output byte `start + (k mod dist)`; the copy cannot fail. -/
theorem copy_ok {len dist : Nat} (hr : s.outRace = []) (hd : 1 ≤ dist)
    (hs : dist ≤ s.outLen.toNat) (hl : s.outLen.toNat + len ≤ s.params.outMemSize.toNat)
    (hv : s.Defined s.outLen.toNat dist) :
    ∃ m : Memory, copy len dist s =
        .ok () ((s.setOutMem m).setOutLen (BitVec.ofNat 32 (s.outLen.toNat + len))) ∧
      CopiedMem s.outMem m s.outLen.toNat len dist := by
  induction len generalizing s with
  | zero =>
    refine ⟨s.outMem, ?_, fun k hk => by omega, fun a _ => rfl⟩
    simp [copy, State.setOutMem, State.setOutLen]
  | succ len ih =>
    obtain ⟨b, hb⟩ := Option.isSome_iff_exists.1 (hv (s.outLen.toNat - dist) (by omega) (by omega))
    have hn : (s.outLen + 1).toNat = s.outLen.toNat + 1 := by
      rw [BitVec.toNat_add]; simp; omega
    let s1 := (s.setOutMem (s.outMem.set s.outLen.toNat b)).setOutLen (s.outLen + 1)
    have h1 : s1.outLen.toNat = s.outLen.toNat + 1 := hn
    obtain ⟨m, hm, hc⟩ := ih (s := s1) hr (by rw [h1]; omega)
      (by rw [h1]; change _ ≤ s.params.outMemSize.toNat; omega) (by
        intro a h2 h3
        change ((s.outMem.set s.outLen.toNat b).get a).isSome = true
        rw [Memory.get_set]
        split
        · rfl
        · exact hv a (by omega) (by omega))
    refine ⟨m, ?_, ?_⟩
    · rw [copy, readOut_ok hr (by omega) hb, Res.ok_bind, emit_ok b (by omega), Res.ok_bind]
      change copy len dist s1 = _
      rw [hm, h1, Nat.add_right_comm]; rfl
    · rw [h1] at hc
      exact CopiedMem.succ hd hs hb hc

/-! ### Everything the operations can do -/

/-- The output has grown: bytes were written from the old `OUT_LEN` to the new one and nowhere else,
and beside that only the cursor and the count of draws changed. -/
structure Grows (s t : State) : Prop where
  only : ∃ bp bo d m n, t = ((((s.setCursor bp bo).setDrawIdx d).setOutMem m).setOutLen n)
  le : s.outLen.toNat ≤ t.outLen.toNat
  outside : OutSameOutside s.outLen.toNat t.outLen.toNat s t
  wf : s.outMem.wf → t.outMem.wf
  filled : ∀ a, s.outLen.toNat ≤ a → a < t.outLen.toNat → (t.outMem.get a).isSome = true

theorem Grows.refl (s : State) : Grows s s :=
  ⟨⟨s.bytePos, s.bitOff, s.drawIdx, s.outMem, s.outLen, rfl⟩, Nat.le_refl _, fun _ _ => rfl, id,
    fun a h1 h2 => by omega⟩

theorem Grows.trans {u : State} (h : Grows s t) (h' : Grows t u) : Grows s u where
  only := by
    obtain ⟨_, _, _, _, _, rfl⟩ := h.only
    obtain ⟨b, o, d, m, n, rfl⟩ := h'.only
    exact ⟨b, o, d, m, n, rfl⟩
  le := Nat.le_trans h.le h'.le
  outside a ha := by
    have := h.le; have := h'.le
    rw [h'.outside a (by omega), h.outside a (by omega)]
  wf hw := h'.wf (h.wf hw)
  filled a h1 h2 := by
    rcases Nat.lt_or_ge a t.outLen.toNat with h3 | h3
    · rw [h'.outside a (.inl h3)]; exact h.filled a h1 h3
    · exact h'.filled a h3 h2

theorem Grows.of_cursorOnly (h : CursorOnly s t) : Grows s t := by
  obtain ⟨b, o, d, rfl⟩ := h
  exact ⟨⟨b, o, d, s.outMem, s.outLen, rfl⟩, Nat.le_refl _, fun _ _ => rfl, id,
    fun a h1 h2 => absurd h1 (Nat.not_le.2 h2)⟩

theorem Grows.inLen_eq (h : Grows s t) : t.inLen = s.inLen := by
  obtain ⟨_, _, _, _, _, rfl⟩ := h.only; rfl

theorem Grows.outCap_eq (h : Grows s t) : t.outCap = s.outCap := by
  obtain ⟨_, _, _, _, _, rfl⟩ := h.only; rfl

theorem Grows.params_eq (h : Grows s t) : t.params = s.params := by
  obtain ⟨_, _, _, _, _, rfl⟩ := h.only; rfl

/-- The read of an output byte changes nothing but the count of draws, and raises no error. -/
theorem readOut_sat (a : Nat) (s : State) : (readOut a s).sat (fun _ t => ∃ d, t = s.setDrawIdx d)
    (fun _ _ => False) (s.params.outMemSize.toNat ≤ a) := by
  unfold readOut
  split
  · next h => exact h
  · split
    · unfold drawByte
      split
      · exact ⟨s.drawIdx, rfl⟩
      · exact ⟨_, rfl⟩
    · exact ⟨_, rfl⟩

/-- `emit` writes the byte at `OUT_LEN` and counts it; it raises no error. -/
theorem emit_sat (b : Byte) (s : State) : (emit b s).sat
    (fun _ t => Grows s t ∧ t.pos = s.pos ∧ t.outLen.toNat = s.outLen.toNat + 1)
    (fun _ _ => False) (s.params.outMemSize.toNat ≤ s.outLen.toNat) := by
  rcases Nat.lt_or_ge s.outLen.toNat s.params.outMemSize.toNat with h | h
  · rw [emit_ok b h]
    have hn : (s.outLen + 1).toNat = s.outLen.toNat + 1 := by
      rw [BitVec.toNat_add]; simp; omega
    refine ⟨⟨⟨s.bytePos, s.bitOff, s.drawIdx, _, _, rfl⟩, ?_, ?_, ?_, ?_⟩, rfl, hn⟩
    · change _ ≤ (s.outLen + 1).toNat; omega
    · intro a ha
      change a < s.outLen.toNat ∨ (s.outLen + 1).toNat ≤ a at ha
      exact Memory.get_set_other _ _ (by omega)
    · exact fun hw => Memory.set_wf hw _ _
    · intro a h1 h2
      change a < (s.outLen + 1).toNat at h2
      change ((s.outMem.set s.outLen.toNat b).get a).isSome = true
      rw [show a = s.outLen.toNat by omega, Memory.get_set_same]; rfl
  · simp [emit, writeOut, h]

/-- `Append` (R350): one byte more, or OutOfMemory with nothing changed. -/
theorem append_sat (b : Byte) (s : State) : (append b s).sat
    (fun _ t => Grows s t ∧ t.pos = s.pos ∧ t.outLen.toNat = s.outLen.toNat + 1 ∧ t.outLen ≤ t.outCap)
    (fun k t => k = .outOfMemory ∧ t = s) (s.params.outMemSize < s.outCap) := by
  unfold append
  split
  · exact ⟨rfl, rfl⟩
  · next h =>
    have hlt : s.outLen.toNat < s.outCap.toNat := by simpa [BitVec.le_def] using h
    refine Res.sat_mono (emit_sat b s) (fun _ t ⟨h1, h2, h3⟩ => ⟨h1, h2, h3, ?_⟩)
      (fun _ _ h => h.elim) (fun h => ?_)
    · rw [BitVec.le_def, h1.outCap_eq]; omega
    · rw [BitVec.lt_def]; omega

/-- `Copy` (R204) writes `len` bytes and counts them; it raises no error, and stops only where it
leaves the memory. -/
theorem copy_sat (len dist : Nat) (s : State) : (copy len dist s).sat
    (fun _ t => Grows s t ∧ t.pos = s.pos ∧ t.outLen.toNat = s.outLen.toNat + len)
    (fun _ _ => False)
    (s.params.outMemSize.toNat < s.outLen.toNat + len ∨ (dist = 0 ∧ len ≠ 0)) := by
  induction len generalizing s with
  | zero => exact ⟨Grows.refl s, rfl, rfl⟩
  | succ len ih =>
    refine Res.sat_bind (P := fun _ t => ∃ d, t = s.setDrawIdx d)
      (Res.sat_mono (readOut_sat _ s) (fun _ _ h => h) (fun _ _ h => h.elim) (fun h => ?_)) ?_
    · by_cases hd : dist = 0
      · exact .inr ⟨hd, by omega⟩
      · left; omega
    · rintro b _ ⟨d, rfl⟩
      have h0 : Grows s (s.setDrawIdx d) := Grows.of_cursorOnly (CursorOnly.setDrawIdx s d)
      refine Res.sat_bind (Res.sat_mono (emit_sat b (s.setDrawIdx d)) (fun _ _ h => h)
        (fun _ _ h => h.elim) (fun h => .inl ?_)) ?_
      · change s.params.outMemSize.toNat ≤ s.outLen.toNat at h; omega
      · rintro - u ⟨hu, hp, hl⟩
        have hl' : u.outLen.toNat = s.outLen.toNat + 1 := hl
        have hpar : u.params = s.params := hu.params_eq
        refine Res.sat_mono (ih u) (fun _ v ⟨h1, h2, h3⟩ => ?_) (fun _ _ h => h.elim) (fun h => ?_)
        · exact ⟨(h0.trans hu).trans h1, h2.trans hp, by omega⟩
        · rw [hpar] at h
          rcases h with h | ⟨h, h'⟩
          · left; omega
          · exact .inr ⟨h, by omega⟩

end Sys2Proof.Machine
end

