-- ==== Sys2Proof/Laws/Lz.lean ====
section
/-! SUPPORT. The length and distance instructions (45_lz77.md): which shared operation each meaning
is, the operands' values, the copy, and everything each operation can do from any state. -/

namespace Sys2Proof.Machine

variable {s t : State}

/-! ### Which operation a meaning is -/

theorem exec_lenInstr {idx : Nat} {i : Instr} (h : lenInstrs[idx]? = some i) (s : State) :
    exec i s = (lenInstr (257 + idx) s).finish := by
  have hlt : idx < 29 := (List.getElem?_eq_some_iff.1 h).1
  interval_cases idx <;> (cases h; rfl)

theorem exec_distInstr {ds : Nat} {i : Instr} (h : distInstrs[ds]? = some i) (s : State) :
    exec i s = (distAndCopy ds s).finish := by
  have hlt : ds < 30 := (List.getElem?_eq_some_iff.1 h).1
  interval_cases ds <;> (cases h; rfl)

theorem lenInstrs_getElem? {i : Instr} (h : i ∈ lenInstrs) : ∃ idx : Nat, lenInstrs[idx]? = some i :=
  List.mem_iff_getElem?.1 h

theorem distInstrs_getElem? {i : Instr} (h : i ∈ distInstrs) :
    ∃ ds : Nat, distInstrs[ds]? = some i := List.mem_iff_getElem?.1 h

/-! ### The tables' ranges (R270) -/

theorem lextAt_le (idx : Nat) : lextAt idx ≤ 5 := by
  rcases Nat.lt_or_ge idx 29 with h | h
  · interval_cases idx <;> decide
  · simp [lextAt, lext, List.getD_eq_getElem?_getD, List.getElem?_eq_none (show
      [0, 0, 0, 0, 0, 0, 0, 0, 1, 1, 1, 1, 2, 2, 2, 2, 3, 3, 3, 3, 4, 4, 4, 4, 5, 5, 5, 5, 0].length ≤
        idx from h)]

theorem dextAt_le (ds : Nat) : dextAt ds ≤ 13 := by
  rcases Nat.lt_or_ge ds 30 with h | h
  · interval_cases ds <;> decide
  · simp [dextAt, dext, List.getD_eq_getElem?_getD, List.getElem?_eq_none (show
      [0, 0, 0, 0, 1, 1, 2, 2, 3, 3, 4, 4, 5, 5, 6, 6, 7, 7, 8, 8, 9, 9, 10, 10, 11, 11, 12, 12, 13,
        13].length ≤ ds from h)]

theorem lbaseAt_range {idx : Nat} (h : idx < 29) :
    3 ≤ lbaseAt idx ∧ lbaseAt idx + 2 ^ lextAt idx ≤ 259 := by
  interval_cases idx <;> decide

theorem dbaseAt_range {ds : Nat} (h : ds < 30) :
    1 ≤ dbaseAt ds ∧ dbaseAt ds + 2 ^ dextAt ds ≤ 32769 := by
  interval_cases ds <;> decide

theorem State.lenAt_range (s : State) {idx : Nat} (h : idx < 29) :
    3 ≤ s.lenAt idx ∧ s.lenAt idx ≤ 258 := by
  have h1 := lbaseAt_range h
  have h2 := s.streamField_lt s.pos (lextAt idx)
  unfold State.lenAt; omega

theorem State.distAt_range (s : State) {ds : Nat} (h : ds < 30) (k : Nat) :
    1 ≤ s.distAt ds k ∧ s.distAt ds k ≤ 32768 := by
  have h1 := dbaseAt_range h
  have h2 := s.streamField_lt k (dextAt ds)
  unfold State.distAt; omega

/-! ### Results -/

theorem lengthOperand_ok {idx : Nat} (h : s.Readable (lextAt idx)) :
    lengthOperand (257 + idx) s = .ok (s.lenAt idx) (s.atPos (s.pos + lextAt idx)) := by
  have := lextAt_le idx
  rw [lengthOperand, Nat.add_sub_cancel_left]
  exact readPlus_ok _ (by omega) h

theorem distOperand_ok {ds : Nat} (h : s.Readable (dextAt ds)) :
    distOperand ds s = .ok (s.distAt ds s.pos) (s.atPos (s.pos + dextAt ds)) := by
  have := dextAt_le ds
  exact readPlus_ok _ (by omega) h

/-- There is no limit but the output so far (R205, D14). -/
@[simp] theorem distTooFar_eq (dist : Nat) (s : State) :
    distTooFar dist s = decide (s.outLen.toNat < dist) := by simp [distTooFar, Config.windowLimit]

/-- A distance instruction that reaches within the output (R203, R205). -/
theorem distInstr_ok {ds : Nat} (h : s.Readable (dextAt ds))
    (hd : s.distAt ds s.pos ≤ s.outLen.toNat) :
    distInstr ds s = .ok () ((s.atPos (s.pos + dextAt ds)).setDistOp
      (some (BitVec.ofNat 16 (s.distAt ds s.pos)))) := by
  simp [distInstr, distOperand_ok h, Nat.not_lt.2 hd]

/-- The end of a length instruction that fits (R203, R204, R206). -/
theorem completeLen_ok {len : BitVec 9} {dist : BitVec 16} (hl : s.lenOp = some len)
    (hd : s.distOp = some dist) (hr : s.outRace = []) (h1 : 1 ≤ dist.toNat)
    (h2 : dist.toNat ≤ s.outLen.toNat) (h3 : s.outLen.toNat + len.toNat ≤ s.outCap.toNat)
    (h4 : s.outCap.toNat ≤ s.params.outMemSize.toNat) (h5 : s.Defined s.outLen.toNat dist.toNat) :
    ∃ m : Memory, completeLen s = .ok () ((((s.setOutMem m).setOutLen
        (BitVec.ofNat 32 (s.outLen.toNat + len.toNat))).setLenOp none).setDistOp none) ∧
      CopiedMem s.outMem m s.outLen.toNat len.toNat dist.toNat := by
  obtain ⟨m, hm, hc⟩ := copy_ok (len := len.toNat) hr h1 h2 (by omega) h5
  exact ⟨m, by simp [completeLen, hl, hd, Nat.not_lt.2 h3, hm], hc⟩

/-- A distance instruction that completes the length instruction it stands in (R203). -/
theorem distAndCopy_ok {ds : Nat} {len : BitVec 9} (hds : ds < 30) (hl : s.lenOp = some len)
    (h : s.Readable (dextAt ds)) (hd : s.distAt ds s.pos ≤ s.outLen.toNat)
    (hf : s.outLen.toNat + len.toNat ≤ s.outCap.toNat)
    (hv : s.Defined s.outLen.toNat (s.distAt ds s.pos)) :
    ∃ m : Memory, distAndCopy ds s = .ok () (((((s.atPos (s.pos + dextAt ds)).setOutMem m).setOutLen
        (BitVec.ofNat 32 (s.outLen.toNat + len.toNat))).setLenOp none).setDistOp none) ∧
      CopiedMem s.outMem m s.outLen.toNat len.toNat (s.distAt ds s.pos) := by
  have hr := s.distAt_range hds s.pos
  have e : (BitVec.ofNat 16 (s.distAt ds s.pos)).toNat = s.distAt ds s.pos := by
    simp only [BitVec.toNat_ofNat]; omega
  have hc := completeLen_ok
    (s := (s.atPos (s.pos + dextAt ds)).setDistOp (some (BitVec.ofNat 16 (s.distAt ds s.pos))))
    hl rfl h.1.outRace (by rw [e]; exact hr.1) (by rw [e]; exact hd) hf h.1.outCap_le
    (by rw [e]; exact hv)
  obtain ⟨m, hm, hc⟩ := hc
  rw [e] at hc
  refine ⟨m, ?_, hc⟩
  rw [distAndCopy, distSym, if_neg (by omega), distInstr_ok h hd, Res.ok_bind, hm]
  rfl

/-- A length instruction, its operands legal and its copy within the capacity (R203). -/
theorem lenInstr_ok {idx n ds : Nat} (hi : idx < 29) (h : s.LenReads idx n ds)
    (hd : s.distAt ds (s.pos + lextAt idx + n) ≤ s.outLen.toNat)
    (hf : s.outLen.toNat + s.lenAt idx ≤ s.outCap.toNat)
    (hv : s.Defined s.outLen.toNat (s.distAt ds (s.pos + lextAt idx + n))) :
    ∃ m : Memory, lenInstr (257 + idx) s = .ok ()
        (((((s.atPos (s.pos + lextAt idx + n + dextAt ds)).setOutMem m).setOutLen
          (BitVec.ofNat 32 (s.outLen.toNat + s.lenAt idx))).setLenOp none).setDistOp none) ∧
      CopiedMem s.outMem m s.outLen.toNat (s.lenAt idx)
        (s.distAt ds (s.pos + lextAt idx + n)) := by
  have hr := h.readable
  have h1 : s.Readable (lextAt idx) := hr.mono (by omega)
  have hl := s.lenAt_range hi
  have e : (BitVec.ofNat 9 (s.lenAt idx)).toNat = s.lenAt idx := by
    simp only [BitVec.toNat_ofNat]; omega
  let s1 := (s.atPos (s.pos + lextAt idx)).setLenOp (some (BitVec.ofNat 9 (s.lenAt idx)))
  have hp1 : s1.pos = s.pos + lextAt idx := h1.pos_atPos
  have hb : ∀ k n, s1.streamBits k n = s.streamBits k n :=
    State.streamBits_congr (fun _ => rfl)
  have hfd : ∀ k n, s1.streamField k n = s.streamField k n :=
    State.streamField_congr (fun _ => rfl)
  have hr1 : s1.Readable (n + dextAt ds) :=
    State.Readable.atPos (s := s) (by rwa [← Nat.add_assoc])
  have hw := walk_ok (t := s.treeD) (hr1.mono (Nat.le_add_right n _)) (sym := ds)
    (by rw [hp1, hb]; exact h.code)
  let s2 := s1.atPos (s1.pos + n)
  have hp2 : s2.pos = s.pos + lextAt idx + n := by
    rw [(hr1.mono (Nat.le_add_right n _)).pos_atPos, hp1]
  have hr2 : s2.Readable (dextAt ds) := hr1.atPos
  have hf2 : ∀ k n, s2.streamField k n = s.streamField k n :=
    State.streamField_congr (fun _ => rfl)
  have hdist : s2.distAt ds s2.pos = s.distAt ds (s.pos + lextAt idx + n) := by
    rw [hp2, State.distAt, hf2]; rfl
  obtain ⟨m, hm, hc⟩ := distAndCopy_ok (s := s2) h.valid rfl hr2 (by rw [hdist]; exact hd)
    (by rw [e]; exact hf) (by rw [hdist]; exact hv)
  refine ⟨m, ?_, ?_⟩
  · rw [lenInstr, lenHead, lengthOperand_ok h1, Res.ok_bind]
    change ((walk s.treeD s1).bind _) = _
    rw [hw, Res.ok_bind]
    change distAndCopy ds s2 = _
    rw [hm, hp2, e]
    rfl
  · rw [hdist, e] at hc; exact hc

/-! ### Everything the operations can do -/

/-- A distance instruction (R203, R205): it delivers a distance that reaches back within the output. -/
theorem distSym_sat (ds : Nat) (s : State) : (distSym ds s).sat
    (fun _ t => ∃ (u : State) (d : BitVec 16), Forward s u ∧ t = u.setDistOp (some d) ∧
      1 ≤ d.toNat ∧ d.toNat ≤ s.outLen.toNat)
    (fun _ t => Forward s t) (s.params.inMemSize < s.inLen) := by
  unfold distSym
  split
  · exact Forward.refl s
  · next hds =>
    have hr := dbaseAt_range (ds := ds) (by omega)
    have hx := dextAt_le ds
    refine Res.sat_bind (Res.sat_mono (readPlus_sat (dbaseAt ds) (n := dextAt ds) (by omega) s)
      (fun _ _ h => h) (fun _ _ h => h.2) id) fun d u ⟨hu, _, h1, h2⟩ => ?_
    rw [distTooFar_eq]
    split
    · exact hu
    · next hd =>
      rw [decide_eq_true_eq] at hd
      have ho : u.outLen = s.outLen := by obtain ⟨⟨_, _, _, rfl⟩, _⟩ := hu; rfl
      have e : (BitVec.ofNat 16 d).toNat = d := by simp only [BitVec.toNat_ofNat]; omega
      exact ⟨u, _, hu, rfl, by rw [e]; omega, by rw [e, ← ho]; omega⟩

/-- The end of a length instruction: nothing without both operands; otherwise OutOfMemory with
nothing written, or the copy with both operands gone. It stops only where `OUT_CAP` exceeds the
memory. -/
theorem completeLen_sat (s : State) (hd : ∀ d, s.distOp = some d → 1 ≤ d.toNat) :
    (completeLen s).sat
      (fun _ t => (t = s ∧ (s.lenOp = none ∨ s.distOp = none)) ∨
        ∃ u, Grows s u ∧ u.pos = s.pos ∧ u.outLen ≤ u.outCap ∧ t = (u.setLenOp none).setDistOp none)
      (fun k t => k = .outOfMemory ∧ t = s) (s.params.outMemSize < s.outCap) := by
  unfold completeLen
  split
  · next len dist hl hdist =>
    have h1 := hd dist hdist
    split
    · exact ⟨rfl, rfl⟩
    · next hf =>
      refine Res.sat_bind (Res.sat_mono (copy_sat len.toNat dist.toNat s) (fun _ _ h => h)
        (fun _ _ h => h.elim) (fun h => ?_)) fun _ u ⟨h1, h2, h3⟩ => .inr ⟨u, h1, h2, ?_, rfl⟩
      · rw [BitVec.lt_def]; omega
      · rw [BitVec.le_def, h1.outCap_eq]; omega
  · next hn =>
    refine .inl ⟨rfl, ?_⟩
    cases hl : s.lenOp with
    | none => exact .inl rfl
    | some l =>
      cases hd : s.distOp with
      | none => exact .inr rfl
      | some d => exact absurd hd (hn l d hl)

/-! The operands in flight do not take part in the reads or in the copy. -/

theorem Forward.dropLenOp {u v : State} {l : Option (BitVec 9)} (h : Forward (u.setLenOp l) v) :
    Forward u (v.setLenOp u.lenOp) := by
  obtain ⟨⟨b, o, d, rfl⟩, h1⟩ := h
  exact ⟨⟨b, o, d, rfl⟩, h1⟩

theorem Grows.dropLenOp {u v : State} {l : Option (BitVec 9)} (h : Grows (u.setLenOp l) v) :
    Grows u (v.setLenOp u.lenOp) := by
  obtain ⟨⟨b, o, d, m, n, rfl⟩, h1, h2, h3, h4⟩ := h
  exact ⟨⟨b, o, d, m, n, rfl⟩, h1, h2, h3, h4⟩

theorem Grows.dropDistOp {u v : State} {l : Option (BitVec 16)} (h : Grows (u.setDistOp l) v) :
    Grows u (v.setDistOp u.distOp) := by
  obtain ⟨⟨b, o, d, m, n, rfl⟩, h1, h2, h3, h4⟩ := h
  exact ⟨⟨b, o, d, m, n, rfl⟩, h1, h2, h3, h4⟩

theorem Forward.lenOp_eq (h : Forward s t) : t.lenOp = s.lenOp := by
  obtain ⟨⟨_, _, _, rfl⟩, _⟩ := h; rfl

theorem Forward.distOp_eq (h : Forward s t) : t.distOp = s.distOp := by
  obtain ⟨⟨_, _, _, rfl⟩, _⟩ := h; rfl

theorem Forward.outLen_eq (h : Forward s t) : t.outLen = s.outLen := by
  obtain ⟨⟨_, _, _, rfl⟩, _⟩ := h; rfl

theorem Forward.outCap_eq (h : Forward s t) : t.outCap = s.outCap := by
  obtain ⟨⟨_, _, _, rfl⟩, _⟩ := h; rfl

/-- The copy of a length instruction was made: the output grew, the cursor stayed within the input,
and no operand is in flight any more (R203). -/
def CopyDone (s t : State) : Prop :=
  ∃ u, Grows s u ∧ Onward s u ∧ u.outLen ≤ u.outCap ∧ t = (u.setLenOp none).setDistOp none

theorem CopyDone.after_forward {u : State} (h : Forward s u) (h' : CopyDone u t) : CopyDone s t := by
  obtain ⟨v, h1, h2, h3, rfl⟩ := h'
  exact ⟨v, (Grows.of_cursorOnly h.1).trans h1, h.2.trans h2, h3, rfl⟩

theorem CopyDone.dropLenOp {l : Option (BitVec 9)} (h : CopyDone (s.setLenOp l) t) :
    CopyDone s t := by
  obtain ⟨v, h1, h2, h3, rfl⟩ := h
  exact ⟨v.setLenOp s.lenOp, h1.dropLenOp, h2, h3, rfl⟩

/-- `t` is `s` but for a read forward and the operands in flight. -/
def OperandsRead (s t : State) : Prop :=
  ∃ u l o, Forward s u ∧ t = (u.setLenOp l).setDistOp o

theorem OperandsRead.of_forward (h : Forward s t) : OperandsRead s t :=
  ⟨t, t.lenOp, t.distOp, h, rfl⟩

theorem OperandsRead.after_forward {u : State} (h : Forward s u) (h' : OperandsRead u t) :
    OperandsRead s t := by
  obtain ⟨v, l, o, h1, rfl⟩ := h'
  exact ⟨v, l, o, h.trans h1, rfl⟩

theorem OperandsRead.dropLenOp {l : Option (BitVec 9)} (h : OperandsRead (s.setLenOp l) t) :
    OperandsRead s t := by
  obtain ⟨v, l', o, h1, rfl⟩ := h
  exact ⟨v.setLenOp s.lenOp, l', o, h1.dropLenOp, rfl⟩

/-- A distance instruction from any state: it delivers its distance, or with a length in flight it
makes the copy and both operands are gone; an error leaves the output as it was. -/
theorem distAndCopy_sat (ds : Nat) (s : State) : (distAndCopy ds s).sat
    (fun _ t => (∃ u o, Forward s u ∧ s.lenOp = none ∧ t = u.setDistOp o) ∨ CopyDone s t)
    (fun _ t => OperandsRead s t) (s.params.inMemSize < s.inLen ∨ s.params.outMemSize < s.outCap) := by
  refine Res.sat_bind (Res.sat_mono (distSym_sat ds s) (fun _ _ h => h)
    (fun _ t ht => OperandsRead.of_forward ht) .inl) ?_
  rintro - _ ⟨u, d, hu, rfl, h1, h2⟩
  refine Res.sat_mono (completeLen_sat (u.setDistOp (some d)) (fun d' hd' => by cases hd'; exact h1))
    ?_ ?_ (fun hs => .inr (by
      have e1 : u.params = s.params := hu.1.params_eq
      have e2 := hu.outCap_eq
      change u.params.outMemSize < u.outCap at hs
      rwa [e1, e2] at hs))
  · rintro - t (⟨rfl, h3 | h3⟩ | ⟨v, hv, hvp, hvc, rfl⟩)
    · exact .inl ⟨u, some d, hu, hu.lenOp_eq ▸ h3, rfl⟩
    · cases h3
    · refine .inr (CopyDone.after_forward hu ⟨v.setDistOp u.distOp, hv.dropDistOp, fun hi => ?_, hvc, rfl⟩)
      have e : v.inLen = u.inLen := hv.inLen_eq
      have hvp' : v.pos = u.pos := hvp
      refine ⟨Nat.le_of_eq hvp.symm, ?_⟩
      change v.pos ≤ 8 * v.inLen.toNat
      rw [hvp', e]; exact hi
  · rintro k t ⟨-, rfl⟩
    exact ⟨u, u.lenOp, some d, hu, rfl⟩

/-- A length instruction from any state (R203): the copy is made and no operand is left in flight;
an error leaves the output as it was. The operation stands in an equation, so that Lean does not
unfold it when the lemma is used. -/
theorem lenInstr_sat {sym : Nat} {s : State} {x : Res Unit} (hx : x = lenInstr sym s) : x.sat
    (fun _ t => CopyDone s t) (fun _ t => OperandsRead s t)
    (s.params.inMemSize < s.inLen ∨ s.params.outMemSize < s.outCap) := by
  have hn := lextAt_le (sym - 257)
  rw [hx, lenInstr, lenHead, lengthOperand, Res.bind_assoc]
  generalize lextAt (sym - 257) = n, lbaseAt (sym - 257) = base at hn ⊢
  refine Res.sat_bind (Res.sat_mono (readPlus_sat base (n := n) (by omega) s)
    (fun _ _ h => h) (fun _ t ht => OperandsRead.of_forward ht.2) .inl) ?_
  rintro len u ⟨hu, -⟩
  have ep : u.params = s.params := hu.1.params_eq
  have el : u.inLen = s.inLen := hu.1.inLen_eq
  refine Res.sat_bind (Res.sat_mono (walk_sat u.treeD
      (u.setLenOp (some (BitVec.ofNat 9 len)))) (fun _ _ h => h)
    (fun _ v hv => OperandsRead.after_forward hu (OperandsRead.of_forward hv.2).dropLenOp)
    (fun hs => .inl (by
      change u.params.inMemSize < u.inLen at hs
      rwa [ep, el] at hs))) ?_
  rintro ds v ⟨hv, -⟩
  have ep' : v.params = s.params := hv.1.params_eq.trans ep
  have el' : v.inLen = s.inLen := hv.1.inLen_eq.trans el
  have ec' : v.outCap = s.outCap := hv.outCap_eq.trans hu.outCap_eq
  have hl : v.lenOp = some (BitVec.ofNat 9 len) := hv.lenOp_eq
  refine Res.sat_mono (distAndCopy_sat ds v) ?_ ?_ (fun hs => by rwa [ep', el', ec'] at hs)
  · rintro - t (⟨w, d, -, h3, -⟩ | h3)
    · rw [hl] at h3; cases h3
    · exact CopyDone.after_forward hu (CopyDone.after_forward hv h3).dropLenOp
  · intro k t h3
    exact OperandsRead.after_forward hu (OperandsRead.after_forward hv h3).dropLenOp

end Sys2Proof.Machine
end

