-- ==== Sys2Proof/Laws/Blocks.lean ====
section
/-! SUPPORT. Stored blocks, the dynamic header and the code-length instructions: what they read,
where they end, and everything each can do from any state. -/

namespace Sys2Proof.Machine

variable {s t : State}

/-! ### Stored blocks -/

/-- A 16-bit field, both of its bytes there (R63). -/
theorem read16_ok (h : s.Quiet) (hb : s.alignedByte + 2 ≤ s.inLen.toNat) :
    read16 s = .ok ((s.inByte s.alignedByte).toNat + 256 * (s.inByte (s.alignedByte + 1)).toNat)
      (s.setCursor (BitVec.ofNat 32 (s.alignedByte + 2)) 0) := by
  have hq := h.afterByte (a := s.alignedByte + 1) (by omega)
  have ea : (s.setCursor (BitVec.ofNat 32 (s.alignedByte + 1)) 0).alignedByte = s.alignedByte + 1 :=
    State.alignedByte_setCursor_zero s (by omega)
  rw [read16, readByte_ok h (by omega), Res.ok_bind,
    readByte_ok hq (by rw [ea]; simpa using by omega), ea]
  rfl

/-- A 16-bit field cut short (R63, R133). -/
theorem read16_short (h : s.Quiet) (hb : s.inLen.toNat < s.alignedByte + 2) :
    read16 s = .raise .outOfData (s.setCursor s.inLen 0) := by
  have hr := readBytes_short h (n := 2) (by omega) hb
  rw [readBytes] at hr
  rw [read16]
  cases hx : readByte s with
  | ok b u =>
    rw [hx, Res.ok_bind] at hr
    rw [Res.ok_bind]
    rw [readBytes] at hr
    cases hy : readByte u with
    | ok c v => rw [hy] at hr; cases hr
    | raise k v => rw [hy] at hr; simpa using hr
    | fault e => rw [hy] at hr; cases hr
    | refused r => rw [hy] at hr; cases hr
  | raise k u => rw [hx] at hr; simpa using hr
  | fault e => rw [hx] at hr; cases hr
  | refused r => rw [hx] at hr; cases hr

/-- The data loop of a stored block, input and capacity enough (R182): the bytes in order, and every
other byte of the output as before. -/
theorem storedData_ok {n : Nat} {a : Nat} (h : s.Quiet) (hp : s.pos = 8 * a)
    (hb : a + n ≤ s.inLen.toNat) (hc : s.outLen.toNat + n ≤ s.outCap.toNat) :
    ∃ m : Memory, storedData n s = .ok () (((s.setCursor (BitVec.ofNat 32 (a + n)) 0).setOutMem
        m).setOutLen (BitVec.ofNat 32 (s.outLen.toNat + n))) ∧
      (∀ k, k < n → m.get (s.outLen.toNat + k) = some (s.inByte (a + k))) ∧
      ∀ b, b < s.outLen.toNat ∨ s.outLen.toNat + n ≤ b → m.get b = s.outMem.get b := by
  have hal : s.alignedByte = a := by unfold State.alignedByte; omega
  induction n generalizing s a with
  | zero =>
    refine ⟨s.outMem, ?_, fun k hk => by omega, fun _ _ => rfl⟩
    have e : s.setCursor (BitVec.ofNat 32 (a + 0)) 0 = s := by
      have := State.atPos_pos s
      rw [State.atPos, hp] at this
      simpa [show BitVec.ofNat 3 (8 * a) = 0 by apply BitVec.eq_of_toNat_eq; simp] using this
    rw [e]; simp [storedData, State.setOutMem, State.setOutLen]
  | succ n ih =>
    have hcap := h.outCap_le
    have hlt : s.outLen < s.outCap := by rw [BitVec.lt_def]; omega
    let s1 := s.setCursor (BitVec.ofNat 32 (a + 1)) 0
    let b := s.inByte a
    let s2 := (s1.setOutMem (s1.outMem.set s1.outLen.toNat b)).setOutLen (s1.outLen + 1)
    have hq1 : s1.Quiet := h.afterByte (by omega)
    have e1 : (BitVec.ofNat 32 (a + 1)).toNat = a + 1 := by simp only [BitVec.toNat_ofNat]; omega
    have hp2 : s2.pos = 8 * (a + 1) := by
      change 8 * (BitVec.ofNat 32 (a + 1)).toNat + 0 = _; rw [e1]; rfl
    have ho : s2.outLen.toNat = s.outLen.toNat + 1 := by
      change (s.outLen + 1).toNat = _; rw [BitVec.toNat_add]; simp; omega
    obtain ⟨m, hm, hk, hoth⟩ := ih (s := s2) (a := a + 1) hq1 hp2
      (by change _ ≤ s.inLen.toNat; omega) (by rw [ho]; change _ ≤ s.outCap.toNat; omega)
      (by unfold State.alignedByte; omega)
    rw [ho] at hm hk hoth
    refine ⟨m, ?_, fun k hlt => ?_, fun c hc => ?_⟩
    · rw [storedData, readByte_ok h (by omega), hal, Res.ok_bind]
      change ((append b s1).bind _) = _
      rw [append_ok (s := s1) b h.2.2.1 hlt, Res.ok_bind]
      change storedData n s2 = _
      rw [hm, show a + 1 + n = a + (n + 1) by omega,
        show s.outLen.toNat + 1 + n = s.outLen.toNat + (n + 1) by omega]
      rfl
    · cases k with
      | zero =>
        rw [Nat.add_zero, hoth _ (by omega)]
        exact Memory.get_set_same _ _ _
      | succ k =>
        rw [show s.outLen.toNat + (k + 1) = s.outLen.toNat + 1 + k by omega, hk k (by omega)]
        change some (s.inByte (a + 1 + k)) = _
        rw [show a + 1 + k = a + (k + 1) by omega]
    · rw [hoth c (by omega)]
      exact Memory.get_set_other _ _ (by change c ≠ s.outLen.toNat; omega)

/-- Block completion (R186) leaves the cursor, the output and the header registers alone. -/
theorem blockComplete_eq (s : State) :
    (s.bfinal = true ∧
        blockComplete s = ((s.setBlkCnt (s.blkCnt + 1)).setStatus true none).setPhase .idle) ∨
      (s.bfinal = false ∧ blockComplete s = (s.setBlkCnt (s.blkCnt + 1)).setPhase .bhdr) := by
  unfold blockComplete
  cases h : s.bfinal
  · right; simp [h]
  · left; simp [h, finishCommand]

/-- Output that grew while the cursor stayed within the input and did not move back. -/
def Streamed (s t : State) : Prop :=
  Grows s t ∧ Onward s t ∧ (s.outLen ≤ s.outCap → t.outLen ≤ t.outCap)

theorem Streamed.of_forward (h : Forward s t) : Streamed s t :=
  ⟨Grows.of_cursorOnly h.1, h.2, fun hc => by rw [h.outLen_eq, h.outCap_eq]; exact hc⟩

theorem Streamed.trans {u : State} (h : Streamed s t) (h' : Streamed t u) : Streamed s u :=
  ⟨h.1.trans h'.1, h.2.1.trans h'.2.1, fun hc => h'.2.2 (h.2.2 hc)⟩

theorem storedData_sat (n : Nat) (s : State) : (storedData n s).sat
    (fun _ t => Streamed s t) (fun _ t => Streamed s t)
    (s.params.inMemSize < s.inLen ∨ s.params.outMemSize < s.outCap) := by
  induction n generalizing s with
  | zero => exact Streamed.of_forward (Forward.refl s)
  | succ n ih =>
    refine Res.sat_bind (Res.sat_mono (readByte_sat s) (fun _ _ h => h)
      (fun _ t ht => Streamed.of_forward ht.2) .inl) ?_
    rintro b u ⟨hu, -⟩
    have hsu := Streamed.of_forward hu
    refine Res.sat_bind (Res.sat_mono (append_sat b u) (fun _ _ h => h) ?_ ?_) ?_
    · rintro k t ⟨-, rfl⟩; exact hsu
    · intro hs; right; rwa [hu.1.params_eq, hu.outCap_eq] at hs
    · rintro - v ⟨hv, hvp, hvl, hvc⟩
      have huv : Streamed u v := ⟨hv, fun hi => ⟨Nat.le_of_eq hvp.symm, by
        rw [State.InInput, hvp, hv.inLen_eq]; exact hi⟩, fun _ => hvc⟩
      have ht := hsu.trans huv
      refine Res.sat_mono (ih v) (fun _ t h => ht.trans h) (fun _ t h => ht.trans h) ?_
      rw [ht.1.params_eq, ht.1.inLen_eq, ht.1.outCap_eq]; exact id

/-- BLK_STORED after its latches, from any state (R182). -/
theorem storedBody_sat (s : State) : (storedBody s).sat
    (fun _ t => ∃ u, Streamed s u ∧ Ahead s u ∧ t = blockComplete u) (fun _ t => Streamed s t)
    (s.params.inMemSize < s.inLen ∨ s.params.outMemSize < s.outCap) := by
  refine Res.sat_bind (Res.sat_mono (read16_sat s) (fun _ _ h => h)
    (fun _ t ht => Streamed.of_forward ht.2) .inl) ?_
  rintro len u ⟨hu, hpos⟩
  have eu : u.params = s.params := hu.1.params_eq
  have el : u.inLen = s.inLen := hu.1.inLen_eq
  refine Res.sat_bind (Res.sat_mono (read16_sat u) (fun _ _ h => h)
    (fun _ t ht => Streamed.of_forward (hu.trans ht.2))
    (fun hs => .inl (by rwa [eu, el] at hs))) ?_
  rintro nlen v ⟨hv, -⟩
  have hsv := hu.trans hv
  split
  · exact Streamed.of_forward hsv
  · refine Res.sat_bind (Res.sat_mono (storedData_sat len v) (fun _ _ h => h)
      (fun _ t ht => (Streamed.of_forward hsv).trans ht) ?_) ?_
    · rw [hsv.1.params_eq, hsv.1.inLen_eq, hsv.outCap_eq]; exact id
    · intro _ w hw
      exact ⟨w, (Streamed.of_forward hsv).trans hw,
        (hpos.trans_onward hv.2).trans_onward hw.2.1, rfl⟩

/-! ### The dynamic header -/

/-- What a dynamic header has written so far beside the cursor and the draws: the header registers
(R290, R292). -/
def HeaderRead (s t : State) : Prop :=
  ∃ u hl hd hc cl, Forward s u ∧ (cl.length = s.clLens.length ∨ cl.length = 19) ∧
    t = (((u.setHlit hl).setHdist hd).setHclen hc).setClLens cl

theorem Forward.dropHeader {u v : State} {hl : BitVec 9} {hd hc : BitVec 5} {cl : List (BitVec 3)}
    (h : Forward ((((u.setHlit hl).setHdist hd).setHclen hc).setClLens cl) v) :
    Forward u ((((v.setHlit u.hlit).setHdist u.hdist).setHclen u.hclen).setClLens u.clLens) := by
  obtain ⟨⟨b, o, d, rfl⟩, h1⟩ := h
  cases u
  exact ⟨⟨b, o, d, rfl⟩, h1⟩

theorem Forward.header_eq (h : Forward s t) :
    t.hlit = s.hlit ∧ t.hdist = s.hdist ∧ t.hclen = s.hclen ∧ t.clLens = s.clLens := by
  obtain ⟨⟨_, _, _, rfl⟩, _⟩ := h
  exact ⟨rfl, rfl, rfl, rfl⟩

theorem HeaderRead.of_forward (h : Forward s t) : HeaderRead s t :=
  ⟨t, t.hlit, t.hdist, t.hclen, t.clLens, h, .inl (by rw [h.header_eq.2.2.2]), rfl⟩

/-- A read after some header registers were written. -/
theorem HeaderRead.forward {u : State} (h : HeaderRead s t) (h' : Forward t u) : HeaderRead s u := by
  obtain ⟨v, hl, hd, hc, cl, hv, hcl, rfl⟩ := h
  refine ⟨_, hl, hd, hc, cl, hv.trans h'.dropHeader, hcl, ?_⟩
  obtain ⟨e1, e2, e3, e4⟩ := h'.header_eq
  cases u
  simp only [State.setClLens_hlit, State.setHclen_hlit, State.setHdist_hlit, State.setHlit_hlit,
    State.setClLens_hdist, State.setHclen_hdist, State.setHdist_hdist, State.setClLens_hclen,
    State.setHclen_hclen, State.setClLens_clLens] at e1 e2 e3 e4
  subst e1 e2 e3 e4
  rfl

theorem HeaderRead.sizes (h : HeaderRead s t) : t.params = s.params ∧ t.inLen = s.inLen := by
  obtain ⟨v, hl, hd, hc, cl, hv, _, rfl⟩ := h; exact ⟨hv.1.params_eq, hv.1.inLen_eq⟩

theorem HeaderRead.setHlit (h : HeaderRead s t) (x : BitVec 9) : HeaderRead s (t.setHlit x) := by
  obtain ⟨v, hl, hd, hc, cl, hv, hcl, rfl⟩ := h; exact ⟨v, x, hd, hc, cl, hv, hcl, rfl⟩

theorem HeaderRead.setHdist (h : HeaderRead s t) (x : BitVec 5) : HeaderRead s (t.setHdist x) := by
  obtain ⟨v, hl, hd, hc, cl, hv, hcl, rfl⟩ := h; exact ⟨v, hl, x, hc, cl, hv, hcl, rfl⟩

theorem HeaderRead.setHclen (h : HeaderRead s t) (x : BitVec 5) : HeaderRead s (t.setHclen x) := by
  obtain ⟨v, hl, hd, hc, cl, hv, hcl, rfl⟩ := h; exact ⟨v, hl, hd, x, cl, hv, hcl, rfl⟩

theorem HeaderRead.setClLens (h : HeaderRead s t) {l : List (BitVec 3)}
    (hlen : l.length = t.clLens.length ∨ l.length = 19) : HeaderRead s (t.setClLens l) := by
  obtain ⟨v, hl, hd, hc, cl, hv, hcl, rfl⟩ := h
  refine ⟨v, hl, hd, hc, l, hv, ?_, rfl⟩
  rcases hlen with h | h
  · rw [h]; exact hcl
  · exact .inr h

/-- A field read inside a header. -/
theorem HeaderRead.readPlus_sat (h : HeaderRead s t) {n : Nat} (base : Nat) (hn : n ≤ 32) :
    (readPlus n base t).sat
      (fun v u => HeaderRead s u ∧ Forward t u ∧ t.pos + n = u.pos ∧ base ≤ v ∧ v < base + 2 ^ n)
      (fun _ u => HeaderRead s u) (s.params.inMemSize < s.inLen) := by
  refine Res.sat_mono (Machine.readPlus_sat base hn t)
    (fun _ u ⟨h1, h2, h3, h4⟩ => ⟨h.forward h1, h1, h2.symm, h3, h4⟩)
    (fun _ u hu => h.forward hu.2) ?_
  rw [h.sizes.1, h.sizes.2]; exact id

/-- The counts of a dynamic header (R290, R291): accepted ones are in range. -/
theorem dynCounts_sat (s : State) : (dynCounts s).sat
    (fun _ t => HeaderRead s t ∧ Ahead s t ∧ 257 ≤ t.hlit.toNat ∧ t.hlit.toNat ≤ 286 ∧
      1 ≤ t.hdist.toNat ∧ t.hdist.toNat ≤ 30)
    (fun _ t => HeaderRead s t) (s.params.inMemSize < s.inLen) := by
  refine Res.sat_bind ((HeaderRead.of_forward (Forward.refl s)).readPlus_sat 257 (n := 5) (by omega)) ?_
  rintro hlit t1 ⟨h1, hf1, hp1, hl, hl'⟩
  refine Res.sat_bind ((h1.setHlit _).readPlus_sat 1 (n := 5) (by omega)) ?_
  rintro hdist t2 ⟨h2, hf2, hp2, hd, hd'⟩
  refine Res.sat_bind ((h2.setHdist _).readPlus_sat 4 (n := 4) (by omega)) ?_
  rintro hclen t3 ⟨h3, hf3, hp3, hc, hc'⟩
  dsimp only
  split
  · exact h3.setHclen _
  · next hr =>
    have hr' : hlit ≤ 286 ∧ hdist ≤ 30 := by
      simp only [Bool.or_eq_true, decide_eq_true_eq] at hr
      have hr1 : ¬ (286 < hlit ∨ 30 < hdist) := hr
      omega
    have el : t3.hlit = BitVec.ofNat 9 hlit := hf3.header_eq.1.trans hf2.header_eq.1
    have ed : t3.hdist = BitVec.ofNat 5 hdist := hf3.header_eq.2.1
    have a1 : Ahead s t1 := ⟨hf1.2, fun _ => by omega⟩
    have o2 : Onward t1 t2 := hf2.2
    have o3 : Onward t2 t3 := hf3.2
    have n1 : (BitVec.ofNat 9 hlit).toNat = hlit := by simp only [BitVec.toNat_ofNat]; omega
    have n2 : (BitVec.ofNat 5 hdist).toNat = hdist := by simp only [BitVec.toNat_ofNat]; omega
    refine ⟨h3.setHclen _, ?_, ?_⟩
    · exact (a1.trans_onward o2).trans_onward o3
    · change 257 ≤ t3.hlit.toNat ∧ t3.hlit.toNat ≤ 286 ∧ 1 ≤ t3.hdist.toNat ∧ t3.hdist.toNat ≤ 30
      rw [el, ed, n1, n2]; omega

/-- The code-length lengths (R292): each read sets one entry. -/
theorem readClLengths_sat (ps : List Nat) (h : HeaderRead s t) : (readClLengths ps t).sat
    (fun _ u => HeaderRead s u ∧ Onward t u ∧ u.hlit = t.hlit ∧ u.hdist = t.hdist ∧
      u.clLens.length = t.clLens.length)
    (fun _ u => HeaderRead s u) (s.params.inMemSize < s.inLen) := by
  induction ps generalizing t with
  | nil => exact ⟨h, Onward.refl t, rfl, rfl, rfl⟩
  | cons p ps ih =>
    refine Res.sat_bind (P := fun _ u => HeaderRead s u ∧ Forward t u)
      (Res.sat_mono (readBits_sat (n := 3) (by omega) t)
        (fun _ u hu => ⟨h.forward hu.1, hu.1⟩) (fun _ u hu => h.forward hu.2)
        (by rw [h.sizes.1, h.sizes.2]; exact id)) ?_
    rintro x u ⟨hu, hf⟩
    obtain ⟨e1, e2, -, e4⟩ := hf.header_eq
    refine Res.sat_mono (ih (hu.setClLens (.inl (List.length_set)))) ?_ (fun _ _ h => h) id
    rintro - v ⟨h1, h2, h3, h4, h5⟩
    refine ⟨h1, hf.2.trans h2, h3.trans e1, h4.trans e2, h5.trans ?_⟩
    change (u.clLens.set _ _).length = _
    rw [List.length_set, e4]

/-- `DynHeader` from any state (R290 to R293): accepted counts in range, an empty LENS, a tree with
an internal root, and PHASE DYN_LENS. -/
theorem dynHeader_sat (s : State) : (dynHeader s).sat
    (fun _ t => ∃ u c, HeaderRead s u ∧ Ahead s u ∧ 257 ≤ u.hlit.toNat ∧ u.hlit.toNat ≤ 286 ∧
      1 ≤ u.hdist.toNat ∧ u.hdist.toNat ≤ 30 ∧ u.clLens.length = 19 ∧ c.isNode = true ∧
      t = ((u.setTreeCL c).setLens []).setPhase .dynLens)
    (fun _ t => HeaderRead s t) (s.params.inMemSize < s.inLen) := by
  refine Res.sat_bind (dynCounts_sat s) ?_
  rintro hclen t1 ⟨h1, hp1, hr⟩
  refine Res.sat_bind (readClLengths_sat (clOrder.take hclen)
    (h1.setClLens (l := List.replicate 19 0) (.inr (by simp)))) ?_
  rintro - t2 ⟨h2, hp2, el, ed, hc⟩
  split
  · exact h2
  · next c hb =>
    refine ⟨t2, c, h2, hp1.trans_onward hp2, ?_⟩
    rw [el, ed]
    obtain ⟨r1, r2, r3, r4⟩ := hr
    exact ⟨r1, r2, r3, r4, hc.trans (by simp), build_isNode hb, rfl⟩

/-! ### Code lengths -/

/-- The trees of a block from any state (R301): both roots are internal nodes, and PHASE is LZ. -/
theorem buildBlockTrees_sat (s : State) : (buildBlockTrees s).sat
    (fun _ t => ∃ a b, a.isNode = true ∧ b.isNode = true ∧
      t = ((s.setTreeLL a).setTreeD b).setPhase .lz)
    (fun k t => k = .corrupt ∧ ∃ a, (a.isNode = true ∨ a = s.treeLL) ∧ t = s.setTreeLL a) False := by
  unfold buildBlockTrees
  split
  · exact ⟨rfl, s.treeLL, .inr rfl, rfl⟩
  · next a ha =>
    split
    · exact ⟨rfl, a, .inl (build_isNode ha), rfl⟩
    · next b hb => exact ⟨a, b, build_isNode ha, build_isNode hb, rfl⟩

/-- What a code-length instruction leaves once it has filled its slots (R294, R300): slots still to
come, or the block's trees built. -/
def SlotsFilled (s t : State) : Prop :=
  (t = s ∧ s.lens.length ≠ s.hlit.toNat + s.hdist.toNat) ∨
    ∃ a b, a.isNode = true ∧ b.isNode = true ∧ t = ((s.setTreeLL a).setTreeD b).setPhase .lz

theorem clEnd_sat (s : State) : (clEnd s).sat (fun _ t => SlotsFilled s t)
    (fun k t => k = .corrupt ∧ ∃ a, (a.isNode = true ∨ a = s.treeLL) ∧ t = s.setTreeLL a) False := by
  unfold clEnd
  split
  · exact Res.sat_mono (buildBlockTrees_sat s) (fun _ _ h => .inr h) (fun _ _ h => h) id
  · next h => exact .inl ⟨rfl, h⟩

theorem repeatLen_sat (r : Nat) (v : BitVec 4) (s : State) : (repeatLen r v s).sat
    (fun _ t => s.lens.length + r ≤ s.hlit.toNat + s.hdist.toNat ∧
      SlotsFilled (s.setLens (s.lens ++ List.replicate r v)) t)
    (fun k t => k = .corrupt ∧ (t = s ∨
      ∃ a, (a.isNode = true ∨ a = s.treeLL) ∧ t = (s.setLens (s.lens ++ List.replicate r v)).setTreeLL a)) False := by
  unfold repeatLen
  split
  · exact ⟨rfl, .inl rfl⟩
  · next h =>
    exact Res.sat_mono (clEnd_sat _) (fun _ _ ht => ⟨Nat.not_lt.1 h, ht⟩)
      (fun _ _ ht => ⟨ht.1, .inr ht.2⟩) id

end Sys2Proof.Machine
end

