-- ==== Sys2Proof/Laws/Host.lean ====
section
/-! SUPPORT. The host's accesses: what they write, that both memories keep their canonical form, and
everything each can do from any state. -/

namespace Sys2Proof.Machine

variable {s t : State}

/-- The state differs in the memories, the raced bytes and the count of draws only, by writes: both
memories keep their canonical form, and no byte loses its value. -/
structure HostWrote (s t : State) : Prop where
  only : t = { s with inMem := t.inMem, outMem := t.outMem, inRace := t.inRace,
                      outRace := t.outRace, drawIdx := t.drawIdx }
  wf : s.inMem.wf ∧ s.outMem.wf → t.inMem.wf ∧ t.outMem.wf
  kept : ∀ a, (s.outMem.get a).isSome = true → (t.outMem.get a).isSome = true

theorem HostWrote.refl (s : State) : HostWrote s s := ⟨by cases s; rfl, id, fun _ h => h⟩

theorem HostWrote.trans {u : State} (h : HostWrote s t) (h' : HostWrote t u) : HostWrote s u where
  only := by
    have h1 := h.only
    have h2 := h'.only
    cases s; cases t; cases u
    simp_all
  wf hw := h'.wf (h.wf hw)
  kept a ha := h'.kept a (h.kept a ha)

theorem HostWrote.sizes (h : HostWrote s t) : t.params = s.params := by rw [h.only]

/-- Whether a space has a byte `a` (R72). -/
def Params.hasByte (p : Params) (sp : Space) (a : Nat) : Prop := a < p.memSize sp

theorem hostWriteByte_sat (sp : Space) (a : Nat) (b : Byte) (s : State) :
    (hostWriteByte sp a b s).sat (fun _ t => HostWrote s t) (fun _ _ => False)
      (¬ s.params.hasByte sp a) := by
  cases sp with
  | inMem =>
    simp only [hostWriteByte]
    split
    · next h => exact Nat.not_lt.2 h
    · split
      · exact ⟨by cases s; rfl, fun h => ⟨Memory.set_wf h.1 _ _, h.2⟩, fun _ h => h⟩
      · exact ⟨by cases s; rfl, fun h => ⟨Memory.set_wf h.1 _ _, h.2⟩, fun _ h => h⟩
  | outMem =>
    have hk : ∀ c, (s.outMem.get c).isSome = true → ((s.outMem.set a b).get c).isSome = true := by
      intro c hc
      rw [Memory.get_set]; split
      · rfl
      · exact hc
    simp only [hostWriteByte]
    split
    · next h => exact Nat.not_lt.2 h
    · split
      · exact ⟨by cases s; rfl, fun h => ⟨h.1, Memory.set_wf h.2 _ _⟩, hk⟩
      · exact ⟨by cases s; rfl, fun h => ⟨h.1, Memory.set_wf h.2 _ _⟩, hk⟩

theorem hostWriteBytes_sat (sp : Space) (a : Nat) (l : List Byte) (s : State) :
    (hostWriteBytes sp a l s).sat (fun _ t => HostWrote s t) (fun _ _ => False)
      (∃ k, k < l.length ∧ ¬ s.params.hasByte sp (a + k)) := by
  induction l generalizing a s with
  | nil => exact HostWrote.refl s
  | cons b l ih =>
    refine Res.sat_bind (Res.sat_mono (hostWriteByte_sat sp a b s) (fun _ _ h => h)
      (fun _ _ h => h) (fun h => ⟨0, by simp, h⟩)) fun _ u hu => ?_
    refine Res.sat_mono (ih (a + 1) u) (fun _ t ht => hu.trans ht) (fun _ _ h => h) ?_
    rintro ⟨k, hk, h⟩
    rw [hu.sizes] at h
    exact ⟨k + 1, by simpa using hk, by rwa [← Nat.add_assoc, Nat.add_right_comm]⟩

/-- A host read changes nothing but the count of draws (R70). -/
theorem hostReadByte_sat (sp : Space) (a : Nat) (s : State) :
    (hostReadByte sp a s).sat (fun _ t => ∃ d, t = s.setDrawIdx d) (fun _ _ => False)
      (¬ s.params.hasByte sp a) := by
  cases sp with
  | inMem =>
    simp only [hostReadByte]
    split
    · next h => exact Nat.not_lt.2 h
    · exact ⟨s.drawIdx, rfl⟩
  | outMem =>
    simp only [hostReadByte]
    split
    · next h => exact Nat.not_lt.2 h
    · next h =>
      split
      · exact Res.sat_mono (readOut_sat a s) (fun _ _ h => h) (fun _ _ h => h)
          (fun h' => absurd h' h)
      · exact ⟨_, rfl⟩

theorem hostReadBytes_sat (sp : Space) (a n : Nat) (s : State) :
    (hostReadBytes sp a n s).sat (fun _ t => ∃ d, t = s.setDrawIdx d) (fun _ _ => False)
      (∃ k, k < n ∧ ¬ s.params.hasByte sp (a + k)) := by
  induction n generalizing a s with
  | zero => exact ⟨s.drawIdx, rfl⟩
  | succ n ih =>
    refine Res.sat_bind (Res.sat_mono (hostReadByte_sat sp a s) (fun _ _ h => h)
      (fun _ _ h => h) (fun h => ⟨0, by simp, h⟩)) ?_
    rintro b _ ⟨d, rfl⟩
    refine Res.sat_bind (Res.sat_mono (ih (a + 1) (s.setDrawIdx d)) (fun _ _ h => h)
      (fun _ _ h => h) ?_) ?_
    · rintro ⟨k, hk, h⟩
      exact ⟨k + 1, by omega, by rwa [← Nat.add_assoc, Nat.add_right_comm]⟩
    · rintro l _ ⟨d', rfl⟩; exact ⟨d', rfl⟩

/-- An idle host write settles the byte (log 27). -/
theorem raceAt_filter (r : List Host.Cell) (a c : Nat) :
    raceAt (r.filter (fun x => x.1 != a)) c = if c = a then [] else raceAt r c := by
  unfold raceAt
  rw [List.filter_filter]
  split
  · next h =>
    subst h
    rw [List.map_eq_nil_iff, List.filter_eq_nil_iff]
    intro x _; simp
  · next h =>
    congr 1
    refine List.filter_congr fun x _ => ?_
    by_cases hx : x.1 = c
    · simp [hx, h]
    · simp [hx]

/-- Bytes written to `IN_MEM` while the engine is idle (R41): each at its address and no longer raced,
the others alone. -/
theorem hostWriteBytes_idle {a : Nat} {l : List Byte} (hi : s.phase = .idle)
    (hb : a + l.length ≤ s.params.inMemSize.toNat) :
    ∃ (m : Memory) (r : List Host.Cell),
      hostWriteBytes .inMem a l s = .ok () ((s.setInRace r).setInMem m) ∧
      (∀ k, (h : k < l.length) → m.get (a + k) = some l[k] ∧ raceAt r (a + k) = []) ∧
      ∀ c, c < a ∨ a + l.length ≤ c → m.get c = s.inMem.get c ∧ raceAt r c = raceAt s.inRace c := by
  induction l generalizing a s with
  | nil => exact ⟨s.inMem, s.inRace, rfl, fun k h => by simp at h, fun _ _ => ⟨rfl, rfl⟩⟩
  | cons b l ih =>
    simp only [List.length_cons] at hb
    let s1 := (s.setInRace (s.inRace.filter (fun c => c.1 != a))).setInMem (s.inMem.set a b)
    obtain ⟨m, r, hm, hk, ho⟩ := ih (s := s1) (a := a + 1) hi
      (by change _ ≤ s.params.inMemSize.toNat; omega)
    have hbz : s.busy = false := by simp [State.busy, hi]
    refine ⟨m, r, ?_, fun k h => ?_, fun c hc => ?_⟩
    · have h1 : ¬ s.params.inMemSize.toNat ≤ a := by omega
      simp only [hostWriteBytes, hostWriteByte, h1, if_false, hbz, Bool.false_eq_true, Res.ok_bind]
      exact hm
    · cases k with
      | zero =>
        obtain ⟨h1, h2⟩ := ho a (by omega)
        rw [Nat.add_zero, h1, h2]
        refine ⟨Memory.get_set_same _ _ _, ?_⟩
        change raceAt (s.inRace.filter (fun c => c.1 != a)) a = []
        rw [raceAt_filter, if_pos rfl]
      | succ k =>
        rw [show a + (k + 1) = a + 1 + k by omega]
        exact hk k (by simpa using h)
    · simp only [List.length_cons] at hc
      obtain ⟨h1, h2⟩ := ho c (by omega)
      rw [h1, h2]
      refine ⟨Memory.get_set_other _ _ (by omega), ?_⟩
      change raceAt (s.inRace.filter (fun c => c.1 != a)) c = _
      rw [raceAt_filter, if_neg (by omega)]

/-- A byte of `IN_MEM` without a race reads as the byte it holds (R70). -/
theorem hostInByte_of_no_race {a : Nat} (h : raceAt s.inRace a = []) : s.hostInByte a = s.inByte a := by
  simp [State.hostInByte, h, Nat.mod_one]

/-- A read of bytes of `IN_MEM` changes nothing (R70). -/
theorem hostReadBytes_inMem {a n : Nat} (h : a + n ≤ s.params.inMemSize.toNat) :
    hostReadBytes .inMem a n s = .ok ((List.range n).map fun k => s.hostInByte (a + k)) s := by
  induction n generalizing a with
  | zero => rfl
  | succ n ih =>
    have h1 : ¬ s.params.inMemSize.toNat ≤ a := by omega
    simp only [hostReadBytes, hostReadByte, h1, if_false, Res.ok_bind, ih (a := a + 1) (by omega),
      List.range_succ_eq_map, List.map_cons, List.map_map]
    congr 2
    refine List.map_congr_left fun k _ => ?_
    simp only [Function.comp_apply, Nat.succ_eq_add_one, Nat.add_assoc, Nat.add_comm 1]

/-- What the host has read has no influence on what it reads next. -/
theorem hostInByte_setHostRData (v a : Nat) : (s.setHostRData v).hostInByte a = s.hostInByte a := rfl

/-! ### The bytes of an access -/

@[simp] theorem natToBytes_length (n v : Nat) : (natToBytes n v).length = n := by
  induction n generalizing v with
  | zero => rfl
  | succ n ih => simp [natToBytes, ih]

theorem natToBytes_getElem {n v k : Nat} (h : k < (natToBytes n v).length) :
    (natToBytes n v)[k] = BitVec.ofNat 8 (v / 256 ^ k) := by
  induction n generalizing v k with
  | zero => simp [natToBytes] at h
  | succ n ih =>
    cases k with
    | zero => simp [natToBytes]
    | succ k =>
      simp only [natToBytes, List.getElem_cons_succ]
      rw [ih, Nat.pow_succ', Nat.div_div_eq_div_mul]

@[simp] theorem hostOrder_length (p : Params) (l : List Byte) : (hostOrder p l).length = l.length := by
  unfold hostOrder; split <;> simp

/-- The bytes of a host write, in the order of `HOST_MEM_ENDIAN` (R66). -/
theorem hostOrder_getElem {p : Params} {n v k : Nat} (h : k < (hostOrder p (natToBytes n v)).length) :
    (hostOrder p (natToBytes n v))[k] =
      BitVec.ofNat 8 (v / 256 ^ (if p.hostBigEndian then n - 1 - k else k)) := by
  cases hb : p.hostBigEndian with
  | false => simp only [hostOrder, hb, Bool.false_eq_true, if_false, natToBytes_getElem]
  | true =>
    simp only [hostOrder, hb, if_true, List.getElem_reverse, natToBytes_getElem, natToBytes_length]

/-! ### The address map -/

/-- With disjoint spaces the platform address of an offset in the window leads to that offset. -/
theorem Params.route_reg {p : Params} {off : Nat} (h : off < p.regWindow) :
    p.route (p.regAddr off) = some (.reg off) := by
  have e : p.regAddr off = p.regBase + off := rfl
  have c : p.regBase ≤ p.regBase + off ∧ p.regBase + off < p.regBase + p.regWindow := by omega
  rw [Params.route, e, if_pos c, Nat.add_sub_cancel_left]

/-- With disjoint spaces the platform address of a byte of a memory leads to that byte. -/
theorem Params.route_mem {p : Params} (hp : p.Legal) {sp : Space} {a : Nat} (h : a < p.memSize sp) :
    p.route (p.memAddr sp a) = some (.mem sp a) := by
  obtain ⟨-, -, h1, h2, h3⟩ := hp
  have hr : ∀ {b n c m x : Nat}, Apart b n c m → x < m → ¬ (b ≤ c + x ∧ c + x < b + n) := by
    intro b n c m x h hx; omega
  have hi : ∀ {b n x : Nat}, x < n → b ≤ b + x ∧ b + x < b + n := by intro b n x hx; omega
  cases sp with
  | inMem =>
    replace h : a < p.inMemSize.toNat := h
    have e : p.memAddr .inMem a = p.inBase + a := rfl
    rw [Params.route, e, if_neg (hr h1 h), if_pos (hi h), Nat.add_sub_cancel_left]
  | outMem =>
    replace h : a < p.outMemSize.toNat := h
    have e : p.memAddr .outMem a = p.outBase + a := rfl
    rw [Params.route, e, if_neg (hr h2 h), if_neg (hr h3 h), if_pos (hi h), Nat.add_sub_cancel_left]

/-! ### The canonical form -/

theorem reset_memories_wf (p : Params) :
    (State.resetWith p).inMem.wf ∧ (State.resetWith p).outMem.wf := ⟨Memory.nil_wf, Memory.nil_wf⟩

theorem raiseError_memories_wf (k : ErrKind) (h : s.inMem.wf) :
    (raiseError k s).inMem.wf ∧ (raiseError k s).outMem.wf := ⟨h, Memory.nil_wf⟩

theorem writeInBytes_wf (a : Nat) (l : List Byte) {m : Memory} (h : m.wf) :
    (writeInBytes a l m).wf := by
  induction l generalizing a m with
  | nil => exact h
  | cons b l ih => exact ih (a + 1) (Memory.set_wf h a b)

@[simp] theorem placeBits_inMem (bp off : Nat) (bits : List Bool) (s : State) :
    (placeBits bp off bits s).inMem =
      writeInBytes bp (natToBytes placedBytes (bitsToNat bits * 2 ^ off)) s.inMem := by
  simp only [placeBits, State.setInRace_inMem, State.setInLen_inMem, State.setInMem_inMem]

@[simp] theorem placeBits_outMem (bp off : Nat) (bits : List Bool) (s : State) :
    (placeBits bp off bits s).outMem = s.outMem := by
  simp only [placeBits, State.setInRace_outMem, State.setInLen_outMem, State.setInMem_outMem]

@[simp] theorem placeHeader_memories (s : State) :
    (placeHeader s).inMem = s.inMem ∧ (placeHeader s).outMem = s.outMem := by
  unfold placeHeader; split <;> exact ⟨rfl, rfl⟩

/-- Placing an instruction (log 11) keeps the canonical form. -/
theorem withFetchWord_wf (nbits w : Nat) (h : s.inMem.wf ∧ s.outMem.wf) :
    (s.withFetchWord nbits w).inMem.wf ∧ (s.withFetchWord nbits w).outMem.wf := by
  have hw := fun a l => writeInBytes_wf a l h.1
  unfold State.withFetchWord
  split
  · next f _ =>
    cases f <;> simp only [place, placeHere, State.setHostQ_inMem, State.setHostQ_outMem,
      State.setPhase_inMem, State.setPhase_outMem, State.setLenOp_inMem, State.setLenOp_outMem,
      State.setTreeD_inMem, State.setTreeD_outMem, State.setTreeLL_inMem, State.setTreeLL_outMem,
      State.setTreeCL_inMem, State.setTreeCL_outMem, placeHeader_memories, placeBits_inMem,
      placeBits_outMem, h.1, h.2, hw, and_self]
  · exact h

end Sys2Proof.Machine
end

