-- ==== Sys2Proof/Laws/Engine.lean ====
section
/-! SUPPORT. What one engine step can do, said once: the cases of `engineStep`, from any state. Every
fact about all steps of the engine is read off them. -/

namespace Sys2Proof.Machine

variable {s t : State}

/-! ### Which instructions a format holds -/

theorem decodeBlock_cases {v : Nat} {i : Instr} (h : decodeSel .blockHeader v = .ok i) :
    ∃ f, i = .blkStored f ∨ i = .blkFixed f ∨ i = .blkDynamic f ∨ i = .blkReserved f := by
  simp only [decodeSel, decodeBlock] at h
  split at h <;> cases h <;> simp

theorem decodeZlib_cases {v : Nat} {i : Instr} (h : decodeSel .zlibHeader v = .ok i) :
    ∃ cmf flg, i = .zlibHdr cmf flg := by
  simp only [decodeSel, decodeZlib] at h
  split at h
  · cases h
  · cases h; exact ⟨_, _, rfl⟩

theorem decodeCtrl_cases {v : Nat} {i : Instr} (h : decodeSel .hostCtrl v = .ok i) :
    i = .start ∧ v.testBit 0 = true := by
  simp only [decodeSel, decodeCtrl] at h
  split at h
  · cases h
  · split at h
    · next hb => cases h; exact ⟨rfl, hb⟩
    · cases h

theorem rowAt_mem {rows : List Instr} {k : Nat} {r : Reject} {i : Instr}
    (h : rowAt rows k r = .ok i) : i ∈ rows := by
  unfold rowAt at h
  split at h
  · next hx => cases h; exact List.mem_of_getElem? hx
  · cases h

theorem decodeLitlen_cases {v : Nat} {i : Instr} (h : decodeSel .litlenSymbol v = .ok i) :
    (∃ b, i = .lit b) ∨ i = .eob ∨ i ∈ lenInstrs ∨ i ∈ llResInstrs := by
  simp only [decodeSel, decodeLitlen] at h
  split at h
  · cases h; exact .inl ⟨_, rfl⟩
  · split at h
    · cases h; exact .inr (.inl rfl)
    · exact .inr (.inr (List.mem_append.1 (rowAt_mem h)))

theorem decodeDist_cases {v : Nat} {i : Instr} (h : decodeSel .distSymbol v = .ok i) :
    i ∈ distInstrs ∨ i ∈ distResInstrs := List.mem_append.1 (rowAt_mem h)

theorem decodeCl_cases {v : Nat} {i : Instr} (h : decodeSel .clSymbol v = .ok i) :
    (∃ len, i = .clLen len) ∨ i = .clRep16 ∨ i = .clRep17 ∨ i = .clRep18 := by
  simp only [decodeSel, decodeCl] at h
  split at h
  · cases h; exact .inl ⟨_, rfl⟩
  · exact .inr (by simpa using rowAt_mem h)

/-! ### The cases of a step -/

/-- The state in which an error is raised, before the error entry: what the step has not touched. -/
structure Failing (s u : State) : Prop where
  onward : Onward s u
  input : u.inMem = s.inMem ∧ u.inLen = s.inLen ∧ u.outCap = s.outCap ∧ u.params = s.params
  host : u.hostQ = s.hostQ ∧ u.hostRData = s.hostRData ∧ u.inRace = s.inRace ∧
    u.outRace = s.outRace ∧ u.epoch = s.epoch
  blkCnt : u.blkCnt = s.blkCnt
  headers : s.phase ≠ .bhdr → u.bfinal = s.bfinal ∧ u.btype = s.btype ∧ u.hlit = s.hlit ∧
    u.hdist = s.hdist ∧ u.hclen = s.hclen ∧ u.clLens = s.clLens
  clLens : u.clLens.length = s.clLens.length ∨ u.clLens.length = 19
  roots : (s.treeLL.isNode = true → u.treeLL.isNode = true) ∧ u.treeD = s.treeD ∧
    u.treeCL = s.treeCL

/-- Everything one engine step can do. -/
inductive EngineMove (s : State) : State → Prop
  /-- No step in IDLE (R416). -/
  | idle (h : s.phase = .idle) : EngineMove s s
  /-- An error ends the command (R407). -/
  | failed (k : ErrKind) (u : State) (h : s.phase ≠ .idle) (hu : Failing s u) :
      EngineMove s (raiseError k u)
  /-- A legal zlib header (R321). -/
  | zlib (u : State) (h : s.phase = .zhdr) (hu : Forward s u) (ha : Ahead s u) :
      EngineMove s (u.setPhase .bhdr)
  /-- A stored block (R182). -/
  | stored (f : Bool) (u v : State) (h : s.phase = .bhdr) (hu : Forward s u) (ha : Ahead s u)
      (hv : Streamed (latchHeader f 0 u) v) : EngineMove s (blockComplete v)
  /-- A fixed block's header (R183). -/
  | fixed (f : Bool) (u : State) (h : s.phase = .bhdr) (hu : Forward s u) (ha : Ahead s u) :
      EngineMove s ((((latchHeader f 1 u).setTreeLL fixedTreeLL).setTreeD fixedTreeD).setPhase .lz)
  /-- A dynamic block's header (R184). -/
  | dynamic (f : Bool) (u v : State) (c : Tree) (h : s.phase = .bhdr) (hu : Forward s u)
      (ha : Ahead s u) (hv : HeaderRead (latchHeader f 2 u) v)
      (ho : Ahead (latchHeader f 2 u) v)
      (hr : 257 ≤ v.hlit.toNat ∧ v.hlit.toNat ≤ 286 ∧ 1 ≤ v.hdist.toNat ∧ v.hdist.toNat ≤ 30)
      (hc : v.clLens.length = 19) (hn : c.isNode = true) :
      EngineMove s (((v.setTreeCL c).setLens []).setPhase .dynLens)
  /-- A code-length symbol (R294). -/
  | slots (u t : State) (l : List (BitVec 4)) (h : s.phase = .dynLens) (hu : Forward s u)
      (ha : s.treeCL.isNode = true → Ahead s u)
      (hl : s.lens.length < s.hlit.toNat + s.hdist.toNat → l.length ≤ s.hlit.toNat + s.hdist.toNat)
      (ht : SlotsFilled (u.setLens l) t) : EngineMove s t
  /-- The end of a block (R202). -/
  | eob (u : State) (h : s.phase = .lz) (hu : Forward s u)
      (ha : s.treeLL.isNode = true → Ahead s u) : EngineMove s (blockComplete u)
  /-- A literal (R201). -/
  | lit (u v : State) (h : s.phase = .lz) (hu : Forward s u)
      (ha : s.treeLL.isNode = true → Ahead s u) (hv : Streamed u v) : EngineMove s v
  /-- A length instruction with its distance (R203). -/
  | copy (u t : State) (h : s.phase = .lz) (hu : Forward s u)
      (ha : s.lenOp = none → s.treeLL.isNode = true → Ahead s u) (ht : CopyDone u t) : EngineMove s t

/-- What each engine step does, or that it stops, which needs a register beyond its memory. -/
def EngineMove.Spec (s : State) (o : Host.Outcome State Fault Refusal) : Prop :=
  match o with
  | .next t => EngineMove s t
  | _ => s.params.inMemSize < s.inLen ∨ s.params.outMemSize < s.outCap

theorem EngineMove.spec_finish {x : Res Unit} (h : x.sat (fun _ t => EngineMove s t)
    (fun k t => EngineMove s (raiseError k t))
    (s.params.inMemSize < s.inLen ∨ s.params.outMemSize < s.outCap)) : Spec s x.finish := by
  cases x <;> exact h

theorem Failing.of_forward {u : State} (h : Forward s u) : Failing s u := by
  obtain ⟨⟨_, _, _, rfl⟩, ho⟩ := h
  exact ⟨ho, ⟨rfl, rfl, rfl, rfl⟩, ⟨rfl, rfl, rfl, rfl, rfl⟩, rfl, fun _ => ⟨rfl, rfl, rfl, rfl, rfl, rfl⟩,
    .inl rfl, id, rfl, rfl⟩

theorem Failing.of_operandsRead {u : State} (h : OperandsRead s u) : Failing s u := by
  obtain ⟨v, l, o, hv, rfl⟩ := h
  obtain ⟨h1, h2, h3, h4, h5, h6, h7⟩ := Failing.of_forward hv
  exact ⟨h1, h2, h3, h4, h5, h6, h7⟩

theorem Failing.after_forward {u v : State} (h : Forward s u) (hp : s.phase = u.phase)
    (h' : Failing u v) : Failing s v := by
  obtain ⟨⟨_, _, _, rfl⟩, ho⟩ := h
  exact ⟨ho.trans h'.onward, h'.input, h'.host, h'.blkCnt, fun hb => h'.headers (hp ▸ hb), h'.clLens,
    h'.roots⟩

theorem Forward.phase_eq {u : State} (h : Forward s u) : u.phase = s.phase := by
  obtain ⟨⟨_, _, _, rfl⟩, _⟩ := h; rfl

/-- In PHASE BHDR the latches, the header registers and the output may already be written. -/
theorem Failing.of_block {u v : State} {f : Bool} {ty : BitVec 2} (hb : s.phase = .bhdr)
    (h : Forward s u) (ho : Onward u v)
    (hv : ∃ bp bo d m n hl hd hc cl, (cl.length = u.clLens.length ∨ cl.length = 19) ∧
      v = ((((((((latchHeader f ty u).setCursor bp bo).setDrawIdx d).setOutMem m).setOutLen
        n).setHlit hl).setHdist hd).setHclen hc).setClLens cl) : Failing s v := by
  obtain ⟨⟨_, _, _, rfl⟩, ho'⟩ := h
  obtain ⟨bp, bo, d, m, n, hl, hd, hc, cl, hcl, rfl⟩ := hv
  have hx := ho'.trans ho
  cases s
  exact ⟨hx, ⟨rfl, rfl, rfl, rfl⟩, ⟨rfl, rfl, rfl, rfl, rfl⟩, rfl, fun h => absurd hb h, hcl,
    id, rfl, rfl⟩

theorem Failing.of_streamed {u v : State} {f : Bool} {ty : BitVec 2} (hb : s.phase = .bhdr)
    (h : Forward s u) (hv : Streamed (latchHeader f ty u) v) : Failing s v := by
  obtain ⟨⟨⟨bp, bo, d, m, n, rfl⟩, _⟩, ho, _⟩ := hv
  exact Failing.of_block hb h ho
    ⟨bp, bo, d, m, n, u.hlit, u.hdist, u.hclen, u.clLens, .inl rfl, by cases u; rfl⟩

theorem HeaderRead.onward (h : HeaderRead s t) : Onward s t := by
  obtain ⟨u, hl, hd, hc, cl, hu, _, rfl⟩ := h; exact hu.2

theorem Failing.of_headerRead {u v : State} {f : Bool} {ty : BitVec 2} (hb : s.phase = .bhdr)
    (h : Forward s u) (hv : HeaderRead (latchHeader f ty u) v) : Failing s v := by
  have ho := hv.onward
  obtain ⟨w, hl, hd, hc, cl, ⟨⟨bp, bo, d, rfl⟩, _⟩, hcl, rfl⟩ := hv
  exact Failing.of_block hb h ho ⟨bp, bo, d, u.outMem, u.outLen, hl, hd, hc, cl, hcl, by cases u; rfl⟩

/-- A tree built over LENS so far may already be in `TREE_LL` when the other set fails (R301). -/
theorem Failing.of_slots {u : State} {l : List (BitVec 4)} {a : Tree} (h : Forward s u)
    (ha : a.isNode = true ∨ a = u.treeLL) : Failing s ((u.setLens l).setTreeLL a) := by
  obtain ⟨⟨_, _, _, rfl⟩, ho⟩ := h
  refine ⟨ho, ⟨rfl, rfl, rfl, rfl⟩, ⟨rfl, rfl, rfl, rfl, rfl⟩, rfl,
    fun _ => ⟨rfl, rfl, rfl, rfl, rfl, rfl⟩, .inl rfl, fun hs => ?_, rfl, rfl⟩
  rcases ha with ha | rfl
  · exact ha
  · exact hs

/-! ### One engine step -/

/-- An engine step reads the bits of its instruction, and runs it. -/
theorem EngineMove.spec_fetch {f : Format} {x : Res Nat} {P : Nat → State → Prop}
    {Q : ErrKind → State → Prop} (hf : fetch s = some (select f x))
    (hx : x.sat P Q (s.params.inMemSize < s.inLen))
    (hQ : ∀ k t, Q k t → EngineMove s (raiseError k t))
    (hbad : ∀ v t, P v t → EngineMove s (raiseError .corrupt t))
    (hrun : ∀ v t i, P v t → decodeSel f v = .ok i → Spec s (exec i t)) : Spec s (engineStep s) := by
  unfold engineStep
  rw [hf]
  cases x with
  | ok v t =>
    simp only [select, Res.ok_bind]
    cases hd : decodeSel f v with
    | ok i => exact hrun v t i hx hd
    | error e => exact hbad v t hx
  | raise k t => exact hQ k t hx
  | fault e => exact .inl hx
  | refused r => exact .inl hx

theorem EngineMove.spec_zlib (h : s.phase = .zhdr) : Spec s (engineStep s) := by
  have hi : s.phase ≠ .idle := by rw [h]; simp
  refine spec_fetch (f := .zlibHeader) (by simp only [fetch, h])
    (readZlibH_sat s)
    (fun k t ht => .failed k t hi (.of_forward ht.2)) (fun v t ht => .failed _ t hi (.of_forward ht.1)) ?_
  rintro v u i ⟨hu, ha⟩ hd
  obtain ⟨cmf, flg, rfl⟩ := decodeZlib_cases hd
  refine spec_finish (Res.sat_bind (P := fun _ t => t = u) ?_ ?_)
  · have hc : EngineMove s (raiseError .corrupt u) := .failed _ u hi (.of_forward hu)
    unfold zlibCheck
    repeat' split
    all_goals first | exact hc | rfl
  · rintro - t rfl; exact .zlib t h hu ha

theorem EngineMove.spec_block (h : s.phase = .bhdr) : Spec s (engineStep s) := by
  have hi : s.phase ≠ .idle := by rw [h]; simp
  refine spec_fetch (f := .blockHeader) (by simp only [fetch, h])
    (readBlockHeader_sat s)
    (fun k t ht => .failed k t hi (.of_forward ht.2)) (fun v t ht => .failed _ t hi (.of_forward ht.1)) ?_
  rintro v u i ⟨hu, ha⟩ hd
  have ep : u.params = s.params := hu.1.params_eq
  have el : u.inLen = s.inLen := hu.1.inLen_eq
  obtain ⟨f, rfl | rfl | rfl | rfl⟩ := decodeBlock_cases hd
  · refine spec_finish (Res.sat_mono (storedBody_sat (latchHeader f 0 u)) ?_ ?_ ?_)
    · rintro - _ ⟨v, hv, -, rfl⟩; exact .stored f u v h hu ha hv
    · intro k v hv; exact .failed k v hi (.of_streamed h hu hv)
    · rw [← ep, ← el, ← hu.outCap_eq]; exact id
  · exact .fixed f u h hu ha
  · refine spec_finish (Res.sat_mono (dynHeader_sat (latchHeader f 2 u)) ?_ ?_ ?_)
    · rintro - _ ⟨v, c, hv, ho, r1, r2, r3, r4, hc, hn, rfl⟩
      exact .dynamic f u v c h hu ha hv ho ⟨r1, r2, r3, r4⟩ hc hn
    · intro k v hv; exact .failed k v hi (.of_headerRead h hu hv)
    · rw [← ep, ← el]; exact .inl
  · exact .failed _ _ hi (.of_headerRead h hu (HeaderRead.of_forward (Forward.refl (latchHeader f 3 u))))

theorem EngineMove.of_clEnd {u : State} {l : List (BitVec 4)} (h : s.phase = .dynLens)
    (hu : Forward s u) (ha : s.treeCL.isNode = true → Ahead s u)
    (hl : s.lens.length < s.hlit.toNat + s.hdist.toNat → l.length ≤ s.hlit.toNat + s.hdist.toNat) :
    (clEnd (u.setLens l)).sat (fun _ t => EngineMove s t) (fun k t => EngineMove s (raiseError k t))
      False := by
  have hi : s.phase ≠ .idle := by rw [h]; simp
  refine Res.sat_mono (clEnd_sat _) (fun _ t ht => .slots u t l h hu ha hl ht) ?_ id
  rintro k _ ⟨-, a, hc, rfl⟩
  exact .failed k _ hi (.of_slots hu hc)

theorem EngineMove.of_repeat {u v : State} {n base : Nat} {c : BitVec 4} (h : s.phase = .dynLens)
    (hu : Forward s u) (ha : s.treeCL.isNode = true → Ahead s u) (hn : n ≤ 32) (hv : v = u) :
    Spec s (((readPlus n base v).bind fun r s1 => repeatLen r c s1).finish) := by
  subst hv
  have hi : s.phase ≠ .idle := by rw [h]; simp
  refine spec_finish (Res.sat_bind (Res.sat_mono (readPlus_sat base hn v) (fun _ _ h => h)
    (fun k t ht => .failed k t hi (.of_forward (hu.trans ht.2))) ?_) ?_)
  · rw [hu.1.params_eq, hu.1.inLen_eq]; exact .inl
  · rintro r t ⟨ht, -⟩
    have hst := hu.trans ht
    obtain ⟨e1, e2, -, -⟩ := hst.header_eq
    unfold repeatLen
    split
    · exact .failed _ t hi (.of_forward hst)
    · next hle =>
      refine Res.sat_mono (of_clEnd h hst (fun hn => (ha hn).trans_onward ht.2) fun _ => ?_)
        (fun _ _ h => h) (fun _ _ h => h) False.elim
      simp only [State.lensTotal, State.lensIdx, Nat.not_lt, e1, e2] at hle
      rw [List.length_append, List.length_replicate]; exact hle

theorem Forward.lens_eq (h : Forward s t) : t.lens = s.lens := by
  obtain ⟨⟨_, _, _, rfl⟩, _⟩ := h; rfl

theorem EngineMove.spec_lens (h : s.phase = .dynLens) : Spec s (engineStep s) := by
  have hi : s.phase ≠ .idle := by rw [h]; simp
  refine spec_fetch (f := .clSymbol) (by simp only [fetch, h])
    (walk_sat s.treeCL s)
    (fun k t ht => .failed k t hi (.of_forward ht.2)) (fun v t ht => .failed _ t hi (.of_forward ht.1)) ?_
  rintro v u i ⟨hu, ha⟩ hd
  obtain ⟨len, rfl⟩ | rfl | rfl | rfl := decodeCl_cases hd
  · refine spec_finish (Res.sat_mono (of_clEnd h hu ha fun hlt => ?_) (fun _ _ h => h)
      (fun _ _ h => h) False.elim)
    rw [hu.lens_eq, List.length_append]; exact hlt
  · change Spec s (Res.finish _)
    split
    · exact .failed _ u hi (.of_forward hu)
    · exact of_repeat h hu ha (by omega) rfl
  · exact of_repeat h hu ha (by omega) rfl
  · exact of_repeat h hu ha (by omega) rfl

theorem EngineMove.spec_copy {x : Res Unit} {u : State} (h : s.phase = .lz) (hu : Forward s u)
    (ha : s.lenOp = none → s.treeLL.isNode = true → Ahead s u)
    (hx : x.sat (fun _ t => CopyDone u t) (fun _ t => OperandsRead u t)
      (u.params.inMemSize < u.inLen ∨ u.params.outMemSize < u.outCap)) : Spec s x.finish := by
  have hi : s.phase ≠ .idle := by rw [h]; simp
  refine spec_finish (Res.sat_mono hx (fun _ t ht => .copy u t h hu ha ht)
    (fun k t ht => .failed k t hi (.of_operandsRead (ht.after_forward hu))) ?_)
  rw [hu.1.params_eq, hu.1.inLen_eq, hu.outCap_eq]; exact id

theorem EngineMove.spec_litlen (h : s.phase = .lz) (hl : s.lenOp = none) : Spec s (engineStep s) := by
  have hi : s.phase ≠ .idle := by rw [h]; simp
  refine spec_fetch (f := .litlenSymbol) (by simp only [fetch, h, hl])
    (walk_sat s.treeLL s)
    (fun k t ht => .failed k t hi (.of_forward ht.2)) (fun v t ht => .failed _ t hi (.of_forward ht.1)) ?_
  rintro v u i ⟨hu, ha⟩ hd
  obtain ⟨b, rfl⟩ | rfl | hm | hm := decodeLitlen_cases hd
  · refine spec_finish (Res.sat_mono (append_sat b u) ?_ ?_ ?_)
    · rintro - v ⟨h1, h2, h3, h4⟩
      refine .lit u v h hu ha ⟨h1, fun hin => ⟨Nat.le_of_eq h2.symm, ?_⟩, fun _ => h4⟩
      rw [State.InInput, h2, h1.inLen_eq]; exact hin
    · rintro k v ⟨-, rfl⟩; exact .failed k _ hi (.of_forward hu)
    · rw [hu.1.params_eq, hu.outCap_eq]; exact .inr
  · exact .eob u h hu ha
  · obtain ⟨idx, hx⟩ := lenInstrs_getElem? hm
    have hc : ∀ x, x = lenInstr (257 + idx) u → Spec s x.finish :=
      fun x hxe => spec_copy h hu (fun _ => ha) (lenInstr_sat hxe)
    generalize hxe : lenInstr (257 + idx) u = x at hc
    have he := exec_lenInstr hx u
    rw [hxe] at he
    rw [he]
    exact hc x rfl
  · have hr : EngineMove s (raiseError .corrupt u) := .failed _ u hi (.of_forward hu)
    simp only [llResInstrs, List.mem_cons, List.not_mem_nil, or_false] at hm
    rcases hm with rfl | rfl <;> exact hr

theorem EngineMove.spec_dist {l : BitVec 9} (h : s.phase = .lz) (hl : s.lenOp = some l) :
    Spec s (engineStep s) := by
  have hi : s.phase ≠ .idle := by rw [h]; simp
  refine spec_fetch (f := .distSymbol) (by simp only [fetch, h, hl])
    (walk_sat s.treeD s)
    (fun k t ht => .failed k t hi (.of_forward ht.2)) (fun v t ht => .failed _ t hi (.of_forward ht.1)) ?_
  rintro v u i ⟨hu, -⟩ hd
  rcases decodeDist_cases hd with hm | hm
  · obtain ⟨ds, hx⟩ := distInstrs_getElem? hm
    rw [exec_distInstr hx]
    refine spec_copy h hu (fun hn => by rw [hl] at hn; cases hn)
      (Res.sat_mono (distAndCopy_sat _ u) ?_ (fun _ _ h => h) id)
    rintro - t (⟨w, o, -, hn, -⟩ | ht)
    · rw [hu.lenOp_eq, hl] at hn; cases hn
    · exact ht
  · have hr : EngineMove s (raiseError .corrupt u) := .failed _ u hi (.of_forward hu)
    simp only [distResInstrs, List.mem_cons, List.not_mem_nil, or_false] at hm
    rcases hm with rfl | rfl <;> exact hr

/-- Everything an engine step can do, from any state. -/
theorem engineStep_spec (s : State) : EngineMove.Spec s (engineStep s) := by
  cases h : s.phase with
  | idle => simp only [engineStep, fetch, h]; exact .idle h
  | zhdr => exact EngineMove.spec_zlib h
  | bhdr => exact EngineMove.spec_block h
  | dynLens => exact EngineMove.spec_lens h
  | lz =>
    cases hl : s.lenOp with
    | none => exact EngineMove.spec_litlen h hl
    | some l => exact EngineMove.spec_dist h hl

end Sys2Proof.Machine
end

