-- ==== Sys2Proof/Laws/PerInstr.lean ====
section
/-! SUPPORT. Facts about every instruction, one lemma per constructor. -/

namespace Sys2Proof.Laws

/-- The selecting value of an instruction fits in the bits of its format, so the layout of a value
in whole bytes loses none of it. -/
def SelectorFits.Statement (i : Instr) : Prop := i.selector < 2 ^ i.format.bits

theorem SelectorFits.start : Statement .start := by unfold Statement; decide
theorem SelectorFits.zlibHdr (cmf flg : Byte) : Statement (.zlibHdr cmf flg) := by
  have h0 := cmf.isLt; have h1 := flg.isLt
  simp only [Statement, Instr.selector, Instr.format, Format.bits]; omega
theorem SelectorFits.blkStored (bfinal : Bool) : Statement (.blkStored bfinal) := by
  unfold Statement; cases bfinal <;> decide
theorem SelectorFits.blkFixed (bfinal : Bool) : Statement (.blkFixed bfinal) := by
  unfold Statement; cases bfinal <;> decide
theorem SelectorFits.blkDynamic (bfinal : Bool) : Statement (.blkDynamic bfinal) := by
  unfold Statement; cases bfinal <;> decide
theorem SelectorFits.blkReserved (bfinal : Bool) : Statement (.blkReserved bfinal) := by
  unfold Statement; cases bfinal <;> decide
theorem SelectorFits.lit (b : Byte) : Statement (.lit b) :=
  Nat.lt_of_lt_of_le b.isLt (by decide : 2 ^ 8 ≤ 2 ^ 9)
theorem SelectorFits.eob : Statement .eob := by unfold Statement; decide
theorem SelectorFits.len257 : Statement .len257 := by unfold Statement; decide
theorem SelectorFits.len258 : Statement .len258 := by unfold Statement; decide
theorem SelectorFits.len259 : Statement .len259 := by unfold Statement; decide
theorem SelectorFits.len260 : Statement .len260 := by unfold Statement; decide
theorem SelectorFits.len261 : Statement .len261 := by unfold Statement; decide
theorem SelectorFits.len262 : Statement .len262 := by unfold Statement; decide
theorem SelectorFits.len263 : Statement .len263 := by unfold Statement; decide
theorem SelectorFits.len264 : Statement .len264 := by unfold Statement; decide
theorem SelectorFits.len265 : Statement .len265 := by unfold Statement; decide
theorem SelectorFits.len266 : Statement .len266 := by unfold Statement; decide
theorem SelectorFits.len267 : Statement .len267 := by unfold Statement; decide
theorem SelectorFits.len268 : Statement .len268 := by unfold Statement; decide
theorem SelectorFits.len269 : Statement .len269 := by unfold Statement; decide
theorem SelectorFits.len270 : Statement .len270 := by unfold Statement; decide
theorem SelectorFits.len271 : Statement .len271 := by unfold Statement; decide
theorem SelectorFits.len272 : Statement .len272 := by unfold Statement; decide
theorem SelectorFits.len273 : Statement .len273 := by unfold Statement; decide
theorem SelectorFits.len274 : Statement .len274 := by unfold Statement; decide
theorem SelectorFits.len275 : Statement .len275 := by unfold Statement; decide
theorem SelectorFits.len276 : Statement .len276 := by unfold Statement; decide
theorem SelectorFits.len277 : Statement .len277 := by unfold Statement; decide
theorem SelectorFits.len278 : Statement .len278 := by unfold Statement; decide
theorem SelectorFits.len279 : Statement .len279 := by unfold Statement; decide
theorem SelectorFits.len280 : Statement .len280 := by unfold Statement; decide
theorem SelectorFits.len281 : Statement .len281 := by unfold Statement; decide
theorem SelectorFits.len282 : Statement .len282 := by unfold Statement; decide
theorem SelectorFits.len283 : Statement .len283 := by unfold Statement; decide
theorem SelectorFits.len284 : Statement .len284 := by unfold Statement; decide
theorem SelectorFits.len285 : Statement .len285 := by unfold Statement; decide
theorem SelectorFits.llRes286 : Statement .llRes286 := by unfold Statement; decide
theorem SelectorFits.llRes287 : Statement .llRes287 := by unfold Statement; decide
theorem SelectorFits.dist0 : Statement .dist0 := by unfold Statement; decide
theorem SelectorFits.dist1 : Statement .dist1 := by unfold Statement; decide
theorem SelectorFits.dist2 : Statement .dist2 := by unfold Statement; decide
theorem SelectorFits.dist3 : Statement .dist3 := by unfold Statement; decide
theorem SelectorFits.dist4 : Statement .dist4 := by unfold Statement; decide
theorem SelectorFits.dist5 : Statement .dist5 := by unfold Statement; decide
theorem SelectorFits.dist6 : Statement .dist6 := by unfold Statement; decide
theorem SelectorFits.dist7 : Statement .dist7 := by unfold Statement; decide
theorem SelectorFits.dist8 : Statement .dist8 := by unfold Statement; decide
theorem SelectorFits.dist9 : Statement .dist9 := by unfold Statement; decide
theorem SelectorFits.dist10 : Statement .dist10 := by unfold Statement; decide
theorem SelectorFits.dist11 : Statement .dist11 := by unfold Statement; decide
theorem SelectorFits.dist12 : Statement .dist12 := by unfold Statement; decide
theorem SelectorFits.dist13 : Statement .dist13 := by unfold Statement; decide
theorem SelectorFits.dist14 : Statement .dist14 := by unfold Statement; decide
theorem SelectorFits.dist15 : Statement .dist15 := by unfold Statement; decide
theorem SelectorFits.dist16 : Statement .dist16 := by unfold Statement; decide
theorem SelectorFits.dist17 : Statement .dist17 := by unfold Statement; decide
theorem SelectorFits.dist18 : Statement .dist18 := by unfold Statement; decide
theorem SelectorFits.dist19 : Statement .dist19 := by unfold Statement; decide
theorem SelectorFits.dist20 : Statement .dist20 := by unfold Statement; decide
theorem SelectorFits.dist21 : Statement .dist21 := by unfold Statement; decide
theorem SelectorFits.dist22 : Statement .dist22 := by unfold Statement; decide
theorem SelectorFits.dist23 : Statement .dist23 := by unfold Statement; decide
theorem SelectorFits.dist24 : Statement .dist24 := by unfold Statement; decide
theorem SelectorFits.dist25 : Statement .dist25 := by unfold Statement; decide
theorem SelectorFits.dist26 : Statement .dist26 := by unfold Statement; decide
theorem SelectorFits.dist27 : Statement .dist27 := by unfold Statement; decide
theorem SelectorFits.dist28 : Statement .dist28 := by unfold Statement; decide
theorem SelectorFits.dist29 : Statement .dist29 := by unfold Statement; decide
theorem SelectorFits.distRes30 : Statement .distRes30 := by unfold Statement; decide
theorem SelectorFits.distRes31 : Statement .distRes31 := by unfold Statement; decide
theorem SelectorFits.clLen (len : BitVec 4) : Statement (.clLen len) :=
  Nat.lt_of_lt_of_le len.isLt (by decide : 2 ^ 4 ≤ 2 ^ 5)
theorem SelectorFits.clRep16 : Statement .clRep16 := by unfold Statement; decide
theorem SelectorFits.clRep17 : Statement .clRep17 := by unfold Statement; decide
theorem SelectorFits.clRep18 : Statement .clRep18 := by unfold Statement; decide

end Sys2Proof.Laws
end

