-- ==== Sys2Proof/Tests/Slice0.lean ====
section
/-! SUPPORT. Tests on words, vectors and values of spec/, one step or one operation each, and for each
statement with hypotheses a state that meets them. Expected results are the spec's: the opcode table,
30_encoding.md, and the vectors of 95_test_vectors.md by their names. -/

open Sys2Proof Sys2Proof.Machine

namespace Sys2Proof.Tests

/-! ### Decoding (opcode table, R91, R92, R97, R103) -/

theorem test_decode_start : decodeTableWord 8 0b00000001 = some .start := by decide
theorem test_decode_ctrl_high_bits_ignored :
    decodeSel .hostCtrl 0xFFFFFFFF = .ok .start := by rfl
theorem test_decode_ctrl_without_start : decodeSel .hostCtrl 0xFFFFFFFE = .error .noStartBit := by rfl
theorem test_decode_zlib :
    decodeTableWord 16 0b0111100010011100 = some (.zlibHdr 0b01111000 0b10011100) := by decide
theorem test_decode_stored : decodeSel .blockHeader 0b000 = .ok (.blkStored false) := by rfl
theorem test_decode_fixed : decodeSel .blockHeader 0b011 = .ok (.blkFixed true) := by rfl
theorem test_decode_dynamic : decodeSel .blockHeader 0b101 = .ok (.blkDynamic true) := by rfl
theorem test_decode_reserved : decodeSel .blockHeader 0b110 = .ok (.blkReserved false) := by rfl
theorem test_decode_literal : decodeTableWord 16 0b011111111 = some (.lit 0xFF) := by decide
theorem test_decode_eob : decodeTableWord 16 0b100000000 = some .eob := by decide
theorem test_decode_len257 : decodeTableWord 16 0b100000001 = some .len257 := by decide
theorem test_decode_len285 : decodeTableWord 16 0b100011101 = some .len285 := by decide
theorem test_decode_llres287 : decodeTableWord 16 0b100011111 = some .llRes287 := by decide
theorem test_decode_symbol_288 :
    decodeSel .litlenSymbol 0b100100000 = .error (.litlenSymbolRange 288) := by rfl
theorem test_decode_dist0 : decodeSel .distSymbol 0b00000 = .ok .dist0 := by rfl
theorem test_decode_dist29 : decodeTableWord 8 0b11101 = some .dist29 := by decide
theorem test_decode_distres30 : decodeTableWord 8 0b11110 = some .distRes30 := by decide
theorem test_decode_dist_32 : decodeSel .distSymbol 0b100000 = .error (.distSymbolRange 32) := by rfl
theorem test_decode_cl15 : decodeSel .clSymbol 0b01111 = .ok (.clLen 15) := by rfl
theorem test_decode_cl18 : decodeTableWord 8 0b10010 = some .clRep18 := by decide
theorem test_decode_cl_19 : decodeSel .clSymbol 0b10011 = .error (.clSymbolRange 19) := by rfl

/-! ### Well-formedness (R104): each check refuses a term that fails only it -/

theorem test_wf_accepts : (Instr.zlibHdr 0x78 0x9C).wf = true ∧ (Instr.zlibHdr 0x08 0x1D).wf = true ∧
    (Instr.blkDynamic true).wf = true ∧ Instr.len285.wf = true ∧ Instr.dist29.wf = true := by decide
/-- ZH-10. -/
theorem test_wf_cm : (Instr.zlibHdr 0x79 0x18).wf = false := by decide
/-- ZH-9. -/
theorem test_wf_cinfo : (Instr.zlibHdr 0x88 0x1C).wf = false := by decide
/-- ZH-6. -/
theorem test_wf_fcheck : (Instr.zlibHdr 0x78 0x1C).wf = false := by decide
/-- ZH-11. -/
theorem test_wf_fdict : (Instr.zlibHdr 0x78 0xBB).wf = false := by decide
theorem test_wf_reserved_block : (Instr.blkReserved false).wf = false := by decide
theorem test_wf_reserved_symbols : Instr.llRes286.wf = false ∧ Instr.llRes287.wf = false ∧
    Instr.distRes30.wf = false ∧ Instr.distRes31.wf = false := by decide

/-! ### Small states -/

/-- A machine in phase `ph` whose input is these bytes. -/
def inState (ph : Phase) (bytes : List Byte) : State :=
  (((State.reset).setInMem (writeInBytes 0 bytes [])).setInLen (BitVec.ofNat 32 bytes.length)).setPhase
    ph

/-- Output bytes from address 0 on. -/
def withOut (bytes : List Byte) (s : State) : State :=
  (s.setOutMem (writeInBytes 0 bytes [])).setOutLen (BitVec.ofNat 32 bytes.length)

/-- A machine in phase `ph` with these stream bits, and zero bits up to the end of the last byte. -/
def bitState (ph : Phase) (bits : List Bool) : State :=
  inState ph (natToBytes ((bits.length + 7) / 8) (bitsToNat bits))

/-- The next state of a step, if it answers one. -/
def nextOf (o : Host.Outcome State Fault Refusal) : Option State :=
  match o with
  | .next t => some t
  | _ => none

/-- The value of an operation, and the cursor it leaves. -/
def valueOf {α : Type} (x : Res α) : Option (α × Word × BitVec 3) :=
  match x with
  | .ok a t => some (a, t.bytePos, t.bitOff)
  | _ => none

/-- The error of an operation, and the cursor it leaves. -/
def errorOf {α : Type} (x : Res α) : Option (ErrKind × Word × BitVec 3) :=
  match x with
  | .raise k t => some (k, t.bytePos, t.bitOff)
  | _ => none

/-- What a step leaves of the engine: PHASE, ERR, OUT_LEN and the cursor. -/
def look (o : Host.Outcome State Fault Refusal) :
    Option (Phase × Option ErrKind × Word × Word × BitVec 3) :=
  (nextOf o).map fun t => (t.phase, t.err, t.outLen, t.bytePos, t.bitOff)

/-- The output bytes a step leaves, and STATUS. -/
def output (o : Host.Outcome State Fault Refusal) : Option (Memory × Word) :=
  (nextOf o).map fun t => (t.outMem, statusWord t)

/-! ### The bit reader (vectors BR) -/

theorem test_BR_2 : valueOf (readBits 3 (inState .bhdr [0xB5, 0x01])) = some (5, 0, 3) := by decide
theorem test_BR_3 : valueOf (readBits 16 (inState .bhdr [0xB5, 0x01])) = some (0x01B5, 2, 0) := by decide
theorem test_BR_5 : valueOf (readBits 0 (inState .bhdr [])) = some (0, 0, 0) := by decide
theorem test_BR_6 : valueOf (readBits 13 ((inState .bhdr [0xFF, 0x00, 0x80]).setCursor 0 7)) =
    some (1, 2, 4) := by decide
theorem test_BR_8 : valueOf (readByte ((inState .bhdr [0xB5, 0x01]).setCursor 0 3)) =
    some (0x01, 2, 0) := by decide
theorem test_BR_10 : errorOf (readByte ((inState .bhdr [0xB5]).setCursor 0 5)) =
    some (.outOfData, 1, 0) := by decide
theorem test_BR_11 : errorOf (readBits 4 ((inState .bhdr [0xB5]).setCursor 0 5)) =
    some (.outOfData, 1, 0) := by decide
theorem test_BR_12 : errorOf (readBit (inState .bhdr [])) = some (.outOfData, 0, 0) := by decide
theorem test_BR_13 : valueOf (readBytes 3 (inState .bhdr [0x48, 0x65, 0x6C])) =
    some ([0x48, 0x65, 0x6C], 3, 0) := by decide
theorem test_BR_14 : valueOf (readBytes 0 ((inState .bhdr [0x48]).setCursor 0 3)) = some ([], 0, 3) := by
  decide

/-! ### Huffman trees (vectors HF) -/

theorem test_HF_1 : build [2, 1, 3, 3] 15 =
    some (.node (.leaf 1) (.node (.leaf 0) (.node (.leaf 2) (.leaf 3)))) := by decide
theorem test_HF_4 : build [1, 1, 1] 15 = none := by decide
theorem test_HF_8 : build [0, 0, 0] 15 = some Tree.empty := by decide
theorem test_HF_10 : ([1, 3, 4, 5].map (codeOfBits [0, 3, 0, 2, 2, 3])) =
    [[true, false, false], [false, false], [false, true], [true, false, true]] := by decide
theorem test_HF_11 : fixedTreeLL.nodes = 575 := by decide +kernel
theorem test_HF_14 : errorOf (walk (.node (.leaf 0) .absent) ((inState .lz [0x02]).setCursor 0 1)) =
    some (.corrupt, 0, 2) := by decide
theorem test_HF_15 : errorOf (walk Tree.empty (inState .lz [0x01])) = some (.corrupt, 0, 1) := by decide
theorem test_HF_16 : errorOf (walk Tree.empty (inState .lz [])) = some (.outOfData, 0, 0) := by decide

/-! ### Single steps -/

/-- W1, ZH-3: the header's step. -/
theorem test_ZH_3 : look (step (inState .zhdr [0x78, 0x9C, 0x03, 0x00])) =
    some (.bhdr, none, 0, 2, 0) := by decide
/-- ZH-11: STATUS is 0x006. -/
theorem test_ZH_11 : output (step (inState .zhdr [0x78, 0xBB, 0x03, 0x00])) = some ([], 0x006) := by
  decide
/-- ZH-13. -/
theorem test_ZH_13 : look (step (inState .zhdr [0x78])) = some (.idle, some .outOfData, 0, 1, 0) := by
  decide

/-- The stored block of BH-1, from its header on. -/
def stored : State :=
  (inState .bhdr [0x78, 0x01, 0x01, 0x05, 0x00, 0xFA, 0xFF, 0x48, 0x65, 0x6C, 0x6C, 0x6F]).setCursor 2 0

theorem test_BH_1 : output (step stored) =
    some ([(0, 0x48), (1, 0x65), (2, 0x6C), (3, 0x6C), (4, 0x6F)], 0x082) := by decide +kernel
theorem test_BH_1_cursor : look (step stored) = some (.idle, none, 5, 12, 0) := by decide +kernel
/-- BH-5. -/
theorem test_BH_5 : output (step ((inState .bhdr [0x78, 0x01, 0x07]).setCursor 2 0)) =
    some ([], 0x386) := by decide
/-- BH-9b: the cursor is past the byte that did not fit. -/
theorem test_BH_9b : look (step (stored.setOutCap 4)) =
    some (.idle, some .outOfMemory, 0, 12, 0) := by decide +kernel

/-- The length instruction of LZ-7, from its code on: `abc` is the output so far. -/
def copying : State :=
  (((withOut [0x61, 0x62, 0x63] (inState .lz [0x78, 0x9C, 0x4B, 0x4C, 0x4A, 0x06, 0x22,
    0x00])).setTreeLL fixedTreeLL).setTreeD fixedTreeD).setCursor 5 3

theorem test_LZ_7 : (output (step copying)).map (·.1) =
    some [(0, 0x61), (1, 0x62), (2, 0x63), (3, 0x61), (4, 0x62), (5, 0x63)] := by decide +kernel
/-- LZ-8: distance 4 with 3 bytes of output. -/
theorem test_LZ_8 : look (step (copying.setInMem (copying.inMem.set 6 0x62))) =
    some (.idle, some .corrupt, 0, 6, 7) := by decide +kernel
/-- LZ-26: a copy of its own bytes. -/
theorem test_LZ_26 :
    (nextOf (copy 5 2 (withOut [0x61, 0x62, 0x63] (inState .lz []))).finish).map (·.outMem) =
      some [(0, 0x61), (1, 0x62), (2, 0x63), (3, 0x62), (4, 0x63), (5, 0x62), (6, 0x63), (7, 0x62)] := by
  decide +kernel
/-- LZ-20: a literal with `OUT_CAP` 0. -/
theorem test_LZ_20 : output (exec (.lit 0x41) ((inState .lz []).setOutCap 0)) =
    some ([], 0x00E) := by decide
theorem test_eob_final : output (exec .eob ((inState .lz []).setLatches true 1)) =
    some ([], 0x182) := by decide

/-- A dynamic header's counts for `HLIT + HDIST` = 258, and the lengths so far. -/
def lensState (lens : List (BitVec 4)) (bytes : List Byte) : State :=
  (((inState .dynLens bytes).setHlit 257).setHdist 1).setLens lens

theorem test_CL_1 : (nextOf (exec (.clLen 0) (lensState [] []))).map (·.lens) = some [0] := by decide
theorem test_CL_4 : (nextOf (exec .clRep16 (lensState [1, 7] [0x03]))).map (·.lens) =
    some [1, 7, 7, 7, 7, 7, 7, 7] := by decide
theorem test_CL_6 : (nextOf (exec .clRep17 (lensState [5] [0x07]))).map (·.lens) =
    some (5 :: List.replicate 10 0) := by decide
theorem test_CL_8 : (nextOf (exec .clRep18 (lensState [5] [0x7F]))).map (·.lens) =
    some (5 :: List.replicate 138 0) := by decide +kernel
theorem test_CL_9 : look (exec .clRep16 (lensState [] [0x03])) =
    some (.idle, some .corrupt, 0, 0, 0) := by decide
theorem test_CL_10 : look (exec .clRep18 (lensState (List.replicate 250 0) [0x00])) =
    some (.idle, some .corrupt, 0, 0, 7) := by decide +kernel
/-- CL-11: the lengths are complete, and the trees are built. -/
theorem test_CL_11 : look (exec .clRep17 (lensState (List.replicate 255 0) [0x00])) =
    some (.lz, none, 0, 0, 3) := by decide +kernel
/-- DY-1: the header of program P3 gives HLIT 261, HDIST 3, HCLEN 18. -/
theorem test_DY_1_counts :
    (nextOf (step ((inState .bhdr [0x78, 0x01, 0x25, 0xC2, 0x31, 0x0D, 0x00, 0x00, 0x00, 0x83, 0x30,
      0xAD, 0x80, 0x7F, 0x0F, 0x3B, 0x96, 0x14, 0xBB, 0x01]).setCursor 2 0))).map
        (fun t => (t.phase, t.hlit, t.hdist, t.hclen)) = some (.dynLens, 261, 3, 18) := by
  decide +kernel

theorem test_start : (nextOf (exec .start ((State.reset.setCursor 3 1).setStatus true (some
    .corrupt)))).map (fun t => (statusWord t, t.bytePos, t.bitOff)) = some (0x011, 0, 0) := by decide

/-- R66: a register write of 8 bytes has no effect. -/
theorem test_wide_register_write_ignored :
    (nextOf (hostStep (.regWrite 0x08 8 5) State.reset)).map (·.inLen) = some 0 := by decide
/-- R72, R66: a big-endian access of 2 bytes at the platform address of byte 3 of `IN_MEM`. -/
theorem test_big_endian_write_by_platform_address :
    (nextOf (hostStep (.busWrite 0x23 2 0x78DA) (State.resetWith
      { Params.default with regBase := 0x1000, inBase := 0x20, inMemSize := 16, hostBigEndian := true
        }))).map (·.inMem) = some [(3, 0x78), (4, 0xDA)] := by decide
/-- R72: the first address past every space of the default placement. -/
theorem test_no_space_at_address :
    hostStep (.busRead 0x2FFFFFFFF 1) State.reset = .fault (.busAddr 0x2FFFFFFFF) := by rfl

/-! ### Witnesses: for each statement with hypotheses, states and operands that meet them -/

/-- A decidable form of the premises about the input, unfolded. -/
abbrev Within (s : State) (n : Nat) : Prop :=
  ((s.inRace = [] ∧ s.outRace = []) ∧ s.inLen ≤ s.params.inMemSize ∧ s.outCap ≤ s.params.outMemSize ∧
    s.pos ≤ 8 * s.inLen.toNat) ∧ s.pos + n ≤ 8 * s.inLen.toNat

theorem Within.readable {s : State} {n : Nat} (h : Within s n) : s.Readable n := h

theorem Within.quiet {s : State} (h : Within s 0) : s.Quiet := h.1

/-- The premises about an input that is too short by at least one bit. -/
abbrev Beyond (s : State) (n : Nat) : Prop :=
  ((s.inRace = [] ∧ s.outRace = []) ∧ s.inLen ≤ s.params.inMemSize ∧ s.outCap ≤ s.params.outMemSize ∧
    s.pos ≤ 8 * s.inLen.toNat) ∧ 8 * s.inLen.toNat < s.pos + n

theorem Beyond.short {s : State} {n : Nat} (h : Beyond s n) : s.Short n := h

theorem witness_DecodeEncodeAgree :
    decodeBytes .zlibHeader [0x78, 0x9C, 0xFF] = .ok (.zlibHdr 0x78 0x9C) ∧
      decodeBytes .hostCtrl [0x01, 0x00, 0x00, 0x80] = .ok .start ∧
        decodeBytes .distSymbol [0x1F] = .ok .distRes31 := by decide

/-- A machine in PHASE LZ with the fixed trees and these stream bits. -/
def lzState (bits : List Bool) : State :=
  ((bitState .lz bits).setTreeLL fixedTreeLL).setTreeD fixedTreeD

theorem witness_FixedLitlenCodeFetched :
    (lzState (fixedLitlenBits 0)).phase = .lz ∧ (lzState (fixedLitlenBits 0)).lenOp = none ∧
      (lzState (fixedLitlenBits 0)).treeLL = fixedTreeLL ∧
        (∀ sym ∈ [0, 143, 144, 255, 256, 279, 280, 287],
          (lzState (fixedLitlenBits sym)).Readable (fixedLitlenCode sym).1 ∧
            (lzState (fixedLitlenBits sym)).streamBits (lzState (fixedLitlenBits sym)).pos
              (fixedLitlenCode sym).1 = fixedLitlenBits sym) ∧
          (lzState (codeBits 9 0x1FF)).Readable 9 := by
  refine ⟨rfl, rfl, by unfold lzState; rw [State.setTreeD_treeLL, State.setTreeLL_treeLL], ?_,
    Within.readable (by decide)⟩
  intro sym h
  simp only [List.mem_cons, List.not_mem_nil, or_false] at h
  rcases h with rfl | rfl | rfl | rfl | rfl | rfl | rfl | rfl <;>
    exact ⟨Within.readable (by decide), by decide⟩
theorem witness_FixedLitlenCodeFetched_instructions :
    decodeSel .litlenSymbol 0 = .ok (.lit 0) ∧ decodeSel .litlenSymbol 143 = .ok (.lit 0x8F) ∧
      decodeSel .litlenSymbol 144 = .ok (.lit 0x90) ∧ decodeSel .litlenSymbol 255 = .ok (.lit 0xFF) ∧
        decodeSel .litlenSymbol 256 = .ok .eob ∧ decodeSel .litlenSymbol 279 = .ok .len279 ∧
          decodeSel .litlenSymbol 280 = .ok .len280 ∧ decodeSel .litlenSymbol 287 = .ok .llRes287 :=
  ⟨rfl, rfl, rfl, rfl, rfl, rfl, rfl, rfl⟩

theorem witness_FixedDistanceCodeFetched : ∀ d ∈ [0, 29, 30, 31],
    (bitState .lz (fixedDistBits d)).Readable 5 ∧ d < 32 ∧
      (bitState .lz (fixedDistBits d)).streamBits (bitState .lz (fixedDistBits d)).pos 5 =
        fixedDistBits d := by
  intro d h
  simp only [List.mem_cons, List.not_mem_nil, or_false] at h
  rcases h with rfl | rfl | rfl | rfl <;> exact ⟨Within.readable (by decide), by decide, by decide⟩

/-- Two bytes of input, the cursor at the last bit of the first or of the second. -/
def two (bp : Word) (bo : BitVec 3) : State := (inState .bhdr [0xB5, 0x01]).setCursor bp bo

theorem witness_ReadBitResult : (two 2 0).inLen ≤ (two 2 0).bytePos ∧
    ((two 1 7).inRace = [] ∧ (two 1 7).inLen ≤ (two 1 7).params.inMemSize ∧
      (two 1 7).bytePos < (two 1 7).inLen) := by decide
theorem witness_ReadBitsResult : (two 0 3).Readable 13 ∧ (two 0 3).Short 14 ∧ (13 : Nat) ≤ 32 ∧
    32 < (33 : Nat) := ⟨Within.readable (by decide), Beyond.short (by decide), by decide, by decide⟩
theorem witness_ReadByteResult : (two 0 3).Quiet ∧ (two 0 3).alignedByte < (two 0 3).inLen.toNat ∧
    (two 1 3).Quiet ∧ (two 1 3).inLen.toNat ≤ (two 1 3).alignedByte :=
  ⟨Within.quiet (by decide), by decide, Within.quiet (by decide), by decide⟩
theorem witness_ReadBytesResult : (two 0 0).Quiet ∧
    (two 0 0).alignedByte + (1 + 1) ≤ (two 0 0).inLen.toNat ∧
      (two 0 0).inLen.toNat < (two 0 0).alignedByte + (2 + 1) :=
  ⟨Within.quiet (by decide), by decide, by decide⟩
theorem witness_ReaderNeverBackward : (two 2 0).pos ≤ 8 * (two 2 0).inLen.toNat := by decide

theorem witness_BuildFailsIffOverSubscribed :
    (∀ l ∈ [1, 15, 1], l ≤ 15) ∧ build [1, 1, 1] 15 = none ∧ build [1, 1, 0] 15 ≠ none ∧
      HasCode [1, 1, 0] 0 ∧ HasCode [1, 1, 0] 1 ∧ (0 : Nat) ≠ 1 := by
  refine ⟨by decide, by decide, by decide, ⟨by decide, by decide⟩, ⟨by decide, by decide⟩, by decide⟩
/-- HF-14 and HF-15: the tree of one symbol, with a symbol, an absent path, and no bit. -/
theorem witness_DecodeIsPrefixCode : (∀ l ∈ [1], l ≤ 15) ∧
    build [1] 15 = some (.node (.leaf 0) .absent) ∧ (inState .lz [0x02]).Quiet ∧
      HasCode [1] 0 ∧ (inState .lz [0x02]).Readable 1 ∧
        (inState .lz [0x02]).streamBits (inState .lz [0x02]).pos 1 = codeOfBits [1] 0 ∧
          (∃ t, walk (.node (.leaf 0) .absent) ((inState .lz [0x02]).setCursor 0 1) =
            .raise .corrupt t) ∧
            ∃ t, walk (.node (.leaf 0) .absent) (inState .lz []) = .raise .outOfData t :=
  ⟨by decide, by decide, Within.quiet (by decide), ⟨by decide, by decide⟩, Within.readable (by decide),
    by decide, ⟨_, rfl⟩, ⟨_, rfl⟩⟩
theorem witness_TreeNodeBound : build [1, 2, 15] 15 ≠ none ∧ (∀ l ∈ List.replicate 288 15, l ≤ 15) ∧
    (List.replicate 288 15).length ≤ 288 ∧ build (List.replicate 288 15) 15 ≠ none := by
  refine ⟨by decide, by decide +kernel, by decide +kernel, by decide +kernel⟩

theorem witness_StartResult : State.reset.phase = .idle ∧ (inState .zhdr []).phase ≠ .idle := by decide
theorem witness_ZlibHdrResult :
    ((0x78#8).toNat % 16 = 8 ∧ (0x78#8).toNat / 16 ≤ 7 ∧
      ((0x78#8).toNat * 256 + (0x9C#8).toNat) % 31 = 0 ∧ (0x9C#8).getLsbD 5 = false) ∧
    (0x79#8).toNat % 16 ≠ 8 ∧ 7 < (0x88#8).toNat / 16 ∧
      ((0x78#8).toNat * 256 + (0x1C#8).toNat) % 31 ≠ 0 ∧ (0xBB#8).getLsbD 5 = true := by decide
theorem witness_ZlibHdrStep :
    (∀ s ∈ [inState .zhdr [0x78], inState .zhdr [0x78, 0x9C], inState .zhdr [0x78, 0xBB]],
      s.phase = .zhdr ∧ Within s 0 ∧ s.pos = 0) ∧
    (inState .zhdr [0x78]).inLen.toNat < 2 ∧ 2 ≤ (inState .zhdr [0x78, 0x9C]).inLen.toNat := by
  decide

theorem witness_BlockHeaderStep :
    (two 1 5).phase = .bhdr ∧ (two 1 5).Readable 3 ∧ (two 1 6).phase = .bhdr ∧ (two 1 6).Short 3 :=
  ⟨rfl, Within.readable (by decide), rfl, Beyond.short (by decide)⟩
/-- The block of BH-1, with the output just large enough, and the empty block of BH-3. -/
theorem witness_StoredBlockResult :
    (∀ s ∈ [((stored.setCursor 2 3).setOutCap 5, 5),
        ((inState .bhdr [0x01, 0x00, 0x00, 0xFF, 0xFF]).setCursor 0 3, 0)],
      Within s.1 0 ∧
        s.2 = (s.1.inByte s.1.alignedByte).toNat + 256 * (s.1.inByte (s.1.alignedByte + 1)).toNat ∧
        (s.1.inByte (s.1.alignedByte + 2)).toNat + 256 * (s.1.inByte (s.1.alignedByte + 3)).toNat =
          s.2 ^^^ 0xFFFF ∧
        s.1.alignedByte + 4 + s.2 ≤ s.1.inLen.toNat ∧ s.1.outLen.toNat + s.2 ≤ s.1.outCap.toNat) := by
  decide +kernel
/-- BH-9a; BH-8; BH-9; BH-9 with an output just as short; BH-9b. -/
theorem witness_StoredBlockErrors :
    (∀ s ∈ [((inState .bhdr [0x78, 0x01, 0x01, 0x05]).setCursor 2 3)],
      Within s 0 ∧ s.outLen ≤ s.outCap ∧ s.inLen.toNat < s.alignedByte + 4) ∧
    (∀ s ∈ [(inState .bhdr [0x78, 0x01, 0x01, 0x05, 0x00, 0x00, 0x00]).setCursor 2 3],
      Within s 0 ∧ s.outLen ≤ s.outCap ∧ s.alignedByte + 4 ≤ s.inLen.toNat ∧
        (s.inByte (s.alignedByte + 2)).toNat + 256 * (s.inByte (s.alignedByte + 3)).toNat ≠
          ((s.inByte s.alignedByte).toNat + 256 * (s.inByte (s.alignedByte + 1)).toNat) ^^^ 0xFFFF) ∧
    (∀ s ∈ [(stored.setCursor 2 3).setInLen 9, ((stored.setCursor 2 3).setInLen 9).setOutCap 2,
        (stored.setCursor 2 3).setOutCap 4],
      Within s 0 ∧ s.outLen ≤ s.outCap ∧ s.alignedByte + 4 ≤ s.inLen.toNat ∧
        (s.inByte (s.alignedByte + 2)).toNat + 256 * (s.inByte (s.alignedByte + 3)).toNat =
          ((s.inByte s.alignedByte).toNat + 256 * (s.inByte (s.alignedByte + 1)).toNat) ^^^ 0xFFFF) ∧
    (∀ s ∈ [(stored.setCursor 2 3).setInLen 9, ((stored.setCursor 2 3).setInLen 9).setOutCap 2],
      s.inLen.toNat - (s.alignedByte + 4) < 5 ∧
        s.inLen.toNat - (s.alignedByte + 4) ≤ s.outCap.toNat - s.outLen.toNat) ∧
    (∀ s ∈ [(stored.setCursor 2 3).setOutCap 4],
      s.outCap.toNat - s.outLen.toNat < 5 ∧
        s.outCap.toNat - s.outLen.toNat < s.inLen.toNat - (s.alignedByte + 4)) := by
  decide +kernel

/-- A dynamic header after its 3 bits: the count fields, then the 3-bit code-length lengths. -/
def dynState (hlit hdist hclen : Nat) (cl : List Nat) : State :=
  bitState .bhdr (fieldBits 5 hlit ++ fieldBits 5 hdist ++ fieldBits 4 hclen ++
    cl.flatMap (fieldBits 3))

/-- The largest counts with a code for symbols 18 and 0, and the smallest ones with all 19 lengths. -/
theorem witness_DynamicHeaderResult :
    (∀ s ∈ [(dynState 29 29 0 [0, 0, 1, 1], 286, 30, 4),
        (dynState 0 0 15 (List.replicate 13 0 ++ [3, 3, 3, 3, 3, 3]), 257, 1, 19)],
      s.2.1 = s.1.streamField s.1.pos 5 + 257 ∧ s.2.2.1 = s.1.streamField (s.1.pos + 5) 5 + 1 ∧
        s.2.2.2 = s.1.streamField (s.1.pos + 10) 4 + 4 ∧ Within s.1 (14 + 3 * s.2.2.2) ∧
          s.2.1 ≤ 286 ∧ s.2.2.1 ≤ 30 ∧ build (dynClLens s.1 (s.1.pos + 14) s.2.2.2) 7 ≠ none) := by
  decide +kernel
theorem witness_DynamicHeaderErrors :
    Beyond ((dynState 29 29 0 []).setInLen 1) 14 ∧
    (Within (dynState 30 29 0 []) 14 ∧
      286 < (dynState 30 29 0 []).streamField (dynState 30 29 0 []).pos 5 + 257) ∧
    (Within (dynState 29 30 0 []) 14 ∧
      30 < (dynState 29 30 0 []).streamField ((dynState 29 30 0 []).pos + 5) 5 + 1) ∧
    (Within (dynState 29 29 0 []) 14 ∧ Beyond (dynState 29 29 0 []) (14 + 3 * 4)) ∧
    (Within (dynState 29 29 0 [1, 1, 1, 1]) (14 + 3 * 4) ∧
      build (dynClLens (dynState 29 29 0 [1, 1, 1, 1])
        ((dynState 29 29 0 [1, 1, 1, 1]).pos + 14) 4) 7 = none) := by
  decide +kernel

theorem witness_EobResult : ((inState .lz []).setLatches true 1).bfinal = true ∧
    (inState .lz []).bfinal = false := by decide
theorem witness_LiteralResult :
    ((inState .lz []).setOutCap 1).outCap ≤ (inState .lz []).params.outMemSize ∧
      ((inState .lz []).setOutCap 1).outLen < ((inState .lz []).setOutCap 1).outCap ∧
        ((inState .lz []).setOutCap 0).outCap ≤ ((inState .lz []).setOutCap 0).outLen := by decide

/-- One output byte, and room for exactly `n` more. -/
def oneOut (n : Nat) (s : State) : State := (withOut [0x41] s).setOutCap (BitVec.ofNat 32 (1 + n))

theorem defined_one {s : State} (h : s.outMem = [(0, 0x41)]) : s.Defined 1 1 := by
  intro a _ h1
  obtain rfl : a = 0 := by omega
  rw [h]; rfl

theorem witness_CopyReplicates : (oneOut 10 (inState .lz [])).outRace = [] ∧
    1 ≤ (oneOut 10 (inState .lz [])).outLen.toNat ∧
      (oneOut 10 (inState .lz [])).outLen.toNat + 10 ≤ (oneOut 10 (inState .lz [])).outCap.toNat ∧
        (oneOut 10 (inState .lz [])).outCap ≤ (oneOut 10 (inState .lz [])).params.outMemSize ∧
          (oneOut 10 (inState .lz [])).Defined 1 1 :=
  ⟨rfl, by decide, by decide, by decide, defined_one rfl⟩

/-- A length instruction's operands: extra bits `x`, then the one-bit code of distance symbol `ds`,
then extra bits `y`. -/
def lenState (idx x ds y : Nat) : State :=
  (bitState .lz (fieldBits (lextAt idx) x ++ [false] ++ fieldBits (dextAt ds) y)).setTreeD
    (.node (.leaf ds) .absent)

/-- LEN_257 with DIST_0, and LEN_284 + 31 with DIST_0: the copy fits exactly. -/
theorem witness_LengthInstrResult :
    lenInstrs[0]? = some .len257 ∧ lenInstrs[27]? = some .len284 ∧ lenInstrs[28]? = some .len285 ∧
    (∀ q ∈ [(0, 0, 3), (27, 31, 258), (28, 0, 258)], ∀ s ∈ [oneOut q.2.2 (lenState q.1 q.2.1 0 0)],
      Within s (lextAt q.1 + 1 + dextAt 0) ∧
        s.treeD.find (s.streamBits (s.pos + lextAt q.1) 1) = some 0 ∧
          s.distAt 0 (s.pos + lextAt q.1 + 1) = 1 ∧ 1 ≤ s.outLen.toNat ∧
            s.outLen.toNat + s.lenAt q.1 = s.outCap.toNat) ∧
    (oneOut 3 (lenState 0 0 0 0)).Defined 1 1 :=
  ⟨rfl, rfl, rfl, by decide +kernel, defined_one rfl⟩
theorem witness_LengthInstrErrors :
    Beyond (inState .lz []) (lextAt 27) ∧
    (Within (inState .lz [0x00]) (lextAt 0) ∧
      ∃ t, walk (inState .lz [0x00]).treeD
        ((inState .lz [0x00]).atPos ((inState .lz [0x00]).pos + lextAt 0)) = .raise .corrupt t) ∧
    (∀ s ∈ [lenState 0 0 30 0, lenState 0 0 29 8191],
      Within s (lextAt 0 + 1) ∧ (s.treeD.find (s.streamBits (s.pos + lextAt 0) 1)).isSome = true) ∧
    Beyond ((lenState 0 0 29 8191).setInLen 1) (lextAt 0 + 1 + dextAt 29) ∧
    (Within (lenState 0 0 29 8191) (lextAt 0 + 1 + dextAt 29) ∧
      (lenState 0 0 29 8191).outLen.toNat < (lenState 0 0 29 8191).distAt 29 1) ∧
    (Within (oneOut 2 (lenState 0 0 0 0)) (lextAt 0 + 1 + dextAt 0) ∧
      (oneOut 2 (lenState 0 0 0 0)).distAt 0 1 ≤ (oneOut 2 (lenState 0 0 0 0)).outLen.toNat ∧
        (oneOut 2 (lenState 0 0 0 0)).outCap.toNat <
          (oneOut 2 (lenState 0 0 0 0)).outLen.toNat + (oneOut 2 (lenState 0 0 0 0)).lenAt 0) := by
  refine ⟨by decide +kernel, ⟨by decide +kernel, _, rfl⟩, by decide +kernel, by decide +kernel,
    by decide +kernel, by decide +kernel⟩

/-- `n` output bytes counted, and a length of 3 in flight. -/
def distState (ds y n : Nat) : State :=
  ((bitState .lz (fieldBits (dextAt ds) y)).setOutLen (BitVec.ofNat 32 n)).setLenOp (some 3)

theorem witness_DistanceInstrInLength :
    distInstrs[0]? = some .dist0 ∧ distInstrs[29]? = some .dist29 ∧
    (∀ s ∈ [(oneOut 3 (inState .lz [])).setLenOp (some 3)], s.lenOp = some 3 ∧ Within s (dextAt 0) ∧
      s.distAt 0 s.pos = 1 ∧ 1 ≤ s.outLen.toNat ∧ s.outLen.toNat + (3#9).toNat ≤ s.outCap.toNat) ∧
    ((oneOut 3 (inState .lz [])).setLenOp (some 3)).Defined 1 1 ∧
    (∀ s ∈ [distState 29 8191 32768], Within s (dextAt 29) ∧ s.distAt 29 s.pos = 32768 ∧
      32768 ≤ s.outLen.toNat) :=
  ⟨rfl, rfl, by decide +kernel, defined_one rfl, by decide +kernel⟩
theorem witness_DistanceInstrAlone : (inState .lz []).lenOp = none ∧
    (∀ s ∈ [(distState 29 8191 32768).setLenOp none],
      s.lenOp = none ∧ Within s (dextAt 29) ∧ s.distAt 29 s.pos ≤ s.outLen.toNat) ∧
    (∀ s ∈ [(distState 29 8191 32767).setLenOp none],
      s.lenOp = none ∧ Within s (dextAt 29) ∧ s.outLen.toNat < s.distAt 29 s.pos) ∧
    Beyond (inState .lz [0xFF]) (dextAt 29) := by decide +kernel
theorem witness_ReservedSymbolsResult : Instr.llRes286 ∈ llResInstrs ∧ Instr.llRes287 ∈ llResInstrs ∧
    Instr.distRes30 ∈ distResInstrs ∧ Instr.distRes31 ∈ distResInstrs := by decide
theorem witness_OperandRanges : (28 : Nat) < 29 ∧ (29 : Nat) < 30 ∧
    Within (inState .lz [0x1F]) 5 ∧ (inState .lz [0x1F]).streamField (inState .lz [0x1F]).pos 5 = 31 := by
  decide

/-- `n` lengths filled of 258. -/
def filled (n : Nat) (bytes : List Byte) : State := lensState (List.replicate n 7) bytes

theorem witness_ClLenResult :
    (filled 256 []).lens.length + 1 < (filled 256 []).hlit.toNat + (filled 256 []).hdist.toNat := by
  decide +kernel
/-- Each repeat ends exactly at the last slot, and one slot before it. -/
theorem witness_ClRepeatResult :
    (filled 252 [0x03]).lens.getLast? = some 7 ∧
    (∀ q ∈ [(filled 252 [0x03], 2, 3), (filled 248 [0x07], 3, 3), (filled 120 [0x7F], 7, 11)],
      Within q.1 q.2.1 ∧ q.1.lens.length + (q.2.2 + q.1.streamField q.1.pos q.2.1) =
        q.1.hlit.toNat + q.1.hdist.toNat) ∧
    (∀ q ∈ [(filled 251 [0x03], 2, 3), (filled 247 [0x07], 3, 3), (filled 119 [0x7F], 7, 11)],
      q.1.lens.length + (q.2.2 + q.1.streamField q.1.pos q.2.1) <
        q.1.hlit.toNat + q.1.hdist.toNat) := by decide +kernel
theorem witness_ClRepeatErrors :
    (lensState [] []).lens = [] ∧ (filled 253 [0x03]).lens ≠ [] ∧
    (∀ q ∈ [(filled 253 [], 2), (filled 249 [], 3), (filled 121 [], 7)], Beyond q.1 q.2) ∧
    (∀ q ∈ [(filled 253 [0x03], 2, 3), (filled 249 [0x07], 3, 3), (filled 121 [0x7F], 7, 11)],
      Within q.1 q.2.1 ∧ q.1.hlit.toNat + q.1.hdist.toNat <
        q.1.lens.length + (q.2.2 + q.1.streamField q.1.pos q.2.1)) := by decide +kernel
/-- The literal/length and the distance lengths of a complete header. -/
theorem witness_BlockTreesBuilt :
    (∀ q ∈ [(List.replicate 256 0 ++ [1] ++ [1], true, true), (List.replicate 257 1 ++ [1], false, true)],
      ∀ s ∈ [lensState q.1 []],
      s.lens.length = s.hlit.toNat + s.hdist.toNat ∧ s.hlit.toNat ≤ 288 ∧ s.hdist.toNat ≤ 30 ∧
        (build ((List.range 288).map
          (fun i => if i < s.hlit.toNat then (s.lens.getD i 0).toNat else 0)) 15).isSome = q.2.1 ∧
        (build ((List.range 30).map
          (fun i => if i < s.hdist.toNat then (s.lens.getD (s.hlit.toNat + i) 0).toNat else 0))
            15).isSome = q.2.2) := by decide +kernel

theorem witness_FetchErrorEndsCommand :
    ((inState .dynLens [0x00]).Quiet ∧ (inState .dynLens [0x00]).phase = .dynLens ∧
      ∃ t, walk (inState .dynLens [0x00]).treeCL (inState .dynLens [0x00]) = .raise .corrupt t) ∧
    ((inState .lz []).Quiet ∧ (inState .lz []).phase = .lz ∧ (inState .lz []).lenOp = none ∧
      ∃ t, walk (inState .lz []).treeLL (inState .lz []) = .raise .outOfData t) ∧
    ((inState .zhdr [0x78]).Quiet ∧ (inState .zhdr [0x78]).phase = .zhdr ∧
      (inState .zhdr [0x78]).inLen.toNat < (inState .zhdr [0x78]).alignedByte + 2) :=
  ⟨⟨Within.quiet (by decide), rfl, _, rfl⟩, ⟨Within.quiet (by decide), rfl, rfl, _, rfl⟩,
    Within.quiet (by decide), rfl, by decide⟩

theorem witness_RegisterReads : (0x20 : Nat) ≤ 0x24 ∧ 0x24 % 4 = 0 ∧
    0xFFF < State.reset.params.regWindow := by decide
theorem witness_RegisterWrites : State.reset.phase = .idle ∧ (inState .lz []).phase ≠ .idle ∧
    (1#32).getLsbD 0 = true ∧ (0xFFFFFFFE#32).getLsbD 0 = false ∧ (0x04 : Nat) ≠ 0x00 ∧
      (0x04 : Nat) ≠ 0x08 ∧ (0x04 : Nat) ≠ 0x0C ∧ 0xFFF < State.reset.params.regWindow := by decide
/-- Narrower, wider, misaligned. -/
theorem witness_BadRegisterAccess : (2 : Nat) ≠ 4 ∧ (8 : Nat) ≠ 4 ∧ 0x09 % 4 ≠ 0 := by decide
/-- The last word of the memory, and its last byte. -/
theorem witness_HostLoadsInput : State.reset.phase = .idle ∧
    0xFFFFFFFB + 4 ≤ State.reset.params.inMemSize.toNat ∧ State.reset.params.Legal ∧
      0xFFFFFFFE < State.reset.params.inMemSize.toNat := by decide
/-- The result; the last byte of the input, while a command runs; each end of a placed memory. -/
theorem witness_HostReadsResult :
    (∀ s ∈ [((withOut [0x41] State.reset).setStatus true none)], s.phase = .idle ∧ s.done = true ∧
      s.err = none ∧ s.outRace = [] ∧ 0 < s.outLen.toNat ∧ s.outLen ≤ s.params.outMemSize ∧
        s.outMem.get 0 = some 0x41) ∧
    (∀ s ∈ [inState .lz [0x41]], 0xFFFFFFFE + 1 ≤ s.params.inMemSize.toNat ∧
      raceAt s.inRace 0xFFFFFFFE = [] ∧ s.params.Legal ∧ 0xFFFFFFFE < s.params.memSize .inMem ∧
        0 < s.params.memSize .outMem) := by decide
theorem witness_InputRaceDraws : (inState .lz [0x41]).phase ≠ .idle ∧ (inState .lz [0x41]).inRace = [] ∧
    0 < (inState .lz [0x41]).params.inMemSize.toNat ∧
      ∃ t, hostStep (.memWrite .inMem 0 1 0x42) (inState .lz [0x41]) = .next t :=
  ⟨by decide, rfl, by decide, _, rfl⟩

/-- A code of one bit for symbol `sym` in every tree, and a zero bit to read it. -/
def symState (ph : Phase) (sym : Nat) : State :=
  (((bitState ph [false]).setTreeLL (.node (.leaf sym) .absent)).setTreeD
    (.node (.leaf sym) .absent)).setTreeCL (.node (.leaf sym) .absent)

theorem witness_StepRunsDecodedInstruction :
    State.reset.hostQ = [] ∧ (State.reset.setHostQ [.engine]).hostQ = .engine :: [] ∧
    ((State.reset.setHostQ [.regWrite 0 4 1]).hostQ = .regWrite 0 4 1 :: [] ∧
      decodeSel .hostCtrl 1 = .ok .start) ∧
    ((inState .zhdr [0x78, 0x9C]).phase = .zhdr ∧ (inState .zhdr [0x78, 0x9C]).Quiet ∧
      (inState .zhdr [0x78, 0x9C]).alignedByte + 2 ≤ (inState .zhdr [0x78, 0x9C]).inLen.toNat ∧
        decodeBytes .zlibHeader [(inState .zhdr [0x78, 0x9C]).inByte 0,
          (inState .zhdr [0x78, 0x9C]).inByte 1] = .ok (.zlibHdr 0x78 0x9C)) ∧
    ((two 1 5).phase = .bhdr ∧ (two 1 5).Readable 3 ∧
      decodeSel .blockHeader ((two 1 5).streamField (two 1 5).pos 3) = .ok (.blkStored false)) ∧
    ((symState .dynLens 18).phase = .dynLens ∧ (symState .dynLens 18).Readable 1 ∧
      (symState .dynLens 18).treeCL.find ((symState .dynLens 18).streamBits 0 1) = some 18 ∧
        decodeSel .clSymbol 18 = .ok .clRep18) ∧
    ((symState .lz 287).phase = .lz ∧ (symState .lz 287).lenOp = none ∧
      (symState .lz 287).Readable 1 ∧
        (symState .lz 287).treeLL.find ((symState .lz 287).streamBits 0 1) = some 287 ∧
          decodeSel .litlenSymbol 287 = .ok .llRes287) ∧
    ((symState .lz 31).treeD.find ((symState .lz 31).streamBits 0 1) = some 31 ∧
      ((symState .lz 31).setLenOp (some 258)).lenOp = some 258 ∧
        ((symState .lz 31).setLenOp (some 258)).Readable 1 ∧
          decodeSel .distSymbol 31 = .ok .distRes31) :=
  ⟨rfl, rfl, ⟨rfl, by decide⟩, ⟨rfl, Within.quiet (by decide), by decide, by decide⟩,
    ⟨rfl, Within.readable (by decide), rfl⟩, ⟨rfl, Within.readable (by decide), by decide, rfl⟩,
    ⟨rfl, rfl, Within.readable (by decide), by decide, rfl⟩,
    ⟨by decide, rfl, Within.readable (by decide), rfl⟩⟩

theorem witness_OutputInstrFrame : Instr.len285 ∈ lenInstrs ∧ Instr.dist29 ∈ distInstrs ∧
    (∃ t, exec (.lit 0xFF) (inState .lz []) = .next t) ∧
      (nextOf (exec .len257 (oneOut 3 (lenState 0 0 0 0)))).isSome = true ∧
        (nextOf (exec .dist29 (inState .lz []))).isSome = true ∧
          (∃ t, exec .llRes286 (inState .lz []) = .next t) ∧
            ∃ t, exec .distRes31 (inState .lz []) = .next t :=
  ⟨by decide, by decide, ⟨_, rfl⟩, by decide +kernel, by decide +kernel, ⟨_, rfl⟩, ⟨_, rfl⟩⟩
theorem witness_StoredBlockFrame :
    (nextOf (exec (.blkStored true) (stored.setCursor 2 3))).isSome = true := by decide +kernel
theorem witness_HeaderInstrFrame :
    (nextOf (exec (.blkDynamic true) (dynState 29 29 0 [0, 0, 1, 1]))).isSome = true ∧
      (nextOf (exec (.clLen 15) (filled 0 []))).isSome = true ∧
        (nextOf (exec .clRep16 (filled 252 [0x03]))).isSome = true ∧
          (nextOf (exec .clRep17 (filled 252 [0x03]))).isSome = true ∧
            (nextOf (exec .clRep18 (filled 9 [0x7F]))).isSome = true := by decide +kernel

/-- A running command that meets the invariant: after a literal, with an end-of-block to come. -/
def running : State :=
  (withOut [0x41] (inState .lz [0x73, 0x04, 0x00])).setTreeLL (.node (.leaf 0x42) (.leaf 256))

theorem running_inv : running.Inv where
  params := by decide
  memWf := by unfold Memory.wf; decide
  bounds := by decide
  capacity := by decide
  cursor := by decide
  status := by decide
  operands := by decide
  clLens := by decide
  header := by decide
  output a h := by
    obtain rfl : a = 0 := by
      have : a < 1 := h
      omega
    rfl
  roots := by decide

theorem witness_EngineKeepsInput : (nextOf (engineStep running)).isSome = true ∧
    (nextOf (engineStep (inState .bhdr []))).isSome = true := by decide
theorem witness_LatchesKeptOutsideHeaders : running.phase ≠ .bhdr ∧
    (nextOf (engineStep running)).isSome = true := by decide
theorem witness_OnlyStartLeavesIdle :
    ∀ op ∈ [HostOp.regWrite 0 4 1, .busWrite 0 4 1], (State.reset.setHostQ [op]).phase = .idle ∧
      (nextOf (step (State.reset.setHostQ [op]))).map (·.phase) = some .zhdr := by decide
theorem witness_CursorMonotone : running.Inv ∧ running.busy = true ∧
    ∃ t, engineStep running = .next t := ⟨running_inv, rfl, _, rfl⟩
theorem witness_OutputAppendOnly : running.Inv ∧ running.busy = true ∧
    (nextOf (engineStep (running.setCursor 0 2))).map (·.err) = some none ∧
      (nextOf (engineStep running)).map (fun t => (t.err, t.blkCnt)) = some (none, 1) :=
  ⟨running_inv, rfl, by decide, by decide⟩
theorem witness_ResetMeetsInvariant : Params.default.Legal := by decide
theorem witness_StepKeepsInvariant : running.Inv ∧ ∃ t, step running = .next t :=
  ⟨running_inv, _, rfl⟩
/-- With a host access pending: the last byte of `IN_MEM`, by its space and by its platform address. -/
theorem witness_StepNeverStops : running.Inv ∧
    ((running.setHostQ [.memRead .inMem 0xFFFFFFFE 1]).hostQ = [.memRead .inMem 0xFFFFFFFE 1]) ∧
      (HostOp.memRead .inMem 0xFFFFFFFE 1).inRange running.params ∧
        (HostOp.busRead 0x1FFFFFFFE 1).inRange running.params :=
  ⟨running_inv, rfl, by unfold HostOp.inRange; decide,
    by change 0xFFFFFFFE + 1 ≤ running.params.memSize .inMem; decide⟩
theorem witness_CommandTerminates : running.Inv ∧ running.hostQ = [] ∧ running.busy = true :=
  ⟨running_inv, rfl, rfl⟩
theorem witness_UnreadInputIrrelevant : running.Quiet ∧ running.Inv ∧ running.busy = true ∧
    (nextOf (engineStep running)).map (fun t => (t.err, t.pos)) = some (none, 1) ∧ 1 ≤ 8 * 1 ∧
      1 ≤ running.inLen.toNat ∧ 1 ≤ (1#32).toNat ∧ 1#32 ≤ running.params.inMemSize ∧
        ∀ a, a < 1 → (running.setInMem [(0, 0x73), (1, 0xFF)]).inByte a = running.inByte a := by
  refine ⟨Within.quiet (by decide), running_inv, rfl, by decide, by decide, by decide, by decide,
    by decide, fun a h => ?_⟩
  obtain rfl : a = 0 := by omega
  rfl

end Sys2Proof.Tests
end

section
/-! SUPPORT. The host's register block (10_state.md R27 to R35): the fields of the STATUS word, what a
write of each register does, and the obligations about them. -/

namespace Sys2Proof.Machine

variable {s : State}

theorem busy_eq_decide (s : State) : s.busy = decide (s.phase ≠ .idle) := by
  unfold State.busy
  cases s.phase <;> rfl

theorem busy_eq_false_of_idle (h : s.phase = .idle) : s.busy = false := by
  simp [busy_eq_decide, h]

theorem busy_eq_true_of_not_idle (h : s.phase ≠ .idle) : s.busy = true := by
  simp [busy_eq_decide, h]

/-! ### The fields of STATUS (R28) -/

/-- The one-bit fields: BUSY, DONE and BFINAL. -/
theorem statusWord_flags (s : State) : (statusWord s).getLsbD 0 = s.busy ∧
    (statusWord s).getLsbD 1 = s.done ∧ (statusWord s).getLsbD 7 = s.bfinal := by
  simp only [statusWord, BitVec.getLsbD_append]
  simp

/-- STATUS at the width that its fields add up to, as the library's lemmas about `++` have it. -/
theorem statusWord_extractLsb' (i n : Nat) (s : State) : (statusWord s).extractLsb' i n =
    BitVec.extractLsb' (n := 22 + 2 + 1 + 3 + 2 + 1 + 1) i n (0#22 ++ s.btype ++
      BitVec.ofBool s.bfinal ++ s.phase.code ++ errCode s.err ++ BitVec.ofBool s.done ++
        BitVec.ofBool s.busy) := rfl

/-- The wider fields: each is reached past the fields to its right, and cut off those to its left. -/
theorem statusWord_fields (s : State) : (statusWord s).extractLsb' 2 2 = errCode s.err ∧
    (statusWord s).extractLsb' 4 3 = s.phase.code ∧ (statusWord s).extractLsb' 8 2 = s.btype ∧
      (statusWord s).extractLsb' 10 22 = 0#22 := by
  simp only [statusWord_extractLsb', BitVec.extractLsb'_append_eq_of_le, Nat.reduceLeDiff,
    Nat.reduceSub, BitVec.extractLsb'_append_eq_right, BitVec.extractLsb'_eq_self, and_self]

/-! ### Writes of the register block -/

/-- A write of CTRL is START or nothing (R27). -/
theorem regWrite_ctrl (v : Word) (s : State) :
    regWrite 0x00 v s = if v.getLsbD 0 then exec .start s else .next s := by
  have hd : decodeSel .hostCtrl v.toNat = if v.getLsbD 0 then .ok .start else .error .noStartBit := by
    rw [decodeSel, decodeCtrl, if_neg (Nat.not_le.2 v.isLt), BitVec.testBit_toNat]
  simp only [regWrite, hd]
  cases v.getLsbD 0 <;> rfl

theorem exec_start_of_busy (h : s.busy = true) : exec .start s = .next s := if_pos h

/-- While a command runs no register write has an effect (R29, R30, R443, R446). -/
theorem regWrite_of_busy (h : s.busy = true) (off : Nat) (v : Word) : regWrite off v s = .next s := by
  by_cases h0 : off = 0x00
  · rw [h0, regWrite_ctrl, exec_start_of_busy h, ite_self]
  · unfold regWrite
    split
    · exact absurd rfl h0
    · rw [if_pos h]
    · rw [if_pos h]
    · rfl

/-- A register other than CTRL, IN_LEN and OUT_CAP is read-only (R35). -/
theorem regWrite_of_readOnly {off : Nat} (h0 : off ≠ 0x00) (h8 : off ≠ 0x08) (hC : off ≠ 0x0C)
    (v : Word) (s : State) : regWrite off v s = .next s := by
  unfold regWrite
  split
  · exact absurd rfl h0
  · exact absurd rfl h8
  · exact absurd rfl hC
  · rfl

theorem hostStep_regWrite_word {off : Nat} (h : off % 4 = 0) (v : Word) (s : State) :
    hostStep (.regWrite off 4 v.toNat) s = regWrite off v s := by
  have hok : regAccessOk off 4 = true := by simp [regAccessOk, h]
  change (if regAccessOk off 4 then _ else _) = _
  rw [if_pos hok, BitVec.ofNat_toNat, BitVec.setWidth_eq]

/-- A register that ignores words ignores an access of any width (R66). -/
theorem hostStep_regWrite_ignored {off : Nat} (h : ∀ v, regWrite off v s = .next s) (n v : Nat) :
    hostStep (.regWrite off n v) s = .next s := by
  change (if regAccessOk off n then _ else _) = _
  rw [h, ite_self]

/-- The window of the register block at its platform address (R35, R72). -/
theorem hostStep_busWrite_reg {off : Nat} (h : off < s.params.regWindow) (n v : Nat) :
    hostStep (.busWrite (s.params.regBase + off) n v) s = hostStep (.regWrite off n v) s := by
  have hr : s.params.route (s.params.regBase + off) = some (.reg off) := Params.route_reg h
  simp only [hostStep, hr]

/-! ### The obligations -/

/-- Settles O39, field by field (R28); the read is by computation, the write is that of a read-only
register. -/
theorem statusFields : Obligations.StatusFields := by
  intro s
  obtain ⟨hbusy, hdone, hbfinal⟩ := statusWord_flags s
  obtain ⟨herr, hphase, hbtype, hzero⟩ := statusWord_fields s
  refine ⟨hbusy.trans (busy_eq_decide s), hdone, herr.trans ?err, hphase.trans ?phase, hbfinal,
    hbtype, hzero, rfl, ?write⟩
  case err =>
    rcases s.err with _ | _ | _ | _ <;> rfl
  case phase =>
    cases s.phase <;> rfl
  case write =>
    have hro : ∀ v, regWrite 0x04 v s = .next s := fun v =>
      regWrite_of_readOnly (by decide) (by decide) (by decide) v s
    exact hostStep_regWrite_ignored hro 4

/-- Settles O41: one clause per register, and the writes that are ignored (R35, R443). -/
theorem registerWrites : Obligations.RegisterWrites := by
  intro s v
  refine ⟨?inLen, ?outCap, ?start, ?noStart, ?readOnly, ?busy, fun off n w h =>
    hostStep_busWrite_reg h n w⟩
  case inLen =>
    intro hi
    rw [hostStep_regWrite_word rfl, regWrite, busy_eq_false_of_idle hi]
    rfl
  case outCap =>
    intro hi
    rw [hostStep_regWrite_word rfl, regWrite, busy_eq_false_of_idle hi]
    rfl
  case start =>
    intro hb
    rw [hostStep_regWrite_word rfl, regWrite_ctrl, if_pos hb]
  case noStart =>
    intro hb
    rw [hostStep_regWrite_word rfl, regWrite_ctrl, hb]
    rfl
  case readOnly =>
    intro off h0 h8 hC
    exact hostStep_regWrite_ignored (fun w => regWrite_of_readOnly h0 h8 hC w s) 4 v.toNat
  case busy =>
    intro hp off n w
    exact hostStep_regWrite_ignored (regWrite_of_busy (busy_eq_true_of_not_idle hp) off) n w

end Sys2Proof.Machine
end

section
/-! SUPPORT. The codes of a fixed block (30_encoding.md R100, R101): the codes R145 gives for the fixed
lengths are those of the tables in R100 and R101, and the obligations about reading them. -/

namespace Sys2Proof.Machine

variable {s : State}

/-! ### Every bit string is a code -/

theorem codeBits_congr {n a b : Nat} (h : ∀ i, i < n → a.testBit i = b.testBit i) :
    codeBits n a = codeBits n b := by
  induction n with
  | zero => rfl
  | succ n ih => rw [codeBits, codeBits, h n n.lt_add_one, ih fun i hi => h i (Nat.lt_succ_of_lt hi)]

/-- Every bit string is the code, most significant bit first, of one number of its length (R62). -/
theorem exists_codeBits_eq (bs : List Bool) : ∃ c, c < 2 ^ bs.length ∧ codeBits bs.length c = bs := by
  induction bs with
  | nil => exact ⟨0, by simp, rfl⟩
  | cons b bs ih =>
    obtain ⟨c, hc, hbs⟩ := ih
    have hbit := Nat.testBit_two_pow_mul_add b.toNat hc
    refine ⟨2 ^ bs.length * b.toNat + c, ?_, ?_⟩
    · cases b <;> simp [Nat.pow_succ] <;> omega
    · have hlow : codeBits bs.length (2 ^ bs.length * b.toNat + c) = bs :=
        (codeBits_congr fun i hi => by rw [hbit, if_pos hi]).trans hbs
      rw [List.length_cons, codeBits, hlow, hbit, if_neg (Nat.lt_irrefl _)]
      cases b <;> simp

/-- The first `n` of the next `n + d` stream bits are the high bits of their code. -/
theorem State.streamBits_of_codeBits {n d k c : Nat} (h : s.streamBits k (n + d) = codeBits (n + d) c) :
    s.streamBits k n = codeBits n (c / 2 ^ d) := by
  rw [← codeBits_take, ← h, State.streamBits_append, List.take_left' (s.streamBits_length k n)]

/-! ### Built trees, and paths without a leaf -/

/-- A length set within the code space has a tree (R144), so a constant defined by `getD` is it. -/
theorem build_eq_some_getD {lengths : List Nat} {maxbits : Nat} (hm : ∀ l ∈ lengths, l ≤ maxbits)
    (hk : kraftSum lengths maxbits ≤ 2 ^ maxbits) :
    build lengths maxbits = some ((build lengths maxbits).getD Tree.empty) := by
  obtain ⟨t, ht⟩ := Option.ne_none_iff_exists'.1 (mt (build_eq_none_iff hm).1 (Nat.not_lt.2 hk))
  rw [ht, Option.getD_some]

/-- The walk where no leaf stands on the path of the next bits, above it or below it (R149). -/
theorem walk_corrupt_of_free {t : Tree} {n : Nat} (h : s.Readable n) (hn : n ≠ 0) (hlive : t.Live)
    (hfree : t.Free (s.streamBits s.pos n)) :
    ∃ m, m ≤ n ∧ walk t s = .raise .corrupt (s.atPos (s.pos + m)) := by
  refine walk_corrupt h ?absent fun m hm => ?leafless
  case absent =>
    by_contra hat
    have hne : s.streamBits s.pos n ≠ [] := fun e => hn (by simpa using congrArg List.length e)
    obtain ⟨cs, sym, hsym⟩ := hlive _ hne hat
    exact (hfree _ sym hsym).2 (List.prefix_append _ cs)
  case leafless =>
    obtain ⟨d, rfl⟩ := Nat.exists_eq_add_of_le hm
    refine Option.eq_none_iff_forall_ne_some.2 fun sym hsym => (hfree _ sym hsym).1 ?_
    rw [State.streamBits_append]
    exact List.prefix_append _ _

/-! ### The fixed literal/length code (R100) -/

theorem fixedLLLens_length : fixedLLLens.length = 288 := by
  simp only [fixedLLLens, List.length_append, List.length_replicate]

theorem fixedLLLens_le {l : Nat} (h : l ∈ fixedLLLens) : l ≤ Config.maxBits := by
  simp only [fixedLLLens, List.mem_append, List.mem_replicate] at h
  unfold Config.maxBits
  omega

/-- The fixed literal/length lengths use up the code space. -/
theorem kraftSum_fixedLLLens : kraftSum fixedLLLens Config.maxBits = 2 ^ Config.maxBits := by
  simp [kraftSum, fixedLLLens, Config.maxBits, -List.reduceReplicate]

theorem build_fixedLLLens : build fixedLLLens Config.maxBits = some fixedTreeLL :=
  build_eq_some_getD (fun _ => fixedLLLens_le) kraftSum_fixedLLLens.le

theorem fixedLLLens_getD {sym : Nat} (h : sym < 288) :
    fixedLLLens.getD sym 0 = (fixedLitlenCode sym).1 := by
  simp only [fixedLLLens, fixedLitlenCode, List.getD_eq_getElem?_getD, List.getElem?_append,
    List.getElem?_replicate, List.length_append, List.length_replicate]
  split_ifs <;> simp <;> omega

/-- How many of the first `k` symbols have a code of length `l`. -/
theorem count_take_fixedLLLens (k l : Nat) : (fixedLLLens.take k).count l =
    (if l = 8 then min k 144 + min (k - 280) 8 else 0) + (if l = 9 then min (k - 144) 112 else 0) +
      if l = 7 then min (k - 256) 24 else 0 := by
  simp only [fixedLLLens, List.take_append, List.take_replicate, List.count_append,
    List.count_replicate, List.length_append, List.length_replicate, beq_iff_eq]
  split_ifs <;> omega

theorem count_fixedLLLens (l : Nat) : fixedLLLens.count l =
    if l = 8 then 152 else if l = 9 then 112 else if l = 7 then 24 else 0 := by
  have h := count_take_fixedLLLens 288 l
  rw [List.take_of_length_le fixedLLLens_length.le] at h
  rw [h]
  split_ifs <;> omega

/-- The first code of each length (R143). -/
theorem firstCode_fixedLLLens : firstCode fixedLLLens 7 = 0 ∧ firstCode fixedLLLens 8 = 0x30 ∧
    firstCode fixedLLLens 9 = 0x190 := by
  simp [firstCode, codeCount, count_fixedLLLens]

/-- The code that R145 gives a symbol is the one of the table in R100. -/
theorem codeOf_fixedLLLens {sym : Nat} (h : sym < 288) :
    codeOf fixedLLLens sym = (fixedLitlenCode sym).2 := by
  obtain ⟨h7, h8, h9⟩ := firstCode_fixedLLLens
  rw [codeOf, fixedLLLens_getD h, count_take_fixedLLLens]
  unfold fixedLitlenCode
  split_ifs <;> simp [h7, h8, h9] <;> omega

theorem hasCode_fixedLLLens {sym : Nat} (h : sym < 288) : HasCode fixedLLLens sym := by
  refine ⟨by rwa [fixedLLLens_length], ?_⟩
  rw [fixedLLLens_getD h]
  unfold fixedLitlenCode
  split_ifs <;> simp

theorem fixedTreeLL_find {sym : Nat} (h : sym < 288) :
    fixedTreeLL.find (fixedLitlenBits sym) = some sym := by
  obtain ⟨hfind, -, -⟩ := build_spec (fun _ => fixedLLLens_le) build_fixedLLLens
  refine (hfind _ _).2 ⟨hasCode_fixedLLLens h, ?_⟩
  rw [fixedLitlenBits, codeOfBits, fixedLLLens_getD h, codeOf_fixedLLLens h]

/-! ### The rows of R100's table cover every path -/

theorem fixedLitlenCode_lit8 {k : Nat} (h : k < 144) : fixedLitlenCode k = (8, 0x30 + k) := by
  rw [fixedLitlenCode, if_pos h]

theorem fixedLitlenCode_lit9 {k : Nat} (h : k < 112) :
    fixedLitlenCode (144 + k) = (9, 0x190 + k) := by
  rw [fixedLitlenCode, if_neg (by omega), if_pos (by omega), Nat.add_sub_cancel_left]

theorem fixedLitlenCode_len7 {k : Nat} (h : k < 24) : fixedLitlenCode (256 + k) = (7, k) := by
  rw [fixedLitlenCode, if_neg (by omega), if_neg (by omega), if_pos (by omega),
    Nat.add_sub_cancel_left]

theorem fixedLitlenCode_len8 {k : Nat} : fixedLitlenCode (280 + k) = (8, 0xC0 + k) := by
  rw [fixedLitlenCode, if_neg (by omega), if_neg (by omega), if_neg (by omega),
    Nat.add_sub_cancel_left]

/-- Some code of R100 is the high bits of any 9-bit `c`: the four rows leave none out. -/
theorem exists_fixedLitlenCode_prefix {c : Nat} (hc : c < 2 ^ 9) : ∃ sym d, sym < 288 ∧
    (fixedLitlenCode sym).1 + d = 9 ∧ (fixedLitlenCode sym).2 = c / 2 ^ d := by
  rcases Nat.lt_or_ge c 0x60 with h | h60
  · refine ⟨256 + c / 4, 2, by omega, ?_⟩
    rw [fixedLitlenCode_len7 (by omega)]
    exact ⟨rfl, rfl⟩
  rcases Nat.lt_or_ge c 0x180 with h | h180
  · refine ⟨c / 2 - 0x30, 1, by omega, ?_⟩
    rw [fixedLitlenCode_lit8 (by omega)]
    exact ⟨rfl, by dsimp only; omega⟩
  rcases Nat.lt_or_ge c 0x190 with h | h190
  · refine ⟨280 + (c / 2 - 0xC0), 1, by omega, ?_⟩
    rw [fixedLitlenCode_len8]
    exact ⟨rfl, by dsimp only; omega⟩
  · refine ⟨144 + (c - 0x190), 0, by omega, ?_⟩
    rw [fixedLitlenCode_lit9 (by omega)]
    exact ⟨rfl, by dsimp only; omega⟩

/-! ### Fetching a literal/length symbol -/

theorem rowAt_isOk_iff {rows : List Instr} {k : Nat} {r : Reject} :
    (∃ i, rowAt rows k r = .ok i) ↔ k < rows.length := by
  unfold rowAt
  rcases Nat.lt_or_ge k rows.length with h | h
  · simp [h]
  · simp [Nat.not_lt.2 h]

/-- The literal/length symbols are those below 288 (R97, R200). -/
theorem decodeLitlen_isOk_iff {v : Nat} : (∃ i, decodeSel .litlenSymbol v = .ok i) ↔ v < 288 := by
  rw [decodeSel, decodeLitlen]
  split
  · next h => exact ⟨fun _ => by omega, fun _ => ⟨_, rfl⟩⟩
  · split
    · next h => exact ⟨fun _ => by omega, fun _ => ⟨_, rfl⟩⟩
    · rw [rowAt_isOk_iff, show (lenInstrs ++ llResInstrs).length = 31 from rfl]
      omega

/-- The fetch in a fixed or dynamic block where the next bits lead to a symbol's leaf (R97, R148). -/
theorem fetch_litlen {n sym : Nat} {i : Instr} (hp : s.phase = .lz) (hl : s.lenOp = none)
    (hi : decodeSel .litlenSymbol sym = .ok i) (hr : s.Readable n)
    (hf : s.treeLL.find (s.streamBits s.pos n) = some sym) :
    fetch s = some (.ok i (s.atPos (s.pos + n))) := by
  simp only [fetch, hp, hl, walk_ok hr hf, select, Res.ok_bind, hi]

/-! ### The fixed distance code (R101) -/

theorem fixedDLens_le {l : Nat} (h : l ∈ fixedDLens) : l ≤ Config.maxBits :=
  (List.eq_of_mem_replicate h).trans_le (by decide)

theorem build_fixedDLens : build fixedDLens Config.maxBits = some fixedTreeD :=
  build_eq_some_getD (fun _ => fixedDLens_le) (by decide)

theorem fixedDLens_getD {d : Nat} (h : d < 30) : fixedDLens.getD d 0 = 5 := by
  rw [fixedDLens, List.getD_replicate _ h]

theorem hasCode_fixedDLens {d : Nat} : HasCode fixedDLens d ↔ d < 30 :=
  ⟨fun h => by simpa [fixedDLens] using h.1, fun h => ⟨by simpa [fixedDLens] using h, by
    rw [fixedDLens_getD h]; decide⟩⟩

theorem codeOfBits_fixedDLens {d : Nat} (h : d < 30) : codeOfBits fixedDLens d = fixedDistBits d := by
  have hfirst : firstCode fixedDLens 5 = 0 := by decide
  have hcount : (fixedDLens.take d).count 5 = d := by
    rw [fixedDLens, List.take_replicate, List.count_replicate_self, Nat.min_eq_left h.le]
  rw [codeOfBits, codeOf, fixedDLens_getD h, hfirst, hcount, Nat.zero_add, fixedDistBits]

theorem fixedTreeD_find {bs : List Bool} {d : Nat} :
    fixedTreeD.find bs = some d ↔ d < 30 ∧ bs = fixedDistBits d := by
  obtain ⟨hfind, -, -⟩ := build_spec (fun _ => fixedDLens_le) build_fixedDLens
  rw [hfind, hasCode_fixedDLens]
  exact and_congr_right fun h => by rw [codeOfBits_fixedDLens h]

theorem fixedTreeD_live : fixedTreeD.Live :=
  (build_spec (fun _ => fixedDLens_le) build_fixedDLens).2.1

theorem fixedDistBits_inj {d e : Nat} (hd : d < 32) (he : e < 32)
    (h : fixedDistBits d = fixedDistBits e) : d = e := codeBits_inj hd he h

/-- Since every code of the fixed distance tree has 5 bits, a 5-bit path that is none of them meets no
leaf. -/
theorem fixedTreeD_free {d : Nat} (hd : 30 ≤ d) (hd' : d < 32) : fixedTreeD.Free (fixedDistBits d) := by
  intro cs e he
  obtain ⟨hlt, rfl⟩ := fixedTreeD_find.1 he
  have hlen : (fixedDistBits e).length = (fixedDistBits d).length := by simp [fixedDistBits]
  have hne : fixedDistBits e ≠ fixedDistBits d := fun h => by
    have := fixedDistBits_inj (by omega) hd' h
    omega
  exact ⟨fun h => hne (h.eq_of_length hlen), fun h => hne (h.eq_of_length hlen.symm).symm⟩

/-! ### The obligations -/

/-- Settles O3: the fixed tree finds the code of R100, and the ranges of R100 cover all 9-bit paths. -/
theorem fixedLitlenCodeFetched : Obligations.FixedLitlenCodeFetched := by
  intro s hp hl ht
  refine ⟨?fetched, ?complete⟩
  case fetched =>
    intro sym i hi hr hbits
    refine fetch_litlen hp hl hi hr ?_
    rw [ht, hbits]
    exact fixedTreeLL_find (decodeLitlen_isOk_iff.1 ⟨i, hi⟩)
  case complete =>
    intro _
    obtain ⟨c, hc, hbits⟩ := exists_codeBits_eq (s.streamBits s.pos 9)
    rw [State.streamBits_length] at hc hbits
    obtain ⟨sym, d, hsym, hlen, hcode⟩ := exists_fixedLitlenCode_prefix hc
    obtain ⟨i, hi⟩ := decodeLitlen_isOk_iff.2 hsym
    rw [← hlen] at hbits
    exact ⟨sym, i, hi, by rw [fixedLitlenBits, hcode, State.streamBits_of_codeBits hbits.symm]⟩

/-- Settles O4: the tree finds the 5-bit codes below 30, and on the paths 30 and 31 no leaf. -/
theorem fixedDistanceCodeFetched : Obligations.FixedDistanceCodeFetched := by
  intro s d hr hd hbits
  refine ⟨fun h => walk_ok hr ?_, fun h => ?_⟩
  · rw [hbits]
    exact fixedTreeD_find.2 ⟨h, rfl⟩
  · have hfree : fixedTreeD.Free (s.streamBits s.pos 5) := hbits ▸ fixedTreeD_free h hd
    obtain ⟨m, -, hw⟩ := walk_corrupt_of_free hr (by decide) fixedTreeD_live hfree
    exact ⟨_, hw, CursorOnly.setCursor s _ _⟩

end Sys2Proof.Machine
end

section
/-! SUPPORT. The obligations about the bit reader (41_bit_reader.md R130 to R134). What each operation
reads and what it can do from any state stands in the reader's laws above; here are the cases those
leave out: a bit read that asks for no more than its own byte, and a read too wide for `ReadBits`. -/

namespace Sys2Proof.Machine

variable {s : State}

/-- A byte that is there and that nothing has raced reads as the memory holds it (R70). -/
theorem readIn_eq_ok {a : Nat} (hrace : s.inRace = []) (ha : a < s.params.inMemSize.toNat) :
    readIn a s = .ok (s.inByte a) s := by
  rw [readIn, if_neg (Nat.not_le.2 ha), hrace]
  rfl

/-- `ReadBit` before the end of the input, by the cursor's own fields: unlike `readBit_ok` it asks
nothing of the output (R130). -/
theorem readBit_eq_ok (hrace : s.inRace = []) (hmem : s.inLen ≤ s.params.inMemSize)
    (hlt : s.bytePos < s.inLen) :
    readBit s = .ok ((s.inByte s.bytePos.toNat).getLsbD s.bitOff.toNat) s.stepBit := by
  have ha : s.bytePos.toNat < s.params.inMemSize.toNat := Nat.lt_of_lt_of_le hlt hmem
  rw [readBit, if_neg (BitVec.not_le.2 hlt), readIn_eq_ok hrace ha, Res.ok_bind]

/-- `ReadBits(0)` reads nothing, even at the end of the input (R131). -/
theorem readBits_zero (s : State) : readBits 0 s = .ok 0 s := rfl

/-- A field wider than `READBITS_MAX` is refused (R131, D35). -/
theorem readBits_tooWide {n : Nat} (hn : 32 < n) (s : State) :
    readBits n s = .refused (.readBitsTooWide n) := if_pos hn

/-- An operation that only goes forward leaves the cursor, on success and on failure, no earlier than
it was and within the input (R26, R134). -/
theorem Res.sat_onward {α : Type} {R : α → State → Prop} {S : Prop} {x : Res α}
    (h : x.sat (fun a t => Forward s t ∧ R a t) (fun k t => k = .outOfData ∧ Forward s t) S)
    (hs : s.InInput) :
    x.sat (fun _ t => s.pos ≤ t.pos ∧ t.InInput) (fun _ t => s.pos ≤ t.pos ∧ t.InInput) True :=
  Res.sat_mono h (fun _ _ ⟨hf, _⟩ => hf.2 hs) (fun _ _ ⟨_, hf⟩ => hf.2 hs) fun _ => trivial

/-! ### The obligations -/

/-- Settles O7: the field is there, is too short, is empty, or is too wide to be asked for. -/
theorem readBitsResult : Obligations.ReadBitsResult := by
  intro s n
  refine ⟨?read, fun hn hshort => readBits_short hn hshort, readBits_zero s,
    fun hn => readBits_tooWide hn s⟩
  case read =>
    intro hn hr
    exact ⟨_, readBits_ok hn hr, s.streamField_lt s.pos n, fun _ hi => s.testBit_streamField hi⟩

/-- Settles O9: all the bytes are there, or the first missing one raises OutOfData. -/
theorem readBytesResult : Obligations.ReadBytesResult := fun _ n =>
  ⟨rfl, fun hq hb => readBytes_ok hq n.succ_pos hb, fun hq hb => readBytes_short hq n.succ_pos hb⟩

/-- Settles O10: each operation is a forward read, and a read of more than 32 bits leaves no state. -/
theorem readerNeverBackward : Obligations.ReaderNeverBackward := by
  intro s n hs
  refine ⟨Res.sat_onward (readBit_sat s) hs, ?bits, Res.sat_onward (readByte_sat s) hs,
    Res.sat_onward (readBytes_sat n s) hs⟩
  case bits =>
    rcases Nat.lt_or_ge 32 n with hwide | hn
    · rw [readBits_tooWide hwide]
      trivial
    · exact Res.sat_onward (readBits_sat hn s) hs

/-- Settles O6: the read is `readBit_eq_ok`, and the two ways `stepBit` moves the cursor are those of
R130. -/
theorem readBitResult : Obligations.ReadBitResult := by
  intro s
  refine ⟨fun hend => readBit_end ((State.bytePos_lt_iff s).1 hend), fun hrace hmem hlt => ?_⟩
  rw [readBit_eq_ok hrace hmem hlt]
  rfl

/-- Settles O8: a whole byte is left past the alignment, or none is. -/
theorem readByteResult : Obligations.ReadByteResult := fun _ hq =>
  ⟨fun hb => readByte_ok hq hb, fun hb => readByte_end hq hb⟩

end Sys2Proof.Machine
end

section
/-! SUPPORT. The obligations about the canonical Huffman code (42_huffman.md R144, R150, R152). What a
built tree finds and what the walk does where the next bits are known stands in the laws above; here
are the check of R144 length by length, the node count of a built tree, and that the walk has no
outcome but those three. -/

namespace Sys2Proof.Machine

variable {s u : State} {t : Tree} {lengths : List Nat} {maxbits : Nat}

/-! ### The outcomes of `Build` -/

/-- `Build` fails by the check of R144 alone. -/
theorem build_eq_none_iff_overSubscribed :
    build lengths maxbits = none ↔ overSubscribed lengths maxbits = true := by
  rw [build]
  split
  · next h => exact iff_of_true rfl h
  · next h => exact iff_of_false (Option.some_ne_none _) h

/-- A built tree is what the insertion loop leaves (R146). -/
theorem insertCodes_eq_of_build (h : build lengths maxbits = some t) :
    insertCodes lengths 0 ((List.range (maxbits + 1)).map (firstCode lengths)) Tree.empty = t := by
  rw [build] at h
  split at h
  · cases h
  · exact Option.some.inj h

/-- The check of R144 fails at some length: the model counts the lengths from 0. -/
theorem overSubscribed_iff_exists : overSubscribed lengths maxbits = true ↔
    ∃ l, 1 ≤ l ∧ l ≤ maxbits ∧ 2 ^ l < firstCode lengths l + codeCount lengths l := by
  simp only [overSubscribed, List.any_eq_true, List.mem_range, decide_eq_true_eq]
  constructor
  · rintro ⟨l, hl, hover⟩
    exact ⟨l + 1, l.succ_pos, hl, hover⟩
  · rintro ⟨l, hpos, hl, hover⟩
    obtain ⟨l, rfl⟩ := Nat.exists_eq_add_of_le' hpos
    exact ⟨l, hl, hover⟩

/-- The root, and at most one new node per code bit (R152). -/
theorem nodes_le_of_build (h : build lengths maxbits = some t) : t.nodes ≤ 1 + lengths.sum := by
  rw [← insertCodes_eq_of_build h]
  exact insertCodes_nodes lengths 0 _ Tree.empty rfl

/-- At most 288 lengths of at most 15 add up to less than `TREE_NODE_CAP` (R7, R152). -/
theorem one_add_sum_le_treeNodeCap (hl : ∀ l ∈ lengths, l ≤ 15) (hn : lengths.length ≤ 288) :
    1 + lengths.sum ≤ Config.treeNodeCap := by
  have hsum : lengths.sum ≤ lengths.length * 15 := List.sum_le_card_nsmul lengths 15 hl
  unfold Config.treeNodeCap
  omega

/-! ### The outcomes of the walk -/

/-- The path `bs` ends inside the path of some leaf, short of the leaf. -/
def Tree.Inside (t : Tree) (bs : List Bool) : Prop :=
  ∃ cs sym, t.find cs = some sym ∧ bs <+: cs ∧ bs ≠ cs

/-- Inside the path of a leaf stands an internal node. -/
theorem Tree.Inside.at_isNode {bs : List Bool} (h : t.Inside bs) : (t.at bs).isNode = true := by
  obtain ⟨_, sym, hfind, ⟨ds, rfl⟩, hne⟩ := h
  rw [Tree.find_append] at hfind
  have hds : ds ≠ [] := by
    rintro rfl
    exact hne (List.append_nil _).symm
  obtain ⟨d, ds, rfl⟩ := List.exists_cons_of_ne_nil hds
  cases hat : t.at bs with
  | node c0 c1 => rfl
  | leaf y => simp [hat, Tree.find] at hfind
  | absent => simp [hat] at hfind

/-- A path that is neither free nor inside the path of a leaf reaches a leaf or goes past one. -/
theorem Tree.exists_find_prefix {bs : List Bool} (hfree : ¬ t.Free bs) (hin : ¬ t.Inside bs) :
    ∃ cs sym, t.find cs = some sym ∧ cs <+: bs := by
  unfold Tree.Free at hfree
  push Not at hfree
  obtain ⟨cs, sym, hfind, hpre⟩ := hfree
  by_cases h : cs <+: bs
  · exact ⟨cs, sym, hfind, h⟩
  · have heq : bs = cs := not_not.1 fun hne => hin ⟨cs, sym, hfind, hpre h, hne⟩
    exact ⟨cs, sym, hfind, heq ▸ List.prefix_rfl⟩

/-- A beginning of the next `n` bits is itself the next bits, as many as it is long. -/
theorem State.eq_streamBits_of_prefix {cs : List Bool} {k n : Nat} (h : cs <+: s.streamBits k n) :
    cs.length ≤ n ∧ cs = s.streamBits k cs.length := by
  have hle : cs.length ≤ n := s.streamBits_length k n ▸ h.length_le
  obtain ⟨d, rfl⟩ := Nat.exists_eq_add_of_le hle
  rw [State.streamBits_append] at h
  exact ⟨hle, (List.prefix_of_prefix_length_le h (List.prefix_append _ _) (by simp)).eq_of_length
    (by simp)⟩

/-- The walk where every readable beginning of the stream ends inside a code: it runs out of input
(R148). -/
theorem walk_outOfData (hq : s.Quiet) (hnode : t.isNode = true)
    (hin : ∀ n, 1 ≤ n → s.Readable n → t.Inside (s.streamBits s.pos n)) :
    walk t s = .raise .outOfData (s.setCursor s.inLen 0) := by
  obtain ⟨n, hn⟩ := Nat.exists_eq_add_of_le hq.pos_le
  refine walk_short hq hn.symm ?_
  rcases Nat.eq_zero_or_pos n with rfl | hpos
  · rwa [State.streamBits, Tree.at_nil]
  · exact (hin n hpos ⟨hq, hn.ge⟩).at_isNode

/-- Everything the walk does from a quiet state (R148, R149): the next bits lead to a leaf, or leave
every path of a leaf, or the input ends first. -/
theorem walk_trichotomy (hq : s.Quiet) (hlive : t.Live) (hnode : t.isNode = true) :
    (∃ n sym, s.Readable n ∧ t.find (s.streamBits s.pos n) = some sym ∧
      walk t s = .ok sym (s.atPos (s.pos + n))) ∨
    (∃ n u, 1 ≤ n ∧ s.Readable n ∧ t.Free (s.streamBits s.pos n) ∧ walk t s = .raise .corrupt u) ∨
    ((∀ n, 1 ≤ n → s.Readable n → t.Inside (s.streamBits s.pos n)) ∧
      walk t s = .raise .outOfData (s.setCursor s.inLen 0)) := by
  by_cases hin : ∀ n, 1 ≤ n → s.Readable n → t.Inside (s.streamBits s.pos n)
  · exact .inr (.inr ⟨hin, walk_outOfData hq hnode hin⟩)
  push Not at hin
  obtain ⟨n, hpos, hr, hin⟩ := hin
  by_cases hfree : t.Free (s.streamBits s.pos n)
  · obtain ⟨m, -, hw⟩ := walk_corrupt_of_free hr (Nat.pos_iff_ne_zero.1 hpos) hlive hfree
    exact .inr (.inl ⟨n, _, hpos, hr, hfree, hw⟩)
  · obtain ⟨cs, sym, hfind, hpre⟩ := Tree.exists_find_prefix hfree hin
    obtain ⟨hle, heq⟩ := State.eq_streamBits_of_prefix hpre
    rw [heq] at hfind
    exact .inl ⟨cs.length, sym, hr.mono hle, hfind, walk_ok (hr.mono hle) hfind⟩

/-- The walk returns a symbol exactly when the next bits lead to its leaf. -/
theorem walk_eq_ok_iff (hq : s.Quiet) (hlive : t.Live) (hnode : t.isNode = true) {sym : Nat} :
    walk t s = .ok sym u ↔ ∃ n, s.Readable n ∧ t.find (s.streamBits s.pos n) = some sym ∧
      u = s.atPos (s.pos + n) := by
  constructor
  · intro hw
    rcases walk_trichotomy hq hlive hnode with
      ⟨n, sym', hr, hfind, hw'⟩ | ⟨_, _, _, _, _, hw'⟩ | ⟨_, hw'⟩
    · obtain ⟨rfl, rfl⟩ := Res.ok.inj (hw'.symm.trans hw)
      exact ⟨n, hr, hfind, rfl⟩
    · cases hw'.symm.trans hw
    · cases hw'.symm.trans hw
  · rintro ⟨n, hr, hfind, rfl⟩
    exact walk_ok hr hfind

/-- The walk fails with Corrupt exactly when some readable bits leave every path of a leaf. -/
theorem walk_corrupt_iff (hq : s.Quiet) (hlive : t.Live) (hnode : t.isNode = true) :
    (∃ u, walk t s = .raise .corrupt u) ↔
      ∃ n, 1 ≤ n ∧ s.Readable n ∧ t.Free (s.streamBits s.pos n) := by
  constructor
  · rintro ⟨u, hw⟩
    rcases walk_trichotomy hq hlive hnode with
      ⟨_, _, _, _, hw'⟩ | ⟨n, _, hpos, hr, hfree, _⟩ | ⟨_, hw'⟩
    · cases hw'.symm.trans hw
    · exact ⟨n, hpos, hr, hfree⟩
    · cases hw'.symm.trans hw
  · rintro ⟨n, hpos, hr, hfree⟩
    obtain ⟨m, -, hw⟩ := walk_corrupt_of_free hr (Nat.pos_iff_ne_zero.1 hpos) hlive hfree
    exact ⟨_, hw⟩

/-- The walk fails with OutOfData exactly when no readable bits reach a leaf or leave its path. -/
theorem walk_outOfData_iff (hq : s.Quiet) (hlive : t.Live) (hnode : t.isNode = true) :
    (∃ u, walk t s = .raise .outOfData u) ↔
      ∀ n, 1 ≤ n → s.Readable n → t.Inside (s.streamBits s.pos n) := by
  constructor
  · rintro ⟨u, hw⟩
    rcases walk_trichotomy hq hlive hnode with
      ⟨_, _, _, _, hw'⟩ | ⟨_, _, _, _, _, hw'⟩ | ⟨hin, _⟩
    · cases hw'.symm.trans hw
    · cases hw'.symm.trans hw
    · exact hin
  · exact fun hin => ⟨_, walk_outOfData hq hnode hin⟩

/-! ### Paths of a built tree, as codes

A built tree has a leaf at the end of each code and nowhere else (`build_spec`), so what a path does
in the tree is what the bits do among the codes. -/

section Codes

variable (hfind : ∀ bs sym, t.find bs = some sym ↔ HasCode lengths sym ∧ bs = codeOfBits lengths sym)
include hfind

theorem free_iff_codes {bs : List Bool} : t.Free bs ↔ ∀ sym, HasCode lengths sym →
    ¬ bs <+: codeOfBits lengths sym ∧ ¬ codeOfBits lengths sym <+: bs := by
  constructor
  · exact fun h sym hc => (h _ sym ((hfind _ sym).2 ⟨hc, rfl⟩)).symm
  · intro h cs sym hcs
    obtain ⟨hc, rfl⟩ := (hfind cs sym).1 hcs
    exact (h sym hc).symm

theorem inside_iff_codes {bs : List Bool} : t.Inside bs ↔ ∃ sym, HasCode lengths sym ∧
    bs <+: codeOfBits lengths sym ∧ bs ≠ codeOfBits lengths sym := by
  constructor
  · rintro ⟨cs, sym, hcs, hpre, hne⟩
    obtain ⟨hc, rfl⟩ := (hfind cs sym).1 hcs
    exact ⟨sym, hc, hpre, hne⟩
  · rintro ⟨sym, hc, hpre, hne⟩
    exact ⟨_, sym, (hfind _ sym).2 ⟨hc, rfl⟩, hpre, hne⟩

/-- A leaf is reached by as many bits as the code of its symbol has. -/
theorem find_streamBits_iff {k n sym : Nat} : t.find (s.streamBits k n) = some sym ↔
    HasCode lengths sym ∧ n = lengths.getD sym 0 ∧
      s.streamBits k (lengths.getD sym 0) = codeOfBits lengths sym := by
  rw [hfind]
  refine and_congr_right fun _ => ⟨fun h => ?_, ?_⟩
  · obtain rfl : n = lengths.getD sym 0 := by simpa [codeOfBits] using congrArg List.length h
    exact ⟨rfl, h⟩
  · rintro ⟨rfl, h⟩
    exact h

end Codes

/-! ### The obligations -/

/-- Settles O12: the three outcomes of the walk, with the paths of the tree read as codes. -/
theorem decodeIsPrefixCode : Obligations.DecodeIsPrefixCode := by
  intro lengths maxbits t s hm hb hq
  obtain ⟨hfind, hlive, hnode⟩ := build_spec hm hb
  refine ⟨fun sym u => ?ok, ?corrupt, ?outOfData⟩
  case ok =>
    rw [walk_eq_ok_iff hq hlive hnode]
    simp only [find_streamBits_iff hfind]
    constructor
    · rintro ⟨_, hr, ⟨hc, rfl, hbits⟩, rfl⟩
      exact ⟨hc, hr, hbits, rfl⟩
    · rintro ⟨hc, hr, hbits, rfl⟩
      exact ⟨_, hr, ⟨hc, rfl, hbits⟩, rfl⟩
  case corrupt =>
    simp only [walk_corrupt_iff hq hlive hnode, free_iff_codes hfind]
  case outOfData =>
    simp only [walk_outOfData_iff hq hlive hnode, inside_iff_codes hfind]

/-- Settles O11: the check of R144 is the failure of `Build`, length by length and as the Kraft sum;
no code of a set that passes it begins another. -/
theorem buildFailsIffOverSubscribed : Obligations.BuildFailsIffOverSubscribed := by
  intro lengths maxbits hm
  refine ⟨build_eq_none_iff_overSubscribed.trans overSubscribed_iff_exists, build_eq_none_iff hm, ?_⟩
  intro hbuilt a b ha hb hab
  have hover : overSubscribed lengths maxbits = false :=
    Bool.eq_false_iff.2 (mt build_eq_none_iff_overSubscribed.2 hbuilt)
  exact codes_prefixFree hm hover ha hb hab

/-- Settles O13: one node per code bit and the root; the fixed trees are counted. -/
theorem treeNodeBound : Obligations.TreeNodeBound := by
  refine ⟨fun lengths maxbits t hb => ⟨nodes_le_of_build hb, fun hl hn => ?_⟩, ?_, ?_⟩
  · exact (nodes_le_of_build hb).trans (one_add_sum_le_treeNodeCap hl hn)
  · decide +kernel
  · decide +kernel

end Sys2Proof.Machine
end

section
/-! SUPPORT. The obligations about the block decoder (44_block_decoder.md R180, R183, R185): what the
three bits of a block header read as and select, that every block instruction leaves the latches as its
header sets them, and the two instructions that read nothing more. -/

namespace Sys2Proof.Machine

variable {s t u : State} {f : Bool} {ty : Nat}

/-! ### An engine step, from what it fetches -/

theorem engineStep_of_fetch_ok {i : Instr} (h : fetch s = some (.ok i u)) :
    engineStep s = exec i u := by
  rw [engineStep, h]

theorem engineStep_of_fetch_raise {k : ErrKind} (h : fetch s = some (.raise k u)) :
    engineStep s = .next (raiseError k u) := by
  rw [engineStep, h]

/-! ### Reading a block header (R180) -/

/-- After `m` readable bits, an input too short for `m + n` is too short for `n` more. -/
theorem State.Short.atPos {m n : Nat} (h : s.Short (m + n)) (hm : s.Readable m) :
    (s.atPos (s.pos + m)).Short n := by
  refine ⟨h.1.atPos hm.2, ?_⟩
  rw [hm.pos_atPos, State.atPos_inLen, Nat.add_assoc]
  exact h.2

/-- `ReadBit` where no bit is left, with the cursor written as `ReadBits` leaves it (R130). -/
theorem readBit_short (h : s.Short 1) : readBit s = .raise .outOfData (s.setCursor s.inLen 0) := by
  have hend : 8 * s.inLen.toNat = s.pos := Nat.le_antisymm (Nat.le_of_lt_succ h.2) h.1.pos_le
  rw [readBit_end hend.le, ← State.atPos_inLen_end, hend, State.atPos_pos]

theorem readBlockHeader_ok (h : s.Readable 3) : readBlockHeader s =
    .ok ((s.streamBit s.pos).toNat + 2 * s.streamField (s.pos + 1) 2) (s.atPos (s.pos + 3)) := by
  have h1 : s.Readable 1 := h.mono (by decide)
  have h2 : (s.atPos (s.pos + 1)).Readable 2 := State.Readable.atPos h
  rw [readBlockHeader, readBit_ok h1, Res.ok_bind, readBits_ok (by decide) h2, h1.pos_atPos,
    State.streamField_atPos, Res.ok_bind, State.atPos_atPos]

theorem readBlockHeader_short (h : s.Short 3) :
    readBlockHeader s = .raise .outOfData (s.setCursor s.inLen 0) := by
  rw [readBlockHeader]
  rcases h.1.readable_or_short 1 with h1 | h1
  · have h2 : (s.atPos (s.pos + 1)).Short 2 := State.Short.atPos h h1
    rw [readBit_ok h1, Res.ok_bind, readBits_short (by decide) h2, Res.raise_bind]
    rfl
  · rw [readBit_short h1, Res.raise_bind]

/-- The block instruction of each BTYPE, with BFINAL as its operand (R92, R181). -/
def blockInstr (f : Bool) (ty : Nat) : Instr :=
  if ty = 0 then .blkStored f else if ty = 1 then .blkFixed f
    else if ty = 2 then .blkDynamic f else .blkReserved f

theorem decodeSel_blockHeader (f : Bool) (h : ty < 4) :
    decodeSel .blockHeader (f.toNat + 2 * ty) = .ok (blockInstr f ty) := by
  have hbit : (f.toNat + 2 * ty).testBit 0 = f := by
    cases f <;> simp [Nat.add_mod]
  have hdiv : (f.toNat + 2 * ty) / 2 = ty := by
    have := f.toNat_lt
    omega
  rw [decodeSel, decodeBlock, hbit, hdiv]
  obtain rfl | rfl | rfl | rfl : ty = 0 ∨ ty = 1 ∨ ty = 2 ∨ ty = 3 := by omega
  all_goals rfl

theorem fetch_blockHeader (hp : s.phase = .bhdr) (h : s.Readable 3) :
    fetch s = some (.ok (blockInstr (s.streamBit s.pos) (s.streamField (s.pos + 1) 2))
      (s.atPos (s.pos + 3))) := by
  simp only [fetch, hp, select, readBlockHeader_ok h, Res.ok_bind,
    decodeSel_blockHeader _ (s.streamField_lt (s.pos + 1) 2)]

theorem fetch_blockHeader_short (hp : s.phase = .bhdr) (h : s.Short 3) :
    fetch s = some (.raise .outOfData (s.setCursor s.inLen 0)) := by
  simp only [fetch, hp, select, readBlockHeader_short h, Res.raise_bind]

/-! ### The instructions that read no further bit (R183, R185) -/

/-- BLK_FIXED with its updates written out (R183). -/
theorem exec_blkFixed (f : Bool) (s : State) : exec (.blkFixed f) s = .next
    { s with bfinal := f, btype := 1, treeLL := fixedTreeLL, treeD := fixedTreeD, phase := .lz } := by
  simp only [exec, execBlkFixed, latchHeader, State.setLatches, State.setTreeLL, State.setTreeD,
    State.setPhase]

/-- BLK_RESERVED with its updates written out (R185). -/
theorem exec_blkReserved (f : Bool) (s : State) : exec (.blkReserved f) s =
    .next (raiseError .corrupt { s with bfinal := f, btype := 3 }) := rfl

/-! ### The latches of a block (R32, R33, R180) -/

/-- BFINAL_LATCH and BTYPE_LATCH hold these fields. -/
def State.Latched (f : Bool) (ty : BitVec 2) (s : State) : Prop := s.bfinal = f ∧ s.btype = ty

theorem State.Latched.latchHeader (f : Bool) (ty : BitVec 2) (s : State) :
    (latchHeader f ty s).Latched f ty := ⟨rfl, rfl⟩

variable {b : BitVec 2}

/-- The error entry keeps the latches (R407). -/
theorem State.Latched.raiseError (h : s.Latched f b) (k : ErrKind) : (raiseError k s).Latched f b := h

/-- Block completion reads BFINAL_LATCH and keeps both latches (R186). -/
theorem State.Latched.blockComplete (h : s.Latched f b) : (blockComplete s).Latched f b := by
  rcases blockComplete_eq s with ⟨-, e⟩ | ⟨-, e⟩ <;> rw [e] <;> exact h

theorem State.Latched.of_streamed (h : s.Latched f b) (hst : Streamed s t) : t.Latched f b := by
  obtain ⟨⟨⟨_, _, _, _, _, rfl⟩, -⟩, -⟩ := hst
  exact h

theorem State.Latched.of_headerRead (h : s.Latched f b) (hst : HeaderRead s t) : t.Latched f b := by
  obtain ⟨_, _, _, _, _, ⟨⟨_, _, _, rfl⟩, -⟩, -, rfl⟩ := hst
  exact h

/-- A step that leaves the latches at `f` and `b`, whether it ends well or raises an error. -/
theorem State.Latched.of_finish {x : Res Unit} {S : Prop}
    (hx : x.sat (fun _ t => t.Latched f b) (fun _ t => t.Latched f b) S)
    (h : x.finish = .next t) : t.Latched f b := by
  rcases Res.finish_eq_next.1 h with rfl | ⟨k, u, rfl, rfl⟩
  · exact hx
  · exact State.Latched.raiseError hx k

theorem exec_blkStored_latched (h : exec (.blkStored f) s = .next t) : t.Latched f 0 := by
  have hl := State.Latched.latchHeader f 0 s
  refine State.Latched.of_finish (Res.sat_mono (storedBody_sat (latchHeader f 0 s)) ?_ ?_ id) h
  · rintro - _ ⟨u, hu, -, rfl⟩
    exact (hl.of_streamed hu).blockComplete
  · exact fun _ _ hu => hl.of_streamed hu

theorem exec_blkFixed_latched (h : exec (.blkFixed f) s = .next t) : t.Latched f 1 := by
  rw [exec_blkFixed] at h
  cases h
  exact ⟨rfl, rfl⟩

theorem exec_blkDynamic_latched (h : exec (.blkDynamic f) s = .next t) : t.Latched f 2 := by
  have hl := State.Latched.latchHeader f 2 s
  refine State.Latched.of_finish (Res.sat_mono (dynHeader_sat (latchHeader f 2 s)) ?_ ?_ id) h
  · rintro - _ ⟨u, _, hu, -, -, -, -, -, -, -, rfl⟩
    exact (hl.of_headerRead hu : u.Latched f 2)
  · exact fun _ _ hu => hl.of_headerRead hu

theorem exec_blkReserved_latched (h : exec (.blkReserved f) s = .next t) : t.Latched f 3 := by
  rw [exec_blkReserved] at h
  cases h
  exact ⟨rfl, rfl⟩

/-- Whatever a block instruction comes to, its header's fields stand in the latches after it. -/
theorem exec_blockInstr_latches (hty : ty < 4) (h : exec (blockInstr f ty) s = .next t) :
    t.bfinal = f ∧ t.btype.toNat = ty := by
  have hl : t.Latched f (BitVec.ofNat 2 ty) := by
    obtain rfl | rfl | rfl | rfl : ty = 0 ∨ ty = 1 ∨ ty = 2 ∨ ty = 3 := by omega
    · exact exec_blkStored_latched h
    · exact exec_blkFixed_latched h
    · exact exec_blkDynamic_latched h
    · exact exec_blkReserved_latched h
  obtain ⟨hf, hb⟩ := hl
  exact ⟨hf, by rw [hb, BitVec.toNat_ofNat, Nat.mod_eq_of_lt hty]⟩

/-! ### The obligations -/

/-- Settles O17: the three bits are there and select the instruction, which keeps the latches it sets,
or the input ends inside them, before any latch is written. -/
theorem blockHeaderStep : Obligations.BlockHeaderStep := by
  intro s hp
  refine ⟨?read, ?short⟩
  case read =>
    rintro h f rfl ty rfl
    have hstep := engineStep_of_fetch_ok (fetch_blockHeader hp h)
    refine ⟨hstep, fun t ht => ?_⟩
    exact exec_blockInstr_latches (s.streamField_lt _ 2) (hstep.symm.trans ht)
  case short =>
    intro h
    exact ⟨_, engineStep_of_fetch_raise (fetch_blockHeader_short hp h), CursorOnly.setCursor s _ _⟩

/-- Settles O20: BLK_FIXED is its four updates; the bits 1, 1, 0 are BFINAL 1 and BTYPE 1. -/
theorem fixedBlockResult : Obligations.FixedBlockResult :=
  ⟨exec_blkFixed, decodeSel_blockHeader (ty := 1) true (by decide)⟩

/-- Settles O23: BLK_RESERVED is the error entry after the latches; BTYPE 3 selects it. -/
theorem reservedBlockResult : Obligations.ReservedBlockResult := fun f s =>
  ⟨exec_blkReserved f s, decodeSel_blockHeader (ty := 3) f (by decide)⟩

end Sys2Proof.Machine
end

section
/-! SUPPORT. The obligations about the LZ77 instructions (45_lz77.md R201, R202, R204): the two symbols
that carry no operands, LIT and EOB, and the copy. What `Append` and `Copy` leave stands in the
output's laws above. -/

namespace Sys2Proof.Machine

variable {s : State}

/-! ### The end of a block (R186) -/

/-- The last block of the stream: `Finish` ends the command without an error (R325). -/
theorem blockComplete_final (h : s.bfinal = true) : blockComplete s =
    { s with blkCnt := s.blkCnt + 1, err := none, done := true, phase := .idle } :=
  if_pos h

/-- Any other block: the next header follows. -/
theorem blockComplete_notFinal (h : s.bfinal = false) : blockComplete s =
    { s with blkCnt := s.blkCnt + 1, phase := .bhdr } :=
  if_neg (ne_true_of_eq_false h)

/-! ### Literals (R201) -/

/-- A symbol below 256 is the literal of that byte. -/
theorem decodeSel_lit (b : Byte) : decodeSel .litlenSymbol b.toNat = .ok (.lit b) := by
  rw [decodeSel, decodeLitlen, if_pos b.isLt, BitVec.ofNat_toNat, BitVec.setWidth_eq]

theorem exec_lit (b : Byte) (s : State) : exec (.lit b) s = (append b s).finish := rfl

/-! ### The obligations -/

/-- Settles O26: `OUT_CAP` keeps the copy within the memory, where `Copy` cannot stop (`copy_ok`). -/
theorem copyReplicates : Obligations.CopyReplicates := by
  intro s len dist hrace hpos hback hfit hcap hdef
  have hroom : s.outLen.toNat + len ≤ s.params.outMemSize.toNat := Nat.le_trans hfit hcap
  exact copy_ok hrace hpos hback hroom hdef

/-- Settles O24: EOB is block completion, and that goes by BFINAL_LATCH. -/
theorem eobResult : Obligations.EobResult := fun _ =>
  ⟨rfl, blockComplete_final, blockComplete_notFinal, rfl⟩

/-- Settles O25: LIT is `Append`, which writes one byte or nothing. -/
theorem literalResult : Obligations.LiteralResult := by
  intro b s
  refine ⟨?room, ?full, decodeSel_lit b⟩
  case room =>
    intro hcap hroom
    refine ⟨s.outMem.set s.outLen.toNat b, ?_, fun a => Memory.get_set _ _ a b⟩
    rw [exec_lit, append_ok b hcap hroom, Res.ok_finish]
    rfl
  case full =>
    intro hfull
    rw [exec_lit, append_full b hfull, Res.raise_finish]

end Sys2Proof.Machine
end

section
/-! SUPPORT. The obligations about the code lengths of a dynamic header (46_dynamic_header.md R294,
R295, R301): CL_LEN, the end of its step, and the block's trees. A length set of R301 is a part of LENS
with zeros after it; here it is written symbol by symbol. -/

namespace Sys2Proof.Machine

variable {s : State}

/-! ### CL_LEN and the end of its step (R294, R295) -/

/-- A code-length symbol below 16 is the code length itself. -/
theorem decodeSel_clLen (len : BitVec 4) : decodeSel .clSymbol len.toNat = .ok (.clLen len) := by
  rw [decodeSel, decodeCl, if_pos len.isLt, BitVec.ofNat_toNat, BitVec.setWidth_eq]

theorem clEnd_finish (s : State) : (clEnd s).finish = clStepEnds s :=
  apply_ite Res.finish _ _ _

theorem exec_clLen (len : BitVec 4) (s : State) :
    exec (.clLen len) s = clStepEnds { s with lens := s.lens ++ [len] } := clEnd_finish _

theorem clStepEnds_more (h : s.lens.length < s.hlit.toNat + s.hdist.toNat) :
    clStepEnds s = .next s := if_neg h.ne

theorem clStepEnds_full (h : s.lens.length = s.hlit.toNat + s.hdist.toNat) :
    clStepEnds s = (buildBlockTrees s).finish := if_pos h

/-! ### The length sets of the block's trees (R301) -/

/-- The `k` code lengths `f 0`, `f 1`, … with zeros up to `n`, symbol by symbol. -/
theorem map_append_zeros_eq_map_range {l : List (BitVec 4)} {k n : Nat} {f : Nat → BitVec 4}
    (hk : l.length = k) (hn : k ≤ n) (hf : ∀ i (hi : i < l.length), l[i] = f i) :
    l.map BitVec.toNat ++ List.replicate (n - (l.map BitVec.toNat).length) 0 =
      (List.range n).map fun i => if i < k then (f i).toNat else 0 := by
  subst hk
  refine List.ext_getElem ?length fun i _ _ => ?entry
  case length => simp [hn]
  case entry =>
    rw [List.getElem_map, List.getElem_range]
    split
    case isTrue hi => simp [hi, hf]
    case isFalse hi => simp [Nat.not_lt.1 hi]

theorem litlenLengths_eq (hlen : s.hlit.toNat ≤ s.lens.length) (hn : s.hlit.toNat ≤ 288) :
    litlenLengths s = (List.range 288).map
      fun i => if i < s.hlit.toNat then (s.lens.getD i 0).toNat else 0 := by
  refine map_append_zeros_eq_map_range (List.length_take_of_le hlen) hn fun i hi => ?_
  have hin : i < s.lens.length := hi.trans_le (List.length_take_le' _ _)
  rw [List.getElem_take, List.getD_eq_getElem _ _ hin]

theorem distLengths_eq (hlen : s.lens.length = s.hlit.toNat + s.hdist.toNat)
    (hn : s.hdist.toNat ≤ 30) :
    distLengths s = (List.range 30).map
      fun i => if i < s.hdist.toNat then (s.lens.getD (s.hlit.toNat + i) 0).toNat else 0 := by
  have hk : ((s.lens.drop s.hlit.toNat).take s.hdist.toNat).length = s.hdist.toNat := by
    simp [hlen]
  refine map_append_zeros_eq_map_range hk hn fun i hi => ?_
  have hin : s.hlit.toNat + i < s.lens.length := by omega
  rw [List.getElem_take, List.getElem_drop, List.getD_eq_getElem _ _ hin]

/-! ### `BuildBlockTrees()` (R301) -/

variable {tll td : Tree}

theorem buildBlockTrees_ok (hll : build (litlenLengths s) 15 = some tll)
    (hd : build (distLengths s) 15 = some td) :
    buildBlockTrees s = .ok () { s with treeLL := tll, treeD := td, phase := .lz } := by
  simp only [buildBlockTrees, Config.maxBits, hll, hd]
  rfl

/-- Where a length set is over-subscribed, at most the literal/length tree has been built. -/
theorem buildBlockTrees_corrupt
    (h : build (litlenLengths s) 15 = none ∨ build (distLengths s) 15 = none) :
    ∃ a, buildBlockTrees s = .raise .corrupt { s with treeLL := a } := by
  cases hll : build (litlenLengths s) 15 with
  | none =>
    refine ⟨s.treeLL, ?_⟩
    simp only [buildBlockTrees, Config.maxBits, hll]
  | some tll =>
    have hd : build (distLengths s) 15 = none := h.resolve_left (by simp [hll])
    refine ⟨tll, ?_⟩
    simp only [buildBlockTrees, Config.maxBits, hll, hd]
    rfl

/-! ### The obligations -/

/-- Settles O36: the two sets of R301 are those `BuildBlockTrees` builds from, and it builds both or
stops at the first that is over-subscribed. -/
theorem blockTreesBuilt : Obligations.BlockTreesBuilt := by
  rintro s ll d hlen hlit hdist rfl rfl
  have hle : s.hlit.toNat ≤ s.lens.length := hlen ▸ Nat.le_add_right _ _
  rw [← litlenLengths_eq hle hlit, ← distLengths_eq hlen hdist, clStepEnds_full hlen]
  refine ⟨fun tll td hll hd => ?built, fun h => ?corrupt⟩
  case built => rw [buildBlockTrees_ok hll hd, Res.ok_finish]
  case corrupt =>
    obtain ⟨a, ha⟩ := buildBlockTrees_corrupt h
    exact ⟨_, by rw [ha, Res.raise_finish], a, rfl⟩

/-- Settles O33: CL_LEN is one more slot and the end of the step, which does nothing while slots are
still to come. -/
theorem clLenResult : Obligations.ClLenResult := by
  intro len s
  refine ⟨exec_clLen len s, fun hmore => ?_, decodeSel_clLen len⟩
  rw [exec_clLen, clStepEnds_more (by simpa using hmore)]

end Sys2Proof.Machine
end

section
/-! SUPPORT. The obligations about START and the zlib header (47_stream.md R320 to R323). The four
checks of the header are those of R104's legal encodings, so that one `Bool` decides what ZLIB_HDR
does. -/

namespace Sys2Proof.Machine

variable {s : State} {cmf flg : Byte}

/-! ### START (R320) -/

/-- The start of a command with its updates written out. -/
theorem startCommand_eq (s : State) : startCommand s =
    { s with bytePos := 0, bitOff := 0, outLen := 0, blkCnt := 0, bfinal := false, btype := 0,
             done := false, err := none, phase := .zhdr, lenOp := none, distOp := none,
             inRace := [], outRace := [] } := by
  simp only [startCommand, State.setCursor, State.setOutLen, State.setBlkCnt, State.setLatches,
    State.setStatus, State.setPhase, State.setLenOp, State.setDistOp, State.setInRace,
    State.setOutRace]

theorem exec_start_of_idle (h : s.phase = .idle) : exec .start s = .next (startCommand s) :=
  if_neg (ne_true_of_eq_false (busy_eq_false_of_idle h))

/-! ### Reading the header (R64, R91) -/

/-- The check value is read as two bytes, the first of them the high half (R64). -/
theorem readZlibH_eq_readBytes (s : State) : readZlibH s =
    (readBytes 2 s).bind fun l t => .ok (zlibH (l.getD 0 0) (l.getD 1 0)) t := by
  simp only [readZlibH, readBytes]
  cases readByte s with
  | ok b t =>
    simp only [Res.ok_bind]
    cases readByte t <;> rfl
  | raise k t => rfl
  | fault e => rfl
  | refused r => rfl

theorem readZlibH_ok (h : s.Quiet) (hb : s.alignedByte + 2 ≤ s.inLen.toNat) :
    readZlibH s = .ok (zlibH (s.inByte s.alignedByte) (s.inByte (s.alignedByte + 1)))
      (s.setCursor (BitVec.ofNat 32 (s.alignedByte + 2)) 0) := by
  rw [readZlibH_eq_readBytes, readBytes_ok h (by decide) hb]
  rfl

theorem readZlibH_short (h : s.Quiet) (hb : s.inLen.toNat < s.alignedByte + 2) :
    readZlibH s = .raise .outOfData (s.setCursor s.inLen 0) := by
  rw [readZlibH_eq_readBytes, readBytes_short h (by decide) hb, Res.raise_bind]

/-- The two bytes are read back from their check value (R91). -/
theorem decodeSel_zlibH (cmf flg : Byte) :
    decodeSel .zlibHeader (zlibH cmf flg) = .ok (.zlibHdr cmf flg) := by
  have hc := cmf.isLt
  have hf := flg.isLt
  have hfit : ¬ 2 ^ 16 ≤ zlibH cmf flg := by
    unfold zlibH
    omega
  have hcmf : BitVec.ofNat 8 (zlibH cmf flg / 256) = cmf := by
    apply BitVec.eq_of_toNat_eq
    rw [BitVec.toNat_ofNat, zlibH]
    omega
  have hflg : BitVec.ofNat 8 (zlibH cmf flg) = flg := by
    apply BitVec.eq_of_toNat_eq
    rw [BitVec.toNat_ofNat, zlibH]
    omega
  rw [decodeSel, decodeZlib, if_neg hfit, hcmf, hflg]

theorem fetch_zlibHdr (hp : s.phase = .zhdr) (h : s.Quiet)
    (hb : s.alignedByte + 2 ≤ s.inLen.toNat) :
    fetch s = some (.ok (.zlibHdr (s.inByte s.alignedByte) (s.inByte (s.alignedByte + 1)))
      (s.setCursor (BitVec.ofNat 32 (s.alignedByte + 2)) 0)) := by
  simp only [fetch, hp, select, readZlibH_ok h hb, Res.ok_bind, decodeSel_zlibH]

theorem fetch_zlibHdr_short (hp : s.phase = .zhdr) (h : s.Quiet)
    (hb : s.inLen.toNat < s.alignedByte + 2) :
    fetch s = some (.raise .outOfData (s.setCursor s.inLen 0)) := by
  simp only [fetch, hp, select, readZlibH_short h hb, Res.raise_bind]

/-! ### The checks of the header (R321, R322) -/

/-- The legal headers (R104), check by check; FLEVEL is in none of them but FCHECK (R323). -/
theorem zlibHdrOk_iff : zlibHdrOk cmf flg = true ↔ cmf.toNat % 16 = 8 ∧ cmf.toNat / 16 ≤ 7 ∧
    (cmf.toNat * 256 + flg.toNat) % 31 = 0 ∧ flg.getLsbD 5 = false := by
  simp only [zlibHdrOk, Config.checkFdict, Bool.and_eq_true, beq_iff_eq, decide_eq_true_eq,
    Bool.true_and, Bool.not_eq_true', and_assoc]
  rfl

/-- The checks of ZLIB_HDR are made one after the other; a legal header passes each. -/
theorem zlibCheck_of_ok (h : zlibHdrOk cmf flg = true) (s : State) :
    zlibCheck cmf flg s = .ok () s := by
  obtain ⟨hcm, hcinfo, hcheck, hdict⟩ := zlibHdrOk_iff.1 h
  exact (if_neg (not_not.2 hcm)).trans <| (if_neg (Nat.not_lt.2 hcinfo)).trans <|
    (if_neg (not_not.2 hcheck)).trans <| if_neg (ne_true_of_eq_false hdict)

/-- Any other header fails one of the checks, and each raises the same error in the same state. -/
theorem zlibCheck_of_not_ok (h : ¬ zlibHdrOk cmf flg = true) (s : State) :
    zlibCheck cmf flg s = .raise .corrupt s := by
  unfold zlibCheck
  split_ifs with hcm hcinfo hcheck hdict
  case neg =>
    refine absurd (zlibHdrOk_iff.2 ⟨?_, ?_, ?_, ?_⟩) h
    exacts [not_not.1 hcm, Nat.not_lt.1 hcinfo, not_not.1 hcheck, Bool.eq_false_iff.2 hdict]
  all_goals rfl

theorem exec_zlibHdr_of_ok (h : zlibHdrOk cmf flg = true) (s : State) :
    exec (.zlibHdr cmf flg) s = .next (s.setPhase .bhdr) := by
  rw [exec, execZlibHdr, zlibCheck_of_ok h, Res.ok_bind, Res.ok_finish]

theorem exec_zlibHdr_of_not_ok (h : ¬ zlibHdrOk cmf flg = true) (s : State) :
    exec (.zlibHdr cmf flg) s = .next (raiseError .corrupt s) := by
  rw [exec, execZlibHdr, zlibCheck_of_not_ok h, Res.raise_bind, Res.raise_finish]

/-! ### The obligations -/

/-- Settles O16: at the start of the input the two bytes are those at 0 and 1. Either one of them is
missing, or they make a header, which is legal or not. -/
theorem zlibHdrStep : Obligations.ZlibHdrStep := by
  intro s hp hq hpos
  have hstart : s.alignedByte = 0 := by rw [State.alignedByte, hpos]
  refine ⟨fun hshort => ?short, fun hlong => ?read⟩
  case short =>
    have hf := fetch_zlibHdr_short hp hq (by rwa [hstart])
    exact ⟨_, engineStep_of_fetch_raise hf, CursorOnly.setCursor s _ _⟩
  case read =>
    have hf := fetch_zlibHdr hp hq (by rwa [hstart])
    rw [hstart, Nat.zero_add, Nat.zero_add] at hf
    rw [engineStep_of_fetch_ok hf]
    split
    case isTrue hlegal =>
      rw [exec_zlibHdr_of_ok (zlibHdrOk_iff.2 hlegal)]
      rfl
    case isFalse hbad =>
      exact ⟨_, exec_zlibHdr_of_not_ok (mt zlibHdrOk_iff.1 hbad) _, CursorOnly.setCursor s _ _⟩

/-- Settles O14: `startCommand` writes the registers of R320 and empties the model's own fields; a
write of 1 to CTRL.START decodes to START. -/
theorem startResult : Obligations.StartResult := by
  intro s
  refine ⟨fun hidle => ?idle, fun hbusy => exec_start_of_busy (busy_eq_true_of_not_idle hbusy),
    fun v hv => ?write⟩
  case idle =>
    exact ⟨none, none, [], [], by rw [exec_start_of_idle hidle, startCommand_eq]⟩
  case write =>
    rw [hostStep_regWrite_word rfl, regWrite_ctrl, if_pos hv]

end Sys2Proof.Machine
end

section
/-! SUPPORT. The obligation about the error entry (60_exceptions.md R400, R407): its updates written
out, and the low bits of STATUS, which tell how a command ended. -/

namespace Sys2Proof.Machine

/-- The error entry with its updates written out (R407). -/
theorem raiseError_eq (k : ErrKind) (s : State) : raiseError k s =
    { s with err := some k, done := true, outLen := 0, phase := .idle, outMem := [],
             lenOp := none, distOp := none } := rfl

/-- ERR, DONE and BUSY are the four low bits of STATUS (R28): regrouped, they stand right of the
other fields. -/
theorem statusWord_low (s : State) : (statusWord s).extractLsb' 0 4 =
    errCode s.err ++ (BitVec.ofBool s.done ++ BitVec.ofBool s.busy) := by
  rw [statusWord, BitVec.append_assoc, BitVec.append_assoc, BitVec.cast_cast, BitVec.cast_eq]
  exact BitVec.extractLsb'_append_eq_right

/-- After an error they are the kind's code (R400), 1 and 0. -/
theorem statusWord_raiseError_low (k : ErrKind) (s : State) :
    (statusWord (raiseError k s)).extractLsb' 0 4 = k.code ++ (1#1 ++ 0#1) := by
  rw [statusWord_low, raiseError_eq, busy_eq_false_of_idle rfl]
  rfl

/-- Settles O37: the registers by the error entry's equation, STATUS by the code of each kind. -/
theorem errorEntry : Obligations.ErrorEntry := by
  intro k s
  refine ⟨⟨[], none, none, raiseError_eq k s⟩, ?status⟩
  case status =>
    rw [statusWord_raiseError_low]
    cases k <;> rfl

end Sys2Proof.Machine
end

section
/-! SUPPORT. The obligation about reset (70_reset_and_hazards.md R440): the state it leaves written out,
and STATUS of an idle machine that has recorded nothing. -/

namespace Sys2Proof.Machine

/-- The next state of a reset written out: the reset state (R44) but for the parameters and the model's
own fields that a reset keeps. -/
theorem hostStep_reset (s : State) : hostStep .reset s = .next
    { State.resetWith s.params with
      hostQ := s.hostQ, hostRData := s.hostRData, drawIdx := s.drawIdx, epoch := s.epoch + 1 } := rfl

/-- In IDLE, BUSY and the phase code of STATUS are 0 (R22, R28); the other fields are 0 with their
registers. -/
theorem statusWord_eq_zero {s : State} (hphase : s.phase = .idle) (hdone : s.done = false)
    (herr : s.err = none) (hbfinal : s.bfinal = false) (hbtype : s.btype = 0) : statusWord s = 0 := by
  rw [statusWord, busy_eq_false_of_idle hphase, hphase, hdone, herr, hbfinal, hbtype]
  rfl

/-- Settles O55: each register is a field of the state that `hostStep_reset` writes out, and STATUS is
`statusWord_eq_zero` of those fields. -/
theorem resetEvent : Obligations.ResetEvent := by
  intro s
  refine ⟨_, hostStep_reset s, rfl, rfl, rfl, rfl, rfl, rfl, rfl, rfl, rfl, rfl, rfl, ?status⟩
  case status => exact statusWord_eq_zero rfl rfl rfl rfl rfl

end Sys2Proof.Machine
end

section
/-! SUPPORT. The obligations about the encoding (30_encoding.md R90, R103): a value laid out in bytes is
read back by the decoder of its format, and a value decodes to the instruction it selects and to no
other. -/

namespace Sys2Proof

variable {f : Format} {v k : Nat} {i : Instr} {bs : List Byte}

/-! ### Bytes and values (R61, R64) -/

/-- The number of bytes of a format. -/
def Format.bytes : Format → Nat
  | .hostCtrl => 4
  | .zlibHeader | .litlenSymbol => 2
  | .blockHeader | .distSymbol | .clSymbol => 1

/-- From the order of a format's bytes in memory to least significant first, or back: only the zlib
header has its high byte first (R64). -/
def Format.order (f : Format) (l : List Byte) : List Byte := if f = .zlibHeader then l.reverse else l

/-- The value that stands at the front of a list of bytes. -/
def Format.valueOf (f : Format) (bs : List Byte) : Nat := bytesToNat (f.order (bs.take f.bytes))

@[simp] theorem Format.order_order (f : Format) (l : List Byte) : f.order (f.order l) = l := by
  unfold Format.order
  split
  · exact l.reverse_reverse
  · rfl

@[simp] theorem Format.order_length (f : Format) (l : List Byte) :
    (f.order l).length = l.length := by
  unfold Format.order
  split
  · exact l.length_reverse
  · rfl

theorem layout_eq (f : Format) (v : Nat) : layout f v = f.order (natToBytes f.bytes v) := by
  cases f <;> rfl

/-- The decoder reads the value at the front, whatever follows, or finds too few bytes. -/
theorem decodeBytes_eq (f : Format) (bs : List Byte) : decodeBytes f bs =
    if f.bytes ≤ bs.length then decodeSel f (f.valueOf bs) else .error (.truncated f) := by
  rcases bs with _ | ⟨b0, _ | ⟨b1, _ | ⟨b2, _ | ⟨b3, bs⟩⟩⟩⟩
  all_goals
    cases f <;>
      simp [decodeBytes, Format.bytes, Format.valueOf, Format.order, bytesToNat,
        Nat.mul_comm _ 256, Nat.add_comm _ (256 * _)]

theorem bytesToNat_natToBytes (n v : Nat) : bytesToNat (natToBytes n v) = v % 256 ^ n := by
  induction n generalizing v with
  | zero => exact (Nat.mod_one v).symm
  | succ n ih => rw [natToBytes, bytesToNat, ih, pow_succ' 256 n, Nat.mod_mul, BitVec.toNat_ofNat]

theorem natToBytes_bytesToNat (bs : List Byte) : natToBytes bs.length (bytesToNat bs) = bs := by
  induction bs with
  | nil => rfl
  | cons b bs ih =>
    have hb := b.isLt
    have hlow : BitVec.ofNat 8 (b.toNat + 256 * bytesToNat bs) = b := by
      apply BitVec.eq_of_toNat_eq
      rw [BitVec.toNat_ofNat]
      omega
    have hhigh : (b.toNat + 256 * bytesToNat bs) / 256 = bytesToNat bs := by omega
    rw [List.length_cons, natToBytes, bytesToNat, hlow, hhigh, ih]

/-- A value that fits its format stands at the front of its own bytes. -/
theorem valueOf_layout_append (hv : v < 2 ^ f.bits) (rest : List Byte) :
    f.valueOf (layout f v ++ rest) = v := by
  have hfits : v < 256 ^ f.bytes := hv.trans_le (by cases f <;> decide)
  have htake : (layout f v ++ rest).take f.bytes = layout f v :=
    List.take_left' (by simp [layout_eq, Machine.natToBytes_length])
  rw [Format.valueOf, htake, layout_eq, Format.order_order, bytesToNat_natToBytes,
    Nat.mod_eq_of_lt hfits]

/-- The bytes at the front are those of the value that stands there. -/
theorem layout_valueOf (h : f.bytes ≤ bs.length) : layout f (f.valueOf bs) = bs.take f.bytes := by
  have hlen : (f.order (bs.take f.bytes)).length = f.bytes := by simp [h]
  have hback := natToBytes_bytesToNat (f.order (bs.take f.bytes))
  rw [hlen] at hback
  rw [layout_eq, Format.valueOf, hback, Format.order_order]

/-! ### Values and instructions (R103) -/

/-- Every instruction's selecting value fits its format (`Laws.SelectorFits`). -/
theorem Instr.selector_lt (i : Instr) : i.selector < 2 ^ i.format.bits := by
  cases i with
  | zlibHdr cmf flg => exact Laws.SelectorFits.zlibHdr cmf flg
  | blkStored f => exact Laws.SelectorFits.blkStored f
  | blkFixed f => exact Laws.SelectorFits.blkFixed f
  | blkDynamic f => exact Laws.SelectorFits.blkDynamic f
  | blkReserved f => exact Laws.SelectorFits.blkReserved f
  | lit b => exact Laws.SelectorFits.lit b
  | clLen len => exact Laws.SelectorFits.clLen len
  | _ => decide

/-- The decoder gives back the instruction of every selecting value. -/
theorem decodeSel_selector (i : Instr) : decodeSel i.format i.selector = .ok i := by
  cases i with
  | zlibHdr cmf flg => exact Machine.decodeSel_zlibH cmf flg
  | blkStored f => exact Machine.decodeSel_blockHeader (ty := 0) f (by decide)
  | blkFixed f => exact Machine.decodeSel_blockHeader (ty := 1) f (by decide)
  | blkDynamic f => exact Machine.decodeSel_blockHeader (ty := 2) f (by decide)
  | blkReserved f => exact Machine.decodeSel_blockHeader (ty := 3) f (by decide)
  | lit b => exact Machine.decodeSel_lit b
  | clLen len => exact Machine.decodeSel_clLen len
  | _ => rfl

theorem rowAt_eq_ok {rows : List Instr} {r : Reject} (h : rowAt rows k r = .ok i) :
    rows[k]? = some i := by
  unfold rowAt at h
  split at h
  · next hx => cases h; exact hx
  · cases h

/-- `i` is the instruction of value `v` of format `f`. -/
def Instr.Selects (i : Instr) (f : Format) (v : Nat) : Prop := i.format = f ∧ i.selector = v

theorem litlenRows_selects (h : (lenInstrs ++ llResInstrs)[k]? = some i) :
    i.Selects .litlenSymbol (257 + k) := by
  have hk : k < 31 := (List.getElem?_eq_some_iff.1 h).1
  interval_cases k <;> (cases h; exact ⟨rfl, rfl⟩)

theorem distRows_selects (h : (distInstrs ++ distResInstrs)[k]? = some i) :
    i.Selects .distSymbol k := by
  have hk : k < 32 := (List.getElem?_eq_some_iff.1 h).1
  interval_cases k <;> (cases h; exact ⟨rfl, rfl⟩)

theorem clRows_selects (h : [Instr.clRep16, .clRep17, .clRep18][k]? = some i) :
    i.Selects .clSymbol (16 + k) := by
  have hk : k < 3 := (List.getElem?_eq_some_iff.1 h).1
  interval_cases k <;> (cases h; exact ⟨rfl, rfl⟩)

theorem decodeZlib_selects (h : decodeZlib v = .ok i) : i.Selects .zlibHeader v := by
  unfold decodeZlib at h
  split at h
  · cases h
  · cases h
    refine ⟨rfl, ?_⟩
    simp only [Instr.selector, BitVec.toNat_ofNat]
    omega

theorem decodeBlock_selects (h : decodeBlock v = .ok i) : i.Selects .blockHeader v := by
  have hbit : (v.testBit 0).toNat = v % 2 := by
    rw [Nat.testBit_zero]
    rcases Nat.mod_two_eq_zero_or_one v with hm | hm <;> rw [hm] <;> rfl
  unfold decodeBlock at h
  dsimp only at h
  split at h <;> cases h <;> (refine ⟨rfl, ?_⟩; simp only [Instr.selector, hbit]; omega)

theorem decodeLitlen_selects (h : decodeLitlen v = .ok i) : i.Selects .litlenSymbol v := by
  unfold decodeLitlen at h
  split at h
  · next hv => cases h; exact ⟨rfl, Nat.mod_eq_of_lt hv⟩
  · split at h
    · next hv => cases h; exact ⟨rfl, hv.symm⟩
    · have hs := litlenRows_selects (rowAt_eq_ok h)
      rwa [Nat.add_sub_of_le (by omega)] at hs

theorem decodeCl_selects (h : decodeCl v = .ok i) : i.Selects .clSymbol v := by
  unfold decodeCl at h
  split at h
  · next hv => cases h; exact ⟨rfl, Nat.mod_eq_of_lt hv⟩
  · have hs := clRows_selects (rowAt_eq_ok h)
    rwa [Nat.add_sub_of_le (by omega)] at hs

/-- Only a CTRL write decodes from more than one value (R27). -/
theorem decodeSel_selects (h : decodeSel f v = .ok i) :
    i.format = f ∧ (f ≠ .hostCtrl → i.selector = v) := by
  have of_selects : ∀ {f}, i.Selects f v → i.format = f ∧ (f ≠ .hostCtrl → i.selector = v) :=
    fun hs => ⟨hs.1, fun _ => hs.2⟩
  cases f with
  | hostCtrl =>
    obtain ⟨rfl, -⟩ := Machine.decodeCtrl_cases h
    exact ⟨rfl, fun hne => absurd rfl hne⟩
  | zlibHeader => exact of_selects (decodeZlib_selects h)
  | blockHeader => exact of_selects (decodeBlock_selects h)
  | litlenSymbol => exact of_selects (decodeLitlen_selects h)
  | distSymbol => exact of_selects (distRows_selects (rowAt_eq_ok h))
  | clSymbol => exact of_selects (decodeCl_selects h)

/-! ### The obligations -/

/-- An encoding decodes to its instruction, whatever bytes follow. -/
theorem decodeBytes_encode_append (i : Instr) (rest : List Byte) :
    decodeBytes i.format (encode i ++ rest) = .ok i := by
  have hlen : i.format.bytes ≤ (encode i ++ rest).length := by
    simp [encode, layout_eq, Machine.natToBytes_length]
  rw [decodeBytes_eq, if_pos hlen, encode, valueOf_layout_append i.selector_lt, decodeSel_selector]

/-- Bit 0 of a CTRL write is bit 0 of its first byte (R61). -/
theorem getLsbD_of_testBit_valueOf {b0 b1 b2 b3 : Byte} {rest : List Byte}
    (h : (Format.hostCtrl.valueOf (b0 :: b1 :: b2 :: b3 :: rest)).testBit 0 = true) :
    b0.getLsbD 0 = true := by
  change (b0.toNat + 256 * bytesToNat [b1, b2, b3]).testBit 0 = true at h
  rw [Nat.testBit_zero, decide_eq_true_eq] at h
  rw [← BitVec.testBit_toNat, Nat.testBit_zero, decide_eq_true_eq]
  omega

/-- Settles O1: the value at the front is that of the encoding, and it selects one instruction. -/
theorem decodeEncodeAgree : Obligations.DecodeEncodeAgree := by
  refine ⟨decodeBytes_encode_append, fun f bs i h => ?_⟩
  rw [decodeBytes_eq] at h
  split at h
  case isFalse => cases h
  case isTrue hlen =>
    obtain ⟨hformat, hvalue⟩ := decodeSel_selects h
    refine ⟨hformat, fun hne => ?other, ?ctrl⟩
    case other =>
      have henc : encode i = bs.take f.bytes := by
        rw [encode, hformat, hvalue hne, layout_valueOf hlen]
      rw [henc, List.length_take_of_le hlen]
    case ctrl =>
      rintro rfl
      obtain ⟨b0, b1, b2, b3, rest, rfl⟩ :
          ∃ b0 b1 b2 b3 rest, bs = b0 :: b1 :: b2 :: b3 :: rest := by
        match bs, hlen with
        | b0 :: b1 :: b2 :: b3 :: rest, _ => exact ⟨b0, b1, b2, b3, rest, rfl⟩
      obtain ⟨-, hbit⟩ := Machine.decodeCtrl_cases h
      exact ⟨b0, b1, b2, b3, rest, rfl, getLsbD_of_testBit_valueOf hbit⟩

/-- Settles O2: each word is evaluated. -/
theorem decodeTableWords : Obligations.DecodeTableWords := by
  unfold Obligations.DecodeTableWords
  decide

end Sys2Proof
end

section
/-! SUPPORT. The obligations about every step of the engine (10_state.md R25 to R42): what a step keeps
and what it appends. All are read off the cases of a step (`EngineMove`): it fails, or it works by
reads, appended output and updates of registers. -/

namespace Sys2Proof.Machine

variable {s t u : State}

theorem engineMove_of_next (h : engineStep s = .next t) : EngineMove s t := by
  have hspec := engineStep_spec s
  rw [h] at hspec
  exact hspec

/-! ### The parts of a step that works -/

/-- The input, the configuration registers and everything of the host's are the same (R41, R79). -/
def InputKept (s t : State) : Prop :=
  t.inMem = s.inMem ∧ t.inLen = s.inLen ∧ t.outCap = s.outCap ∧ t.params = s.params ∧
    t.hostQ = s.hostQ ∧ t.hostRData = s.hostRData ∧ t.inRace = s.inRace ∧
      t.outRace = s.outRace ∧ t.epoch = s.epoch

/-- The registers that only a block header writes are the same (R32, R33, R36). -/
def LatchesKept (s t : State) : Prop :=
  t.bfinal = s.bfinal ∧ t.btype = s.btype ∧ t.hlit = s.hlit ∧ t.hdist = s.hdist ∧
    t.hclen = s.hclen ∧ t.clLens = s.clLens

/-- Output was appended, and no byte before it or after it was touched (R42, R65). -/
def Appended (s t : State) : Prop :=
  s.outLen.toNat ≤ t.outLen.toNat ∧ OutSameOutside s.outLen.toNat t.outLen.toNat s t

/-- What a step that raises no error keeps. -/
structure Worked (s t : State) : Prop where
  input : InputKept s t
  latches : s.phase ≠ .bhdr → LatchesKept s t
  onward : Onward s t
  appended : Appended s t

theorem Worked.refl (s : State) : Worked s s where
  input := ⟨rfl, rfl, rfl, rfl, rfl, rfl, rfl, rfl, rfl⟩
  latches _ := ⟨rfl, rfl, rfl, rfl, rfl, rfl⟩
  onward := Onward.refl s
  appended := ⟨Nat.le_refl _, fun _ _ => rfl⟩

theorem Appended.trans_grows (h : Appended s u) (hg : Grows u t) : Appended s t := by
  obtain ⟨hle, hsame⟩ := h
  have hle' := hg.le
  refine ⟨hle.trans hle', fun a ha => ?_⟩
  rw [hg.outside a (by omega), hsame a (by omega)]

theorem Worked.grow (h : Worked s u) (hg : Grows u t) (ho : Onward u t) : Worked s t := by
  have honward := h.onward.trans ho
  have happended := h.appended.trans_grows hg
  obtain ⟨_, _, _, _, _, rfl⟩ := hg.only
  exact ⟨h.input, h.latches, honward, happended⟩

theorem Worked.forward (h : Worked s u) (hf : Forward u t) : Worked s t :=
  h.grow (Grows.of_cursorOnly hf.1) hf.2

/-- Registers that every phase may write. -/
theorem Worked.update (h : Worked s u)
    (same : t = { u with
      phase := t.phase, done := t.done, err := t.err, blkCnt := t.blkCnt, lens := t.lens,
      treeLL := t.treeLL, treeD := t.treeD, treeCL := t.treeCL, lenOp := t.lenOp,
      distOp := t.distOp }) : Worked s t := by
  rw [same]
  exact ⟨h.input, h.latches, h.onward, h.appended⟩

/-- Registers that a block header writes. -/
theorem Worked.header (h : Worked s u) (hp : s.phase = .bhdr)
    (same : t = { u with
      bfinal := t.bfinal, btype := t.btype, hlit := t.hlit, hdist := t.hdist, hclen := t.hclen,
      clLens := t.clLens }) : Worked s t := by
  rw [same]
  exact ⟨h.input, fun hn => absurd hp hn, h.onward, h.appended⟩

theorem Worked.headerRead (h : Worked s u) (hp : s.phase = .bhdr) (hr : HeaderRead u t) :
    Worked s t := by
  obtain ⟨v, _, _, _, _, hv, -, rfl⟩ := hr
  exact (h.forward hv).header hp rfl

theorem Worked.blockComplete (h : Worked s u) : Worked s (blockComplete u) := by
  rcases blockComplete_eq u with ⟨-, e⟩ | ⟨-, e⟩ <;> rw [e] <;> exact h.update rfl

/-- Every step works, or ends the command with an error. -/
theorem EngineMove.worked_or_failed (h : EngineMove s t) :
    Worked s t ∨ ∃ k u, Failing s u ∧ t = raiseError k u := by
  have forward : ∀ {u}, Forward s u → Worked s u := (Worked.refl s).forward
  cases h with
  | idle => exact .inl (Worked.refl s)
  | failed k u _ hu => exact .inr ⟨k, u, hu, rfl⟩
  | zlib u _ hu => exact .inl ((forward hu).update rfl)
  | stored f u v hp hu _ hv =>
    have hl : Worked s (latchHeader f 0 u) := (forward hu).header hp rfl
    exact .inl (hl.grow hv.1 hv.2.1).blockComplete
  | fixed f u hp hu =>
    have hl : Worked s (latchHeader f 1 u) := (forward hu).header hp rfl
    generalize fixedTreeLL = tll, fixedTreeD = td
    exact .inl (hl.update rfl)
  | dynamic f u v c hp hu _ hv =>
    have hl : Worked s (latchHeader f 2 u) := (forward hu).header hp rfl
    exact .inl ((hl.headerRead hp hv).update rfl)
  | slots u t l _ hu _ _ ht =>
    rcases ht with ⟨rfl, -⟩ | ⟨_, _, -, -, rfl⟩ <;> exact .inl ((forward hu).update rfl)
  | eob u _ hu => exact .inl (forward hu).blockComplete
  | lit u v _ hu _ hv => exact .inl ((forward hu).grow hv.1 hv.2.1)
  | copy u t _ hu _ ht =>
    obtain ⟨v, hg, ho, -, rfl⟩ := ht
    exact .inl (((forward hu).grow hg ho).update rfl)

theorem EngineMove.onward (h : EngineMove s t) : Onward s t := by
  rcases h.worked_or_failed with hw | ⟨k, u, hu, rfl⟩
  · exact hw.onward
  · exact hu.onward

theorem EngineMove.inputKept (h : EngineMove s t) : InputKept s t := by
  rcases h.worked_or_failed with hw | ⟨k, u, hu, rfl⟩
  · exact hw.input
  · obtain ⟨hmem, hlen, hcap, hpar⟩ := hu.input
    exact ⟨hmem, hlen, hcap, hpar, hu.host⟩

/-! ### The obligations -/

/-- Settles O50: on both outcomes of a step. -/
theorem engineKeepsInput : Obligations.EngineKeepsInput := fun _ _ h =>
  (engineMove_of_next h).inputKept

/-- Settles O51: an error is raised after the latches of a header at most, too. -/
theorem latchesKeptOutsideHeaders : Obligations.LatchesKeptOutsideHeaders := by
  intro s t hp h
  rcases (engineMove_of_next h).worked_or_failed with hw | ⟨k, u, hu, rfl⟩
  · exact hw.latches hp
  · exact hu.headers hp

/-- The bound of R26 as the invariant writes it. -/
theorem inInput_iff : s.InInput ↔
    s.bytePos ≤ s.inLen ∧ (s.bytePos = s.inLen → s.bitOff = 0) := by
  have hbyte : s.bytePos = s.inLen ↔ s.bytePos.toNat = s.inLen.toNat := BitVec.toNat_inj.symm
  have hbit : s.bitOff = 0 ↔ s.bitOff.toNat = 0 := BitVec.toNat_inj.symm
  have hlt := s.bitOff.isLt
  rw [State.InInput, State.pos, BitVec.le_def, hbyte, hbit]
  omega

/-- Settles O53: every read goes onward, and the invariant has the cursor within the input. -/
theorem cursorMonotone : Obligations.CursorMonotone := fun _ _ hi hb h =>
  (engineMove_of_next h).onward (inInput_iff.2 (hi.cursor hb))

/-- Settles O54: a step that failed has recorded its error. -/
theorem outputAppendOnly : Obligations.OutputAppendOnly := by
  intro s t _ _ h herr
  rcases (engineMove_of_next h).worked_or_failed with hw | ⟨k, u, -, rfl⟩
  · exact hw.appended
  · cases herr

end Sys2Proof.Machine
end

section
/-! SUPPORT. The obligations about the invariant (10_state.md, 20_memory.md section 4, 47_stream.md
R330): it holds after reset, every step keeps it, and from it no step stops and every command ends.
While a command runs it is one predicate whatever PHASE is, which the parts of a step keep. -/

namespace Sys2Proof.Machine

variable {s t u : State} {e : Option ErrKind}

/-! ### The invariant of a running command -/

/-- What the invariant asks of a running command beside the counts of DYN_LENS. -/
structure State.Running (s : State) : Prop where
  params : s.params.Legal
  memWf : s.inMem.wf ∧ s.outMem.wf
  sizes : s.inLen ≤ s.params.inMemSize ∧ s.outCap ≤ s.params.outMemSize
  capacity : s.outLen ≤ s.outCap
  cursor : s.InInput
  status : s.done = false ∧ s.err = none
  operands : s.lenOp = none ∧ s.distOp = none
  clLens : s.clLens.length = 19
  output : ∀ a, a < s.outLen.toNat → (s.outMem.get a).isSome = true
  roots : s.treeLL.isNode = true ∧ s.treeD.isNode = true ∧ s.treeCL.isNode = true

/-- The counts that DYN_LENS asks for (R36, R294). -/
def State.CountsOk (s : State) : Prop :=
  257 ≤ s.hlit.toNat ∧ s.hlit.toNat ≤ 286 ∧ 1 ≤ s.hdist.toNat ∧ s.hdist.toNat ≤ 30 ∧
    s.lens.length < s.hlit.toNat + s.hdist.toNat

theorem State.Inv.running (h : s.Inv) (hb : s.busy = true) : s.Running where
  params := h.params
  memWf := h.memWf
  sizes := ⟨h.bounds.1, h.bounds.2.1⟩
  capacity := h.capacity hb
  cursor := inInput_iff.2 (h.cursor hb)
  status := ⟨h.status.1 hb, h.status.2 (h.status.1 hb)⟩
  operands := h.operands
  clLens := h.clLens
  output := h.output
  roots := h.roots

theorem State.Running.inv (h : s.Running) (hc : s.phase = .dynLens → s.CountsOk) : s.Inv where
  params := h.params
  memWf := h.memWf
  bounds := ⟨h.sizes.1, h.sizes.2, BitVec.le_trans h.capacity h.sizes.2⟩
  capacity _ := h.capacity
  cursor _ := inInput_iff.1 h.cursor
  status := ⟨fun _ => h.status.1, fun _ => h.status.2⟩
  operands := h.operands
  clLens := h.clLens
  header := hc
  output := h.output
  roots := h.roots

theorem State.Running.inv_of_phase (h : s.Running) (hp : s.phase ≠ .dynLens) : s.Inv :=
  h.inv fun he => absurd he hp

/-- PHASE, BLK_CNT and the registers of the block headers may take any value, and the trees any other
internal node. -/
theorem State.Running.update (h : s.Running)
    (same : t = { s with
      phase := t.phase, blkCnt := t.blkCnt, bfinal := t.bfinal, btype := t.btype, hlit := t.hlit,
      hdist := t.hdist, hclen := t.hclen, clLens := t.clLens, lens := t.lens, treeLL := t.treeLL,
      treeD := t.treeD, treeCL := t.treeCL })
    (hc : t.clLens.length = 19)
    (hr : t.treeLL.isNode = true ∧ t.treeD.isNode = true ∧ t.treeCL.isNode = true) : t.Running := by
  rw [same]
  exact { h with clLens := hc, roots := hr }

theorem State.Running.of_streamed (h : s.Running) (hst : Streamed s t) : t.Running := by
  obtain ⟨hg, ho, hcap⟩ := hst
  have hcur := (ho h.cursor).2
  have hcap := hcap h.capacity
  have hwf := hg.wf h.memWf.2
  have hout : ∀ a, a < t.outLen.toNat → (t.outMem.get a).isSome = true := by
    intro a ha
    rcases Nat.lt_or_ge a s.outLen.toNat with hlt | hge
    · rw [hg.outside a (.inl hlt)]
      exact h.output a hlt
    · exact hg.filled a hge ha
  obtain ⟨_, _, _, _, _, rfl⟩ := hg.only
  exact { h with memWf := ⟨h.memWf.1, hwf⟩, capacity := hcap, cursor := hcur, output := hout }

theorem State.Running.of_forward (h : s.Running) (hf : Forward s t) : t.Running :=
  h.of_streamed (Streamed.of_forward hf)

theorem State.Running.latchHeader (h : s.Running) (f : Bool) (ty : BitVec 2) :
    (latchHeader f ty s).Running := h.update rfl h.clLens h.roots

theorem State.Running.of_headerRead (h : s.Running) (hr : HeaderRead s t) : t.Running := by
  obtain ⟨v, _, _, _, _, hv, hcl, rfl⟩ := hr
  have hrun := h.of_forward hv
  exact hrun.update rfl (hcl.elim (fun e => e.trans h.clLens) id) hrun.roots

theorem State.Running.of_copyDone (h : s.Running) (hc : CopyDone s t) : t.Running := by
  obtain ⟨u, hg, ho, hcap, rfl⟩ := hc
  have hrun := h.of_streamed ⟨hg, ho, fun _ => hcap⟩
  exact { hrun with operands := ⟨rfl, rfl⟩ }

/-! ### The ways a step ends -/

/-- A command that is over keeps what the invariant asks of an idle machine. -/
theorem State.Running.inv_finished (h : s.Running) (d : Bool) (he : d = false → e = none) :
    ((s.setStatus d e).setPhase .idle).Inv where
  params := h.params
  memWf := h.memWf
  bounds := ⟨h.sizes.1, h.sizes.2, BitVec.le_trans h.capacity h.sizes.2⟩
  capacity := nofun
  cursor := nofun
  status := ⟨nofun, he⟩
  operands := h.operands
  clLens := h.clLens
  header := nofun
  output := h.output
  roots := h.roots

/-- A block is complete: the next header, or the end of the command (R186, R325). -/
theorem State.Running.inv_blockComplete (h : s.Running) : (blockComplete s).Inv := by
  rcases blockComplete_eq s with ⟨-, e⟩ | ⟨-, e⟩ <;> rw [e]
  · have hrun : (s.setBlkCnt (s.blkCnt + 1)).Running := h.update rfl h.clLens h.roots
    exact hrun.inv_finished true nofun
  · have hrun : ((s.setBlkCnt (s.blkCnt + 1)).setPhase .bhdr).Running :=
      h.update rfl h.clLens h.roots
    exact hrun.inv_of_phase nofun

/-- The error entry empties the output and ends the command (R407). -/
theorem State.Inv.raiseError (h : s.Inv) (hu : Failing s u) (k : ErrKind) :
    (raiseError k u).Inv := by
  obtain ⟨hmem, hlen, hcap, hpar⟩ := hu.input
  obtain ⟨hll, hd, hcl⟩ := hu.roots
  exact {
    params := by rw [raiseError_eq]; exact hpar ▸ h.params
    memWf := raiseError_memories_wf k (hmem ▸ h.memWf.1)
    bounds := by
      rw [raiseError_eq]
      dsimp only
      rw [hlen, hcap, hpar]
      exact ⟨h.bounds.1, h.bounds.2.1, Nat.zero_le _⟩
    capacity := nofun
    cursor := nofun
    status := ⟨nofun, nofun⟩
    operands := ⟨rfl, rfl⟩
    clLens := hu.clLens.elim (fun e => e.trans h.clLens) id
    header := nofun
    output := fun _ ha => absurd ha (Nat.not_lt_zero _)
    roots := by
      rw [raiseError_eq]
      dsimp only
      rw [hd, hcl]
      exact ⟨hll h.roots.1, h.roots.2⟩ }

theorem Grows.phase_eq (h : Grows s t) : t.phase = s.phase := by
  obtain ⟨_, _, _, _, _, rfl⟩ := h.only
  rfl

theorem CopyDone.phase_eq (h : CopyDone s t) : t.phase = s.phase := by
  obtain ⟨u, hg, -, -, rfl⟩ := h
  exact hg.phase_eq

/-- Every case of an engine step keeps the invariant. -/
theorem EngineMove.inv (h : EngineMove s t) (hs : s.Inv) : t.Inv := by
  have running : ∀ {p u}, s.phase = p → p ≠ .idle → Forward s u → u.Running :=
    fun hp hne hf => (hs.running (busy_eq_true_of_not_idle (hp ▸ hne))).of_forward hf
  cases h with
  | idle => exact hs
  | failed k u _ hu => exact hs.raiseError hu k
  | zlib u hp hu =>
    have hr := running hp nofun hu
    have ht : (u.setPhase .bhdr).Running := hr.update rfl hr.clLens hr.roots
    exact ht.inv_of_phase nofun
  | stored f u v hp hu _ hv =>
    exact (((running hp nofun hu).latchHeader f 0).of_streamed hv).inv_blockComplete
  | fixed f u hp hu =>
    have hr := running hp nofun hu
    have hll := build_isNode build_fixedLLLens
    have hd := build_isNode build_fixedDLens
    generalize fixedTreeLL = tll, fixedTreeD = td at hll hd ⊢
    have ht := hr.update (t := (((Machine.latchHeader f 1 u).setTreeLL tll).setTreeD td).setPhase .lz)
      rfl hr.clLens ⟨hll, hd, hr.roots.2.2⟩
    exact ht.inv_of_phase nofun
  | dynamic f u v c hp hu _ hv _ hc hcl hn =>
    have hr := ((running hp nofun hu).latchHeader f 2).of_headerRead hv
    have ht := hr.update (t := ((v.setTreeCL c).setLens []).setPhase .dynLens) rfl hcl
      ⟨hr.roots.1, hr.roots.2.1, hn⟩
    obtain ⟨hl, hl', hd, hd'⟩ := hc
    exact ht.inv fun _ => ⟨hl, hl', hd, hd', show 0 < v.hlit.toNat + v.hdist.toNat by omega⟩
  | slots u t l hp hu _ hl ht =>
    have hr := running hp nofun hu
    rcases ht with ⟨rfl, hmore⟩ | ⟨a, b, ha, hb, rfl⟩
    · have ht := hr.update (t := u.setLens l) rfl hr.clLens hr.roots
      obtain ⟨h1, h2, h3, h4, hlt⟩ := hs.header hp
      obtain ⟨hlit, hdist, -⟩ := hu.header_eq
      refine ht.inv fun _ => ?_
      simp only [State.CountsOk, State.setLens_hlit, State.setLens_hdist, State.setLens_lens, hlit,
        hdist] at hmore ⊢
      exact ⟨h1, h2, h3, h4, Nat.lt_of_le_of_ne (hl hlt) hmore⟩
    · have ht := hr.update (t := (((u.setLens l).setTreeLL a).setTreeD b).setPhase .lz) rfl hr.clLens
        ⟨ha, hb, hr.roots.2.2⟩
      exact ht.inv_of_phase nofun
  | eob u hp hu => exact (running hp nofun hu).inv_blockComplete
  | lit u v hp hu _ hv =>
    have hlz : t.phase = .lz := hv.1.phase_eq.trans (hu.phase_eq.trans hp)
    exact ((running hp nofun hu).of_streamed hv).inv_of_phase (by simp [hlz])
  | copy u t hp hu _ ht =>
    have hlz : t.phase = .lz := ht.phase_eq.trans (hu.phase_eq.trans hp)
    exact ((running hp nofun hu).of_copyDone ht).inv_of_phase (by simp [hlz])

/-! ### The host's accesses -/

/-- The state after reset, for every legal choice of the parameters (R44). -/
theorem State.inv_resetWith {p : Params} (hp : p.Legal) : (State.resetWith p).Inv where
  params := hp
  memWf := reset_memories_wf p
  bounds := ⟨Nat.zero_le _, BitVec.le_refl _, Nat.zero_le _⟩
  capacity := nofun
  cursor := nofun
  status := ⟨nofun, fun _ => rfl⟩
  operands := ⟨rfl, rfl⟩
  clLens := List.length_replicate
  header := nofun
  output _ ha := absurd ha (Nat.not_lt_zero _)
  roots := ⟨rfl, rfl, rfl⟩

/-- Fields that only the host reads may take any value. -/
theorem State.Inv.update_host (h : s.Inv)
    (same : t = { s with
      hostQ := t.hostQ, hostRData := t.hostRData, drawIdx := t.drawIdx, epoch := t.epoch }) :
    t.Inv := by
  rw [same]
  exact ⟨h.params, h.memWf, h.bounds, h.capacity, h.cursor, h.status, h.operands, h.clLens, h.header,
    h.output, h.roots⟩

theorem State.Inv.of_hostWrote (h : s.Inv) (hw : HostWrote s t) : t.Inv := by
  have hwf := hw.wf h.memWf
  have hout : ∀ a, a < s.outLen.toNat → (t.outMem.get a).isSome = true :=
    fun a ha => hw.kept a (h.output a ha)
  rw [hw.only]
  exact ⟨h.params, hwf, h.bounds, h.capacity, h.cursor, h.status, h.operands, h.clLens, h.header,
    hout, h.roots⟩

/-- START empties the output and puts the cursor at the start of the input (R320). -/
theorem State.Inv.startCommand (h : s.Inv) : (startCommand s).Inv := by
  have hrun : (Machine.startCommand s).Running := by
    rw [startCommand_eq]
    exact {
      params := h.params
      memWf := h.memWf
      sizes := ⟨h.bounds.1, h.bounds.2.1⟩
      capacity := BitVec.le_def.2 (Nat.zero_le _)
      cursor := by simp [State.InInput, State.pos]
      status := ⟨rfl, rfl⟩
      operands := ⟨rfl, rfl⟩
      clLens := h.clLens
      output := fun _ ha => absurd ha (Nat.not_lt_zero _)
      roots := h.roots }
  exact hrun.inv_of_phase nofun

/-! ### Everything one access of the host can do -/

/-- `P` of the next state, and `S` where there is none. -/
def Answers (o : Host.Outcome State Fault Refusal) (P : State → Prop) (S : Prop) : Prop :=
  match o with
  | .next t => P t
  | _ => S

theorem Answers.mono {o : Host.Outcome State Fault Refusal} {P Q : State → Prop} {S S' : Prop}
    (h : Answers o P S) (hP : ∀ t, P t → Q t) (hS : S → S') : Answers o Q S' := by
  cases o with
  | next t => exact hP t h
  | fault e => exact hS h
  | refused r => exact hS h

theorem Res.sat.answers {x : Res Unit} {P : State → Prop} {S : Prop}
    (h : x.sat (fun _ t => P t) (fun _ _ => False) S) : Answers x.finish P S := by
  cases x with
  | ok a t => exact h
  | raise k t => exact h.elim
  | fault e => exact h
  | refused r => exact h

/-- The access is a START: a word with bit 0 set, written to CTRL at its offset or at a platform
address that leads there (R27, R72). -/
def HostOp.Starts (p : Params) (op : HostOp) : Prop :=
  ∃ v, v.testBit 0 = true ∧ (op = .regWrite 0 4 v ∨
    ∃ addr, p.route addr = some (.reg 0) ∧ op = .busWrite addr 4 v)

/-- Everything a write of a register can do (R27, R29, R30, R35). -/
inductive RegWritten (s : State) (start : Prop) : State → Prop
  | ignored : RegWritten s start s
  | start (hi : s.phase = .idle) (h : start) : RegWritten s start (startCommand s)
  | inLen (v : Word) (hi : s.phase = .idle) :
      RegWritten s start (s.setInLen (wordMin v s.params.inMemSize))
  | outCap (v : Word) (hi : s.phase = .idle) :
      RegWritten s start (s.setOutCap (wordMin v s.params.outMemSize))

/-- Everything one entry of the host's accesses can do. -/
inductive HostMove (op : HostOp) (s : State) : State → Prop
  | engine (t : State) (h : EngineMove s t) : HostMove op s t
  | reset : HostMove op s (applyReset s)
  | read (v d : Nat) : HostMove op s ((s.setHostRData v).setDrawIdx d)
  | reg (t : State) (h : RegWritten s (op.Starts s.params) t) : HostMove op s t
  | write (t : State) (h : HostWrote s t) : HostMove op s t

theorem regWrite_answers {start : Prop} {off : Nat} (v : Word) (s : State)
    (hs : off = 0 → v.getLsbD 0 = true → start) :
    Answers (regWrite off v s) (RegWritten s start) False := by
  by_cases hi : s.phase = .idle
  case neg =>
    rw [regWrite_of_busy (busy_eq_true_of_not_idle hi)]
    exact .ignored
  case pos =>
    have hb := busy_eq_false_of_idle hi
    by_cases h0 : off = 0x00
    · rw [h0, regWrite_ctrl]
      split
      · next hbit =>
        rw [exec_start_of_idle hi]
        exact .start hi (hs h0 hbit)
      · exact .ignored
    · by_cases h8 : off = 0x08
      · rw [h8, regWrite, hb]
        exact .inLen v hi
      · by_cases hC : off = 0x0C
        · rw [hC, regWrite, hb]
          exact .outCap v hi
        · rw [regWrite_of_readOnly h0 h8 hC]
          exact .ignored

theorem hostRegWrite_answers {start : Prop} (off n v : Nat) (s : State)
    (hs : off = 0 → n = 4 → v.testBit 0 = true → start) :
    Answers (hostRegWrite off n v s) (RegWritten s start) False := by
  unfold hostRegWrite
  split
  · next hok =>
    simp only [regAccessOk, Bool.and_eq_true, beq_iff_eq] at hok
    refine regWrite_answers _ s fun h0 hbit => hs h0 hok.1 ?_
    rw [BitVec.getLsbD_ofNat] at hbit
    exact Bool.and_elim_right hbit
  · exact .ignored

theorem hostRegRead_answers (off n : Nat) (s : State) : Answers (hostRegRead off n s)
    (fun t => ∃ v d, t = (s.setHostRData v).setDrawIdx d) False := by
  unfold hostRegRead
  split
  · exact ⟨(regValue off s).toNat, s.drawIdx, rfl⟩
  · exact ⟨_, _, rfl⟩

theorem hostMemRead_answers (sp : Space) (a n : Nat) (s : State) : Answers (hostMemRead sp a n s)
    (fun t => ∃ v d, t = (s.setHostRData v).setDrawIdx d) (¬ a + n ≤ s.params.memSize sp) := by
  refine Res.sat.answers (Res.sat_bind (Res.sat_mono (hostReadBytes_sat sp a n s) (fun _ _ h => h)
    (fun _ _ h => h) ?_) ?_)
  · rintro ⟨k, hk, hout⟩
    unfold Params.hasByte at hout
    omega
  · rintro l _ ⟨d, rfl⟩
    exact ⟨_, d, rfl⟩

theorem hostMemWrite_answers (sp : Space) (a n v : Nat) (s : State) :
    Answers (hostMemWrite sp a n v s) (HostWrote s) (¬ a + n ≤ s.params.memSize sp) := by
  refine Res.sat.answers (Res.sat_mono (hostWriteBytes_sat sp a _ s) (fun _ _ h => h)
    (fun _ _ h => h) ?_)
  rintro ⟨k, hk, hout⟩
  rw [hostOrder_length, natToBytes_length] at hk
  unfold Params.hasByte at hout
  omega

/-- Why a host step answers no next state: the host names what is not there, or a register is beyond
its memory. -/
def HostStops (op : HostOp) (s : State) : Prop :=
  ¬ op.inRange s.params ∨ s.params.inMemSize < s.inLen ∨ s.params.outMemSize < s.outCap

theorem hostStep_answers (op : HostOp) (s : State) :
    Answers (hostStep op s) (HostMove op s) (HostStops op s) := by
  have read : ∀ t, (∃ v d, t = (s.setHostRData v).setDrawIdx d) → HostMove op s t := by
    rintro t ⟨v, d, rfl⟩
    exact .read v d
  cases op with
  | engine =>
    have hspec := engineStep_spec s
    change Answers (engineStep s) _ _
    cases he : engineStep s <;> rw [he] at hspec
    · exact .engine _ hspec
    · exact .inr hspec
    · exact .inr hspec
  | reset => exact .reset
  | regRead off n => exact (hostRegRead_answers off n s).mono read False.elim
  | regWrite off n v =>
    refine (hostRegWrite_answers off n v s ?_).mono .reg False.elim
    rintro rfl rfl hv
    exact ⟨v, hv, .inl rfl⟩
  | memRead sp a n => exact (hostMemRead_answers sp a n s).mono read .inl
  | memWrite sp a n v => exact (hostMemWrite_answers sp a n v s).mono .write .inl
  | busRead addr n =>
    unfold HostStops
    simp only [hostStep, HostOp.inRange]
    cases hr : s.params.route addr with
    | none => exact .inl id
    | some g =>
      cases g with
      | reg off => exact (hostRegRead_answers off n s).mono read False.elim
      | mem sp a => exact (hostMemRead_answers sp a n s).mono read .inl
  | busWrite addr n v =>
    unfold HostStops
    simp only [hostStep, HostOp.inRange]
    cases hr : s.params.route addr with
    | none => exact .inl id
    | some g =>
      cases g with
      | reg off =>
        refine (hostRegWrite_answers off n v s ?_).mono .reg False.elim
        rintro rfl rfl hv
        exact ⟨v, hv, .inr ⟨addr, hr, rfl⟩⟩
      | mem sp a => exact (hostMemWrite_answers sp a n v s).mono .write .inl

/-! ### The obligations -/

theorem wordMin_le (v size : Word) : wordMin v size ≤ size := by
  unfold wordMin
  split
  · next h => exact h
  · exact BitVec.le_refl _

theorem RegWritten.inv {start : Prop} (h : RegWritten s start t) (hs : s.Inv) : t.Inv := by
  cases h with
  | ignored => exact hs
  | start => exact hs.startCommand
  | inLen v hi =>
    have hb : ¬ (s.setInLen (wordMin v s.params.inMemSize)).busy = true :=
      ne_true_of_eq_false (busy_eq_false_of_idle hi)
    exact ⟨hs.params, hs.memWf, ⟨wordMin_le _ _, hs.bounds.2⟩, hs.capacity, fun h => absurd h hb,
      hs.status, hs.operands, hs.clLens, hs.header, hs.output, hs.roots⟩
  | outCap v hi =>
    have hb : ¬ (s.setOutCap (wordMin v s.params.outMemSize)).busy = true :=
      ne_true_of_eq_false (busy_eq_false_of_idle hi)
    exact ⟨hs.params, hs.memWf, ⟨hs.bounds.1, wordMin_le _ _, hs.bounds.2.2⟩, fun h => absurd h hb,
      hs.cursor, hs.status, hs.operands, hs.clLens, hs.header, hs.output, hs.roots⟩

theorem HostMove.inv {op : HostOp} (h : HostMove op s t) (hs : s.Inv) : t.Inv := by
  cases h with
  | engine t h => exact h.inv hs
  | reset => exact (State.inv_resetWith hs.params).update_host rfl
  | read v d => exact hs.update_host rfl
  | reg t h => exact h.inv hs
  | write t h => exact hs.of_hostWrote h

/-- Everything a step can do: an engine step, or the oldest of the host's accesses. -/
theorem step_answers (s : State) : Answers (step s)
    (fun t => (s.hostQ = [] ∧ EngineMove s t) ∨
      ∃ op q, s.hostQ = op :: q ∧ HostMove op (s.setHostQ q) t)
    ((s.params.inMemSize < s.inLen ∨ s.params.outMemSize < s.outCap) ∨
      ∃ op q, s.hostQ = op :: q ∧ ¬ op.inRange s.params) := by
  unfold step
  cases hq : s.hostQ with
  | nil =>
    have hspec := engineStep_spec s
    dsimp only
    cases he : engineStep s <;> rw [he] at hspec
    · exact .inl ⟨rfl, hspec⟩
    · exact .inl hspec
    · exact .inl hspec
  | cons op q =>
    refine (hostStep_answers op (s.setHostQ q)).mono (fun t ht => .inr ⟨op, q, rfl, ht⟩) ?_
    rintro (hout | hsize)
    · exact .inr ⟨op, q, rfl, hout⟩
    · exact .inl hsize

/-- Settles O56: the default parameters are legal. -/
theorem resetMeetsInvariant : Obligations.ResetMeetsInvariant :=
  ⟨State.inv_resetWith (by decide), fun _ hp => State.inv_resetWith hp⟩

/-- Settles O57: the engine's cases and the host's each keep the invariant, and it does not speak of
the host's coming accesses. -/
theorem stepKeepsInvariant : Obligations.StepKeepsInvariant := by
  intro s t hs h
  have hstep := step_answers s
  rw [h] at hstep
  rcases hstep with ⟨-, hm⟩ | ⟨op, q, -, hm⟩
  · exact hm.inv hs
  · exact hm.inv (hs.update_host rfl)

/-- Settles O58: the invariant keeps the registers within the memories. -/
theorem stepNeverStops : Obligations.StepNeverStops := by
  intro s hs hin
  have hstep := step_answers s
  have hgo : ¬ ((s.params.inMemSize < s.inLen ∨ s.params.outMemSize < s.outCap) ∨
      ∃ op q, s.hostQ = op :: q ∧ ¬ op.inRange s.params) := by
    rintro ((hlt | hlt) | ⟨op, q, hq, hout⟩)
    · exact BitVec.not_lt.2 hs.bounds.1 hlt
    · exact BitVec.not_lt.2 hs.bounds.2.1 hlt
    · exact hout (hin op q hq)
  cases he : step s with
  | next t => exact ⟨t, rfl⟩
  | fault e => rw [he] at hstep; exact absurd hstep hgo
  | refused r => rw [he] at hstep; exact absurd hstep hgo

theorem RegWritten.start_of_leaves_idle {start : Prop} (h : RegWritten s start t)
    (hi : s.phase = .idle) (ht : t.phase ≠ .idle) : start ∧ t.phase = .zhdr := by
  cases h with
  | ignored => exact absurd hi ht
  | start _ h => exact ⟨h, rfl⟩
  | inLen => exact absurd hi ht
  | outCap => exact absurd hi ht

theorem EngineMove.idle_of_idle (h : EngineMove s t) (hi : s.phase = .idle) : t = s := by
  cases h with
  | idle => rfl
  | failed _ _ h => exact absurd hi h
  | zlib _ h | stored _ _ _ h | fixed _ _ h | dynamic _ _ _ _ h | slots _ _ _ h | eob _ h
  | lit _ _ h | copy _ _ h => exact nomatch hi.symm.trans h

/-- Settles O52: of all that a step can do in IDLE, only the start of a command sets PHASE. -/
theorem onlyStartLeavesIdle : Obligations.OnlyStartLeavesIdle := by
  intro s t hi h ht
  have hstep := step_answers s
  rw [h] at hstep
  have engine : ∀ {u}, u.phase = .idle → ¬ EngineMove u t := fun hu hm =>
    ht ((hm.idle_of_idle hu) ▸ hu)
  rcases hstep with ⟨-, hm⟩ | ⟨op, q, hq, hm⟩
  · exact absurd hm (engine hi)
  · cases hm with
    | engine _ hm => exact absurd hm (engine (u := s.setHostQ q) hi)
    | reset => exact absurd rfl ht
    | read => exact absurd hi ht
    | write _ hm => exact absurd (hm.only ▸ hi) ht
    | reg _ hm =>
      obtain ⟨⟨v, hv, hop⟩, hz⟩ := hm.start_of_leaves_idle hi ht
      refine ⟨v, q, hv, hz, ?_⟩
      rcases hop with rfl | ⟨addr, hr, rfl⟩
      · exact .inl hq
      · exact .inr ⟨addr, hr, hq⟩

end Sys2Proof.Machine
end

section
/-! SUPPORT. The obligation about termination (47_stream.md R330): from the invariant every step of a
running command ends it or moves the cursor on, and the cursor stays within the input. -/

namespace Sys2Proof.Machine

variable {s t u : State}

/-! ### Every step ends the command or reads on -/

/-- The command is over, with DONE set. -/
def State.Ended (s : State) : Prop := s.phase = .idle ∧ s.done = true

/-- The command still runs, and the cursor is further on than in `s`. -/
def ReadOn (s t : State) : Prop := t.phase ≠ .idle ∧ s.pos < t.pos

theorem blockComplete_ended_or_readOn (h : s.pos < u.pos) :
    (blockComplete u).Ended ∨ ReadOn s (blockComplete u) := by
  rcases blockComplete_eq u with ⟨-, e⟩ | ⟨-, e⟩ <;> rw [e]
  · exact .inl ⟨rfl, rfl⟩
  · exact .inr ⟨nofun, h⟩

theorem EngineMove.ended_or_readOn (h : EngineMove s t) (hs : s.Inv) (hb : s.busy = true) :
    t.Ended ∨ ReadOn s t := by
  have hrun := hs.running hb
  have hin := hrun.cursor
  have stays : ∀ {p : Phase} {v : State}, s.phase = p → p ≠ .idle → v.phase = s.phase →
      v.phase ≠ .idle :=
    fun hp hne hv => by rwa [hv, hp]
  cases h with
  | idle hi => exact absurd hb (ne_true_of_eq_false (busy_eq_false_of_idle hi))
  | failed k u => exact .inl ⟨rfl, rfl⟩
  | zlib u _ _ ha => exact .inr ⟨nofun, ha.2 hin⟩
  | stored f u v _ _ ha hv =>
    have hl : Ahead s (latchHeader f 0 u) := ha
    exact blockComplete_ended_or_readOn ((hl.trans_onward hv.2.1).2 hin)
  | fixed f u _ _ ha => exact .inr ⟨nofun, ha.2 hin⟩
  | dynamic f u v c _ _ ha _ ho =>
    have hl : Ahead s (latchHeader f 2 u) := ha
    have hv : Ahead s v := hl.trans_onward ho.1
    exact .inr ⟨nofun, hv.2 hin⟩
  | slots u t l hp hu ha _ ht =>
    have hlt := (ha hrun.roots.2.2).2 hin
    rcases ht with ⟨rfl, -⟩ | ⟨_, _, -, -, rfl⟩
    · exact .inr ⟨stays hp nofun hu.phase_eq, hlt⟩
    · exact .inr ⟨nofun, hlt⟩
  | eob u _ _ ha => exact blockComplete_ended_or_readOn ((ha hrun.roots.1).2 hin)
  | lit u v hp hu ha hv =>
    exact .inr ⟨stays hp nofun (hv.1.phase_eq.trans hu.phase_eq),
      ((ha hrun.roots.1).trans_onward hv.2.1).2 hin⟩
  | copy u t hp hu ha ht =>
    have hphase := stays hp nofun (ht.phase_eq.trans hu.phase_eq)
    obtain ⟨v, -, ho, -, rfl⟩ := ht
    have hv : Ahead s v := (ha hrun.operands.1 hrun.roots.1).trans_onward ho
    exact .inr ⟨hphase, hv.2 hin⟩

/-! ### Runs of a machine left to itself -/

theorem run_succ_of_next (h : step s = .next t) (n : Nat) :
    Host.Core.run core (n + 1) s = Host.Core.run core n t := by
  have hstep : core.step s = .next t := h
  simp only [Host.Core.run, hstep]

theorem exists_engineMove (hs : s.Inv) (hq : s.hostQ = []) :
    ∃ t, step s = .next t ∧ EngineMove s t := by
  obtain ⟨t, ht⟩ := stepNeverStops s hs fun op q h => by rw [hq] at h; cases h
  refine ⟨t, ht, engineMove_of_next ?_⟩
  rwa [step, hq] at ht

/-- An idle machine stays as it is (R416). -/
theorem run_of_idle (hi : s.phase = .idle) (hq : s.hostQ = []) (n : Nat) :
    Host.Core.run core n s = .next s := by
  have hstep : step s = .next s := by simp only [step, hq, engineStep, fetch, hi]
  induction n with
  | zero => rfl
  | succ n ih => rw [run_succ_of_next hstep, ih]

/-- One step more than bits are left ends the command. -/
theorem run_ends {n : Nat} (hs : s.Inv) (hq : s.hostQ = []) (hb : s.busy = true)
    (hn : 8 * s.inLen.toNat < s.pos + n) :
    ∃ t, Host.Core.run core n s = .next t ∧ t.Ended := by
  induction n generalizing s with
  | zero =>
    have hin : s.pos ≤ 8 * s.inLen.toNat := (hs.running hb).cursor
    omega
  | succ n ih =>
    obtain ⟨t, hstep, hm⟩ := exists_engineMove hs hq
    obtain ⟨-, hlen, -, -, hqueue, -⟩ := hm.inputKept
    have hq' : t.hostQ = [] := hqueue.trans hq
    rw [run_succ_of_next hstep]
    rcases hm.ended_or_readOn hs hb with hend | ⟨hne, hlt⟩
    · exact ⟨t, run_of_idle hend.1 hq' n, hend⟩
    · exact ih (hm.inv hs) hq' (busy_eq_true_of_not_idle hne) (by rw [hlen]; omega)

/-- Settles O59: at most `8*IN_LEN` bits are left. -/
theorem commandTerminates : Obligations.CommandTerminates := by
  intro s hs hq
  by_cases hi : s.phase = .idle
  case pos =>
    have hb : ¬ s.busy = true := ne_true_of_eq_false (busy_eq_false_of_idle hi)
    exact ⟨s, run_of_idle hi hq _, hi, fun h => absurd h hb⟩
  case neg =>
    obtain ⟨t, hrun, hidle, hdone⟩ := run_ends hs hq (busy_eq_true_of_not_idle hi)
      (n := 8 * s.inLen.toNat + 1) (by omega)
    exact ⟨t, hrun, hidle, fun _ => hdone⟩

end Sys2Proof.Machine
end

section
/-! SUPPORT. The obligation about unread input (30_encoding.md R106, 47_stream.md R327). Each operation is
run twice, on the input and on another one that agrees with it up to byte `b`: where the first run
succeeds with its cursor at most at byte `b`, the second does the same. -/

namespace Sys2Proof.Machine

/-! ### Two inputs that agree up to a byte -/

/-- The state with another input. -/
def State.otherInput (m : Memory) (n : Word) (s : State) : State := (s.setInMem m).setInLen n

variable {m : Memory} {n : Word} {b : Nat}

/-- The input `m` of `n` bytes agrees with that of `s` on the first `b` bytes, which both have. -/
structure Agrees (m : Memory) (n : Word) (b : Nat) (s : State) : Prop where
  quiet : s.Quiet
  inLen : b ≤ s.inLen.toNat
  otherLen : b ≤ n.toNat
  size : n ≤ s.params.inMemSize
  bytes : ∀ a, a < b → (s.otherInput m n).inByte a = s.inByte a

variable {s t u : State}

@[simp] theorem State.otherInput_phase (s : State) : (s.otherInput m n).phase = s.phase := rfl
@[simp] theorem State.otherInput_outMem (s : State) : (s.otherInput m n).outMem = s.outMem := rfl
@[simp] theorem State.otherInput_clLens (s : State) : (s.otherInput m n).clLens = s.clLens := rfl
@[simp] theorem State.otherInput_lens (s : State) : (s.otherInput m n).lens = s.lens := rfl
@[simp] theorem State.otherInput_bfinal (s : State) : (s.otherInput m n).bfinal = s.bfinal := rfl
@[simp] theorem State.otherInput_treeLL (s : State) : (s.otherInput m n).treeLL = s.treeLL := rfl
@[simp] theorem State.otherInput_treeD (s : State) : (s.otherInput m n).treeD = s.treeD := rfl
@[simp] theorem State.otherInput_treeCL (s : State) : (s.otherInput m n).treeCL = s.treeCL := rfl
@[simp] theorem State.otherInput_lenOp (s : State) : (s.otherInput m n).lenOp = s.lenOp := rfl
@[simp] theorem State.otherInput_distOp (s : State) : (s.otherInput m n).distOp = s.distOp := rfl

/-- `t` is `s` but for fields that take no part in reading. -/
def OffStream (s t : State) : Prop :=
  t = { s with
    phase := t.phase, done := t.done, err := t.err, outLen := t.outLen, blkCnt := t.blkCnt,
    bfinal := t.bfinal, btype := t.btype, hlit := t.hlit, hdist := t.hdist, hclen := t.hclen,
    clLens := t.clLens, lens := t.lens, treeLL := t.treeLL, treeD := t.treeD, treeCL := t.treeCL,
    outMem := t.outMem, lenOp := t.lenOp, distOp := t.distOp, drawIdx := t.drawIdx }

theorem OffStream.pos_eq (h : OffStream s t) : t.pos = s.pos := by
  rw [h]
  rfl

theorem Agrees.update (h : Agrees m n b s)
    (same : OffStream s t) :
    Agrees m n b t := by
  rw [same]
  exact ⟨h.quiet, h.inLen, h.otherLen, h.size, h.bytes⟩

/-- Bits up to byte `b` are there in the other input. -/
theorem Agrees.readable_other (h : Agrees m n b s) {k : Nat} (hk : s.pos + k ≤ 8 * b) :
    (s.otherInput m n).Readable k := by
  have hn := h.otherLen
  have hpos : s.pos + k ≤ 8 * n.toNat := by omega
  exact ⟨⟨h.quiet.1, h.size, h.quiet.2.2.1, (Nat.le_add_right _ _).trans hpos⟩, hpos⟩

/-- They are the same bits. -/
theorem Agrees.streamBit_other (h : Agrees m n b s) {k : Nat} (hk : k < 8 * b) :
    (s.otherInput m n).streamBit k = s.streamBit k := by
  rw [State.streamBit, h.bytes (k / 8) (by omega), State.streamBit]

/-! ### Operations that do the same on both inputs -/

/-- Where `x`, run from `s`, succeeds up to byte `b`, `y` does the same on the other input. -/
def SameRes {α : Type} (m : Memory) (n : Word) (b : Nat) (s : State) (x y : Res α) : Prop :=
  Agrees m n b s → ∀ a t, x = .ok a t →
    Agrees m n b t ∧ s.pos ≤ t.pos ∧ (t.pos ≤ 8 * b → y = .ok a (t.otherInput m n))

variable {α β : Type}

theorem SameRes.bind {x y : Res α} {f : α → State → Res β} (hx : SameRes m n b s x y)
    (hf : ∀ a t, SameRes m n b t (f a t) (f a (t.otherInput m n))) :
    SameRes m n b s (x.bind f) (y.bind f) := by
  intro hs c u h
  obtain ⟨a, t, rfl, hc⟩ := Res.bind_eq_ok.1 h
  obtain ⟨ht, hpos, hy⟩ := hx hs a t rfl
  obtain ⟨hu, hpos', hc'⟩ := hf a t ht c u hc
  refine ⟨hu, hpos.trans hpos', fun hb => ?_⟩
  rw [hy (hpos'.trans hb), Res.ok_bind, hc' hb]

theorem SameRes.raise (k : ErrKind) (y : Res α) : SameRes m n b s (.raise k t) y := by
  rintro - _ _ ⟨⟩

theorem SameRes.fault (e : Fault) (y : Res α) : SameRes m n b s (.fault e) y := by
  rintro - _ _ ⟨⟩

theorem SameRes.refused (r : Refusal) (y : Res α) : SameRes m n b s (.refused r) y := by
  rintro - _ _ ⟨⟩

theorem SameRes.ite {p q : Prop} [Decidable p] [Decidable q] {x y x' y' : Res α} (hpq : q ↔ p)
    (h : SameRes m n b s x y) (h' : SameRes m n b s x' y') :
    SameRes m n b s (if p then x else x') (if q then y else y') := by
  by_cases hp : p
  · rwa [if_pos hp, if_pos (hpq.2 hp)]
  · rwa [if_neg hp, if_neg (mt hpq.1 hp)]

/-- The value and the fields that take no part in reading. -/
theorem SameRes.update (a : α)
    (same : OffStream s t) :
    SameRes m n b s (.ok a t) (.ok a (t.otherInput m n)) := by
  rintro hs _ _ ⟨⟩
  exact ⟨hs.update same, same.pos_eq.ge, fun _ => rfl⟩

/-- An operation after such an update. -/
theorem SameRes.after_update {x y : Res α} (h : SameRes m n b t x y)
    (same : OffStream s t) :
    SameRes m n b s x y := by
  intro hs a u hx
  have hu := h (hs.update same) a u hx
  rwa [same.pos_eq] at hu

/-! ### The reader -/

theorem readBit_same (s : State) : SameRes m n b s (readBit s) (readBit (s.otherInput m n)) := by
  intro hs a t h
  rcases hs.quiet.readable_or_short 1 with hr | hshort
  · rw [readBit_ok hr] at h
    cases h
    have ht : Agrees m n b (s.atPos (s.pos + 1)) :=
      ⟨hs.quiet.atPos hr.2, hs.inLen, hs.otherLen, hs.size, hs.bytes⟩
    rw [hr.pos_atPos]
    refine ⟨ht, by omega, fun hb => ?_⟩
    have hbit : (s.otherInput m n).streamBit (s.otherInput m n).pos = s.streamBit s.pos :=
      hs.streamBit_other hb
    rw [readBit_ok (hs.readable_other hb), hbit]
    rfl
  · rw [readBit_short hshort] at h
    cases h

theorem readByte_same (s : State) : SameRes m n b s (readByte s) (readByte (s.otherInput m n)) := by
  intro hs a t h
  rcases Nat.lt_or_ge s.alignedByte s.inLen.toNat with hlt | hge
  · rw [readByte_ok hs.quiet hlt] at h
    cases h
    have ht : Agrees m n b (s.setCursor (BitVec.ofNat 32 (s.alignedByte + 1)) 0) :=
      ⟨hs.quiet.afterByte hlt, hs.inLen, hs.otherLen, hs.size, hs.bytes⟩
    have hpos : (s.setCursor (BitVec.ofNat 32 (s.alignedByte + 1)) 0).pos =
        8 * (s.alignedByte + 1) := by
      rw [State.pos_setCursor, BitVec.toNat_ofNat, Nat.mod_eq_of_lt (by omega)]
      rfl
    have hal : s.pos ≤ 8 * s.alignedByte := by
      unfold State.alignedByte
      omega
    rw [hpos]
    refine ⟨ht, by omega, fun hb => ?_⟩
    have hq := (hs.readable_other (k := 0) (by omega)).quiet
    have hlt' : (s.otherInput m n).alignedByte < (s.otherInput m n).inLen.toNat := by
      have := hs.otherLen
      change s.alignedByte < n.toNat
      omega
    have hbyte : (s.otherInput m n).inByte (s.otherInput m n).alignedByte = s.inByte s.alignedByte :=
      hs.bytes s.alignedByte (by omega)
    rw [readByte_ok hq hlt', hbyte]
    rfl
  · rw [readByte_end hs.quiet hge] at h
    cases h

theorem readBitsFrom_same (k i : Nat) (s : State) :
    SameRes m n b s (readBitsFrom k i s) (readBitsFrom k i (s.otherInput m n)) := by
  induction k generalizing i s with
  | zero => exact .update 0 rfl
  | succ k ih =>
    exact (readBit_same s).bind fun c t => (ih (i + 1) t).bind fun v u => .update _ rfl

theorem readBits_same (k : Nat) (s : State) :
    SameRes m n b s (readBits k s) (readBits k (s.otherInput m n)) := by
  unfold readBits
  split
  · exact .refused _ _
  · exact readBitsFrom_same k 0 s

theorem readPlus_same (k base : Nat) (s : State) :
    SameRes m n b s (readPlus k base s) (readPlus k base (s.otherInput m n)) :=
  (readBits_same k s).bind fun _ _ => .update _ rfl

theorem twoBytes_same (f : Byte → Byte → α) (s : State) :
    SameRes m n b s
      ((readByte s).bind fun b0 s1 => (readByte s1).bind fun b1 s2 => .ok (f b0 b1) s2)
      ((readByte (s.otherInput m n)).bind fun b0 s1 =>
        (readByte s1).bind fun b1 s2 => .ok (f b0 b1) s2) :=
  (readByte_same s).bind fun _ t => (readByte_same t).bind fun _ _ => .update _ rfl

theorem read16_same (s : State) : SameRes m n b s (read16 s) (read16 (s.otherInput m n)) :=
  twoBytes_same (fun b0 b1 => b0.toNat + 256 * b1.toNat) s

theorem readZlibH_same (s : State) :
    SameRes m n b s (readZlibH s) (readZlibH (s.otherInput m n)) :=
  twoBytes_same (fun b0 b1 => b0.toNat * 256 + b1.toNat) s

theorem readBlockHeader_same (s : State) :
    SameRes m n b s (readBlockHeader s) (readBlockHeader (s.otherInput m n)) :=
  (readBit_same s).bind fun _ t => (readBits_same 2 t).bind fun _ _ => .update _ rfl

theorem walk_same (tr : Tree) (s : State) :
    SameRes m n b s (walk tr s) (walk tr (s.otherInput m n)) := by
  induction tr generalizing s with
  | absent => exact .raise _ _
  | leaf sym => exact .update sym rfl
  | node c0 c1 ih0 ih1 =>
    refine (readBit_same s).bind fun c t => ?_
    split
    · exact ih1 t
    · exact ih0 t

/-! ### The output -/

theorem drawByte_same (c : Byte) (alts : List Byte) (s : State) :
    SameRes m n b s (drawByte c alts s) (drawByte c alts (s.otherInput m n)) := by
  cases alts with
  | nil => exact .update c rfl
  | cons a l => exact .update _ rfl

theorem readOut_same (a : Nat) (s : State) :
    SameRes m n b s (readOut a s) (readOut a (s.otherInput m n)) := by
  refine .ite Iff.rfl (.fault _ _) ?_
  rw [State.otherInput_outMem]
  cases s.outMem.get a with
  | some c => exact drawByte_same c _ s
  | none => exact .update _ rfl

theorem emit_same (c : Byte) (s : State) :
    SameRes m n b s (emit c s) (emit c (s.otherInput m n)) := by
  have hw : SameRes m n b s (writeOut s.outLen.toNat c s) (writeOut s.outLen.toNat c (s.otherInput m n)) :=
    .ite Iff.rfl (.fault _ _) (.update () rfl)
  exact hw.bind fun _ t => .update () rfl

theorem append_same (c : Byte) (s : State) :
    SameRes m n b s (append c s) (append c (s.otherInput m n)) :=
  .ite Iff.rfl (.raise _ _) (emit_same c s)

theorem copy_same (len dist : Nat) (s : State) :
    SameRes m n b s (copy len dist s) (copy len dist (s.otherInput m n)) := by
  induction len generalizing s with
  | zero => exact .update () rfl
  | succ len ih => exact (readOut_same _ s).bind fun c t => (emit_same c t).bind fun _ u => ih u

/-! ### Blocks -/

theorem blockComplete_same (s : State) : SameRes m n b s (.ok () (blockComplete s))
    (.ok () (blockComplete (s.otherInput m n))) := by
  have he : blockComplete (s.otherInput m n) = (blockComplete s).otherInput m n := by
    cases hf : s.bfinal with
    | false => rw [blockComplete_notFinal hf, blockComplete_notFinal (by simpa using hf)]; rfl
    | true => rw [blockComplete_final hf, blockComplete_final (by simpa using hf)]; rfl
  rw [he]
  refine .update () ?_
  rcases blockComplete_eq s with ⟨-, e⟩ | ⟨-, e⟩ <;> rw [e] <;> rfl

theorem storedData_same (len : Nat) (s : State) :
    SameRes m n b s (storedData len s) (storedData len (s.otherInput m n)) := by
  induction len generalizing s with
  | zero => exact .update () rfl
  | succ len ih => exact (readByte_same s).bind fun c t => (append_same c t).bind fun _ u => ih u

theorem storedBody_same (s : State) :
    SameRes m n b s (storedBody s) (storedBody (s.otherInput m n)) :=
  (read16_same s).bind fun _ t => (read16_same t).bind fun _ u =>
    .ite Iff.rfl (.raise _ _) ((storedData_same _ u).bind fun _ v => blockComplete_same v)

theorem dynCounts_same (s : State) :
    SameRes m n b s (dynCounts s) (dynCounts (s.otherInput m n)) :=
  (readPlus_same 5 257 s).bind fun hlit t =>
    ((readPlus_same 5 1 (t.setHlit (BitVec.ofNat 9 hlit))).after_update rfl).bind fun hdist u =>
      ((readPlus_same 4 4 (u.setHdist (BitVec.ofNat 5 hdist))).after_update rfl).bind fun hclen _ =>
        .ite Iff.rfl (.raise _ _) (.update hclen rfl)

theorem readClLengths_same (ps : List Nat) (s : State) :
    SameRes m n b s (readClLengths ps s) (readClLengths ps (s.otherInput m n)) := by
  induction ps generalizing s with
  | nil => exact .update () rfl
  | cons p ps ih =>
    exact (readBits_same 3 s).bind fun x t =>
      (ih (t.setClLens (t.clLens.set p (BitVec.ofNat 3 x)))).after_update rfl

theorem dynHeader_same (s : State) :
    SameRes m n b s (dynHeader s) (dynHeader (s.otherInput m n)) := by
  refine (dynCounts_same s).bind fun hclen t => ?_
  refine ((readClLengths_same _ (t.setClLens (List.replicate 19 0))).after_update rfl).bind
    fun _ u => ?_
  rw [State.otherInput_clLens]
  cases build (u.clLens.map BitVec.toNat) Config.clMaxBits with
  | none => exact .raise _ _
  | some tr => exact .update () rfl

theorem buildBlockTrees_same (s : State) :
    SameRes m n b s (buildBlockTrees s) (buildBlockTrees (s.otherInput m n)) := by
  have hll : litlenLengths (s.otherInput m n) = litlenLengths s := rfl
  have hd : distLengths (s.otherInput m n) = distLengths s := rfl
  rw [buildBlockTrees, buildBlockTrees, hll, hd]
  cases build (litlenLengths s) Config.maxBits with
  | none => exact .raise _ _
  | some tll =>
    cases build (distLengths s) Config.maxBits with
    | none => exact .raise _ _
    | some td => exact .update () rfl

theorem clEnd_same (s : State) : SameRes m n b s (clEnd s) (clEnd (s.otherInput m n)) :=
  .ite Iff.rfl (buildBlockTrees_same s) (.update () rfl)

theorem repeatLen_same (r : Nat) (v : BitVec 4) (s : State) :
    SameRes m n b s (repeatLen r v s) (repeatLen r v (s.otherInput m n)) :=
  .ite Iff.rfl (.raise _ _) ((clEnd_same (s.setLens (s.lens ++ List.replicate r v))).after_update rfl)

/-! ### Lengths and distances -/

theorem distSym_same (ds : Nat) (s : State) :
    SameRes m n b s (distSym ds s) (distSym ds (s.otherInput m n)) :=
  .ite Iff.rfl (.raise _ _) <| (readPlus_same _ _ s).bind fun _ _ =>
    .ite Iff.rfl (.raise _ _) (.update () rfl)

theorem completeLen_same (s : State) :
    SameRes m n b s (completeLen s) (completeLen (s.otherInput m n)) := by
  simp only [completeLen, State.otherInput_lenOp, State.otherInput_distOp]
  split
  · exact .ite Iff.rfl (.raise _ _) ((copy_same _ _ s).bind fun _ t => .update () rfl)
  · exact .update () rfl

theorem distAndCopy_same (ds : Nat) (s : State) :
    SameRes m n b s (distAndCopy ds s) (distAndCopy ds (s.otherInput m n)) :=
  (distSym_same ds s).bind fun _ t => completeLen_same t

theorem lenInstr_same (sym : Nat) (s : State) :
    SameRes m n b s (lenInstr sym s) (lenInstr sym (s.otherInput m n)) := by
  unfold lenInstr lenHead
  refine ((readPlus_same _ _ s).bind fun len t => ?_).bind fun ds u => distAndCopy_same ds u
  exact (walk_same t.treeD (t.setLenOp (some (BitVec.ofNat 9 len)))).after_update rfl

/-! ### One engine step -/

/-- Where the outcome `o` of a step from `s` is a success up to byte `b`, `o'` is the same on the other
input. -/
def SameStep (m : Memory) (n : Word) (b : Nat) (s : State)
    (o o' : Host.Outcome State Fault Refusal) : Prop :=
  Agrees m n b s → ∀ t, o = .next t → t.err = none →
    s.pos ≤ t.pos ∧ (t.pos ≤ 8 * b → o' = .next (t.otherInput m n))

theorem SameRes.finish {x y : Res Unit} (h : SameRes m n b s x y) :
    SameStep m n b s x.finish y.finish := by
  intro hs t ht herr
  rcases Res.finish_eq_next.1 ht with rfl | ⟨k, u, -, rfl⟩
  · obtain ⟨-, hpos, hy⟩ := h hs () t rfl
    refine ⟨hpos, fun hb => ?_⟩
    rw [hy hb, Res.ok_finish]
  · cases herr

theorem SameStep.raiseError (k : ErrKind) (u : State) (o : Host.Outcome State Fault Refusal) :
    SameStep m n b s (.next (raiseError k u)) o := by
  rintro - _ ⟨⟩ ⟨⟩

/-- The engine fetches an instruction, and runs it. -/
theorem SameStep.engineStep {f : Format} {x y : Res Nat} (hf : fetch s = some (select f x))
    (hf' : fetch (s.otherInput m n) = some (select f y)) (hx : SameRes m n b s x y)
    (hrun : ∀ v t i, decodeSel f v = .ok i →
      SameStep m n b t (exec i t) (exec i (t.otherInput m n))) :
    SameStep m n b s (engineStep s) (engineStep (s.otherInput m n)) := by
  intro hs t ht herr
  rw [Machine.engineStep, hf] at ht
  rw [Machine.engineStep, hf']
  cases x with
  | ok v u =>
    obtain ⟨hu, hpos, hy⟩ := hx hs v u rfl
    simp only [select, Res.ok_bind] at ht ⊢
    cases hd : decodeSel f v with
    | ok i =>
      rw [hd] at ht
      obtain ⟨hpos', ho⟩ := hrun v u i hd hu t ht herr
      refine ⟨hpos.trans hpos', fun hb => ?_⟩
      rw [hy (hpos'.trans hb), Res.ok_bind, hd]
      exact ho hb
    | error e =>
      rw [hd] at ht
      cases ht
      cases herr
  | raise k u =>
    cases ht
    cases herr
  | fault e => cases ht
  | refused r => cases ht

theorem exec_zlib_same {v : Nat} {i : Instr} (hd : decodeSel .zlibHeader v = .ok i) (s : State) :
    SameStep m n b s (exec i s) (exec i (s.otherInput m n)) := by
  obtain ⟨cmf, flg, rfl⟩ := decodeZlib_cases hd
  by_cases h : zlibHdrOk cmf flg = true
  · rw [exec_zlibHdr_of_ok h, exec_zlibHdr_of_ok h]
    exact (SameRes.update (t := s.setPhase .bhdr) () rfl).finish
  · rw [exec_zlibHdr_of_not_ok h]
    exact .raiseError _ _ _

theorem exec_block_same {v : Nat} {i : Instr} (hd : decodeSel .blockHeader v = .ok i) (s : State) :
    SameStep m n b s (exec i s) (exec i (s.otherInput m n)) := by
  obtain ⟨f, rfl | rfl | rfl | rfl⟩ := decodeBlock_cases hd
  · exact ((storedBody_same (latchHeader f 0 s)).after_update rfl).finish
  · rw [exec_blkFixed, exec_blkFixed]
    generalize fixedTreeLL = tll, fixedTreeD = td
    exact (SameRes.update (t := { s with
      bfinal := f, btype := 1, treeLL := tll, treeD := td, phase := .lz }) () rfl).finish
  · exact ((dynHeader_same (latchHeader f 2 s)).after_update rfl).finish
  · exact .raiseError _ _ _

theorem exec_cl_same {v : Nat} {i : Instr} (hd : decodeSel .clSymbol v = .ok i) (s : State) :
    SameStep m n b s (exec i s) (exec i (s.otherInput m n)) := by
  have rep : ∀ k base c, SameStep m n b s
      ((readPlus k base s).bind fun r s1 => repeatLen r c s1).finish
      ((readPlus k base (s.otherInput m n)).bind fun r s1 => repeatLen r c s1).finish :=
    fun k base c => ((readPlus_same k base s).bind fun r t => repeatLen_same r c t).finish
  obtain ⟨len, rfl⟩ | rfl | rfl | rfl := decodeCl_cases hd
  · exact ((clEnd_same (s.setLens (s.lens ++ [len]))).after_update rfl).finish
  · change SameStep m n b s (Res.finish _) (Res.finish _)
    rw [State.otherInput_lens]
    cases s.lens.getLast? with
    | none => exact .raiseError _ _ _
    | some c => exact rep 2 3 c
  · exact rep 3 3 0
  · exact rep 7 11 0

theorem exec_litlen_same {v : Nat} {i : Instr} (hd : decodeSel .litlenSymbol v = .ok i) (s : State) :
    SameStep m n b s (exec i s) (exec i (s.otherInput m n)) := by
  obtain ⟨c, rfl⟩ | rfl | hi | hi := decodeLitlen_cases hd
  · exact (append_same c s).finish
  · exact (blockComplete_same s).finish
  · obtain ⟨idx, hx⟩ := lenInstrs_getElem? hi
    rw [exec_lenInstr hx, exec_lenInstr hx]
    exact (lenInstr_same _ s).finish
  · simp only [llResInstrs, List.mem_cons, List.not_mem_nil, or_false] at hi
    rcases hi with rfl | rfl <;> exact .raiseError _ _ _

theorem exec_dist_same {v : Nat} {i : Instr} (hd : decodeSel .distSymbol v = .ok i) (s : State) :
    SameStep m n b s (exec i s) (exec i (s.otherInput m n)) := by
  rcases decodeDist_cases hd with hi | hi
  · obtain ⟨ds, hx⟩ := distInstrs_getElem? hi
    rw [exec_distInstr hx, exec_distInstr hx]
    exact (distAndCopy_same _ s).finish
  · simp only [distResInstrs, List.mem_cons, List.not_mem_nil, or_false] at hi
    rcases hi with rfl | rfl <;> exact .raiseError _ _ _

theorem engineStep_same (hi : s.phase ≠ .idle) :
    SameStep m n b s (engineStep s) (engineStep (s.otherInput m n)) := by
  cases h : s.phase with
  | idle => exact absurd h hi
  | zhdr =>
    exact .engineStep (by simp [fetch, h]) (by simp [fetch, h]) (readZlibH_same s)
      fun v t i hd => exec_zlib_same hd t
  | bhdr =>
    exact .engineStep (by simp [fetch, h]) (by simp [fetch, h]) (readBlockHeader_same s)
      fun v t i hd => exec_block_same hd t
  | dynLens =>
    exact .engineStep (by simp [fetch, h]) (by simp [fetch, h]) (walk_same s.treeCL s)
      fun v t i hd => exec_cl_same hd t
  | lz =>
    cases hop : s.lenOp with
    | none =>
      exact .engineStep (by simp [fetch, h, hop]) (by simp [fetch, h, hop]) (walk_same s.treeLL s)
        fun v t i hd => exec_litlen_same hd t
    | some l =>
      exact .engineStep (by simp [fetch, h, hop]) (by simp [fetch, h, hop]) (walk_same s.treeD s)
        fun v t i hd => exec_dist_same hd t

/-- Settles O60: a running engine's step is run on both inputs. -/
theorem unreadInputIrrelevant : Obligations.UnreadInputIrrelevant := by
  intro s t m n b hq _ hb hstep herr hpos hlen hn hsize hbytes
  have hi : s.phase ≠ .idle := by
    intro h
    rw [busy_eq_false_of_idle h] at hb
    cases hb
  exact (engineStep_same hi ⟨hq, hlen, hn, hsize, hbytes⟩ t hstep herr).2 hpos

end Sys2Proof.Machine
end

section
/-! SUPPORT. The obligations about the host's accesses (10_state.md R35, R41, 20_memory.md R66 to R76,
70_reset_and_hazards.md R444): reads of the register block, and the host's writes and reads of the
memories. -/

namespace Sys2Proof.Machine

variable {s t : State}

/-! ### Reads of the register block (R35, R66) -/

/-- Every offset from 0x20 upward reads 0. -/
theorem regValue_of_le {off : Nat} (h : 0x20 ≤ off) (s : State) : regValue off s = 0#32 := by
  unfold regValue
  split
  case h_8 => rfl
  all_goals omega

theorem hostStep_regRead_word {off : Nat} (h : off % 4 = 0) (s : State) :
    hostStep (.regRead off 4) s = .next { s with hostRData := (regValue off s).toNat } := by
  have hok : regAccessOk off 4 = true := by simp [regAccessOk, h]
  exact if_pos hok

/-- The window of the register block at its platform address (R35, R72). -/
theorem hostStep_busRead_reg {off : Nat} (h : off < s.params.regWindow) (n : Nat) :
    hostStep (.busRead (s.params.regBase + off) n) s = hostStep (.regRead off n) s := by
  have hr : s.params.route (s.params.regBase + off) = some (.reg off) := Params.route_reg h
  simp only [hostStep, hr]

/-- Settles O40, register by register. -/
theorem registerReads : Obligations.RegisterReads := by
  refine fun s => ⟨?reads, fun off n h => hostStep_busRead_reg h n⟩
  case reads =>
    rintro off v (⟨rfl, rfl⟩ | ⟨rfl, rfl⟩ | ⟨rfl, rfl⟩ | ⟨rfl, rfl⟩ | ⟨rfl, rfl⟩ | ⟨rfl, rfl⟩ |
      ⟨rfl, rfl⟩ | ⟨rfl, rfl⟩ | ⟨hhigh, halign, rfl⟩)
    case inr.inr.inr.inr.inr.inr.inr.inr =>
      rw [hostStep_regRead_word halign, regValue_of_le hhigh]
    all_goals exact hostStep_regRead_word rfl s

/-- Settles O42: the access is not a good one. -/
theorem badRegisterAccess : Obligations.BadRegisterAccess := by
  intro s off n v h
  have hbad : ¬ regAccessOk off n = true := by
    simp only [regAccessOk, Bool.and_eq_true, beq_iff_eq, not_and_or]
    exact h
  exact ⟨if_neg hbad, s.drawIdx + 1, if_neg hbad⟩

/-! ### Platform addresses of the memories (R72, log 23) -/

theorem hostStep_busRead_mem (hp : s.params.Legal) {sp : Space} {a : Nat}
    (h : a < s.params.memSize sp) (n : Nat) :
    hostStep (.busRead (s.params.memAddr sp a) n) s = hostStep (.memRead sp a n) s := by
  simp only [hostStep, Params.route_mem hp h]

theorem hostStep_busWrite_mem (hp : s.params.Legal) {sp : Space} {a : Nat}
    (h : a < s.params.memSize sp) (n v : Nat) :
    hostStep (.busWrite (s.params.memAddr sp a) n v) s = hostStep (.memWrite sp a n v) s := by
  simp only [hostStep, Params.route_mem hp h]

/-! ### Writes of the input (R41, R66) -/

/-- Settles O43: the bytes of the access, in the host's byte order, are written one by one. -/
theorem hostLoadsInput : Obligations.HostLoadsInput := by
  intro s a n v hi hfit
  refine ⟨?bytes, fun hp ha => hostStep_busWrite_mem (sp := .inMem) hp ha n v⟩
  case bytes =>
    have hlen : (hostOrder s.params (natToBytes n v)).length = n := by
      rw [hostOrder_length, natToBytes_length]
    obtain ⟨m, r, hw, hin, hout⟩ := hostWriteBytes_idle hi
      (l := hostOrder s.params (natToBytes n v)) (hlen.symm ▸ hfit)
    rw [hlen] at hout
    refine ⟨m, r, ?_, fun k hk => ?_, hout⟩
    · change (hostWriteBytes .inMem a (hostOrder s.params (natToBytes n v)) s).finish = _
      rw [hw, Res.ok_finish]
      rfl
    · obtain ⟨hbyte, hrace⟩ := hin k (hlen.symm ▸ hk)
      exact ⟨hrace, by rw [hbyte, hostOrder_getElem]⟩

/-! ### Reads of the memories (R42, R70, R445) -/

theorem hostOrder_singleton (p : Params) (b : Byte) : hostOrder p [b] = [b] := by
  unfold hostOrder
  split <;> rfl

theorem hostMemRead_of_ok {sp : Space} {a n : Nat} {l : List Byte}
    (h : hostReadBytes sp a n s = .ok l s) : hostStep (.memRead sp a n) s =
      .next { s with hostRData := bytesToNat (hostOrder s.params l) } := by
  change ((hostReadBytes sp a n s).bind _).finish = _
  rw [h]
  rfl

/-- A read of one byte returns its number, whatever the host's byte order. -/
theorem hostMemRead_byte {sp : Space} {a : Nat} {b : Byte} (h : hostReadByte sp a s = .ok b s) :
    hostStep (.memRead sp a 1) s = .next { s with hostRData := b.toNat } := by
  have hl : hostReadBytes sp a 1 s = .ok [b] s := by
    rw [hostReadBytes, h]
    rfl
  rw [hostMemRead_of_ok hl, hostOrder_singleton]
  rfl

/-- A byte of the result (R445). -/
theorem hostReadByte_result {a : Nat} {b : Byte} (hdef : s.outputDefined = true)
    (hrace : s.outRace = []) (ha : a < s.outLen.toNat) (hlen : s.outLen ≤ s.params.outMemSize)
    (hb : s.outMem.get a = some b) : hostReadByte .outMem a s = .ok b s := by
  have hin : a < s.params.outMemSize.toNat := Nat.lt_of_lt_of_le ha hlen
  simp only [hostReadByte, Nat.not_le.2 hin, hdef, ha, decide_true, Bool.and_self, if_true, if_false]
  exact readOut_ok hrace hin hb

theorem hostReadByte_input {a : Nat} (ha : a < s.params.inMemSize.toNat)
    (hrace : raceAt s.inRace a = []) : hostReadByte .inMem a s = .ok (s.inByte a) s := by
  simp only [hostReadByte, Nat.not_le.2 ha, if_false, hostInByte_of_no_race hrace]

/-- Settles O44: the result, any bytes of the input, a byte of it without a race, and the platform
addresses. -/
theorem hostReadsResult : Obligations.HostReadsResult := by
  refine ⟨fun s a b hi hd he hrace ha hlen hb => ?result, fun s a n hfit => ?again,
    fun s a ha hrace => hostMemRead_byte (hostReadByte_input ha hrace),
    fun s sp a n hp ha => hostStep_busRead_mem hp ha n⟩
  case result =>
    have hdef : s.outputDefined = true := by
      simp [State.outputDefined, busy_eq_false_of_idle hi, hd, he]
    exact hostMemRead_byte (hostReadByte_result hdef hrace ha hlen hb)
  case again =>
    exact ⟨_, hostMemRead_of_ok (hostReadBytes_inMem hfit),
      hostMemRead_of_ok (hostReadBytes_inMem (s := { s with hostRData := _ }) hfit)⟩

/-! ### A race on the input (R444) -/

theorem State.inByte_of_get {a : Nat} {b : Byte} (h : s.inMem.get a = some b) : s.inByte a = b := by
  rw [State.inByte, h, Option.getD_some]

theorem hostStep_memWrite_inMem_busy {a : Nat} (v : Nat) (hb : s.busy = true)
    (ha : a < s.params.inMemSize.toNat) : hostStep (.memWrite .inMem a 1 v) s = .next
      { s with inRace := (a, s.inByte a) :: (a, BitVec.ofNat 8 v) :: s.inRace,
               inMem := s.inMem.set a (BitVec.ofNat 8 v) } := by
  change (hostWriteBytes .inMem a (hostOrder s.params [BitVec.ofNat 8 v]) s).finish = _
  rw [hostOrder_singleton]
  simp only [hostWriteBytes, hostWriteByte, Nat.not_le.2 ha, if_false, hb, if_true]
  rfl

/-- A read of a byte that is there returns what the memory holds or one of the candidates (R444). -/
theorem exists_readIn_eq_ok {a : Nat} (ha : a < s.params.inMemSize.toNat) :
    ∃ b u, readIn a s = .ok b u ∧ (b = s.inByte a ∨ b ∈ raceAt s.inRace a) := by
  have hread := readIn_sat a s
  cases hx : readIn a s with
  | ok b u =>
    rw [hx] at hread
    exact ⟨b, u, rfl, hread.2⟩
  | raise k u => rw [hx] at hread; exact hread.elim
  | fault e => rw [hx] at hread; exact absurd hread (Nat.not_le.2 ha)
  | refused r => rw [hx] at hread; exact absurd hread (Nat.not_le.2 ha)

/-- Settles O45: the candidates of the byte are its old and its new value, and the memory holds the
new one. -/
theorem inputRaceDraws : Obligations.InputRaceDraws := by
  intro s t a v hp hrace ha h
  rw [hostStep_memWrite_inMem_busy v (busy_eq_true_of_not_idle hp) ha, hrace] at h
  obtain ⟨hpar, hraced, hmem, hepoch⟩ : t.params = s.params ∧
      t.inRace = [(a, s.inByte a), (a, BitVec.ofNat 8 v)] ∧
        t.inMem = s.inMem.set a (BitVec.ofNat 8 v) ∧ t.epoch = s.epoch := by
    cases h
    exact ⟨rfl, rfl, rfl, rfl⟩
  have hnew : t.inByte a = BitVec.ofNat 8 v :=
    State.inByte_of_get (by rw [hmem, Memory.get_set_same])
  have hcand : raceAt t.inRace a = [s.inByte a, BitVec.ofNat 8 v] := by simp [raceAt, hraced]
  obtain ⟨b, u, hread, hb⟩ := exists_readIn_eq_ok (hpar.symm ▸ ha)
  rw [hnew, hcand, List.mem_pair] at hb
  refine ⟨b, u, hread, by tauto, fun a' hne => ⟨?_, ?_⟩⟩
  · rw [State.inByte, hmem, Memory.get_set_other _ _ hne, hepoch, State.inByte]
  · simp [raceAt, hraced, Ne.symm hne]

end Sys2Proof.Machine
end

section
/-! SUPPORT. The obligations about BLK_STORED (44_block_decoder.md R182, R406): the header of a stored
block, which of input and capacity its data loop runs out of first, and its frame. -/

namespace Sys2Proof.Machine

variable {s t : State} {k : ErrKind}

/-! ### Failing operations -/

/-- An operation that raises an error ends the command with it (R407). -/
theorem failsAs_of_raise {x : Res Unit} {P : State → Prop} (hx : x = .raise k t) (hP : P t) :
    FailsAs x.finish k P := ⟨t, by rw [hx, Res.raise_finish], hP⟩

/-- What an operation leaves where it raises an error, when it is known to raise one. -/
theorem failsAs_of_sat {x : Res Unit} {P : Unit → State → Prop} {Q : State → Prop} {S : Prop}
    (hx : x.sat P (fun _ t => Q t) S) (h : ∃ t, x = .raise k t) : FailsAs x.finish k Q := by
  obtain ⟨t, ht⟩ := h
  rw [ht] at hx
  exact failsAs_of_raise ht hx

theorem Grows.outputOnly (h : Grows s t) : OutputOnly s t := by
  obtain ⟨bp, bo, d, m, n, rfl⟩ := h.only
  exact ⟨bp, bo, d, m, n, s.lenOp, s.distOp, rfl⟩

theorem Grows.operands_eq (h : Grows s t) : t.lenOp = s.lenOp ∧ t.distOp = s.distOp := by
  obtain ⟨_, _, _, _, _, rfl⟩ := h.only
  exact ⟨rfl, rfl⟩

/-! ### The header of a stored block -/

/-- The 16-bit number whose low byte is input byte `a` (R63). -/
def State.word16 (s : State) (a : Nat) : Nat := (s.inByte a).toNat + 256 * (s.inByte (a + 1)).toNat

/-- LEN and NLEN are there (R182). -/
theorem storedBody_eq (h : s.Quiet) (hb : s.alignedByte + 4 ≤ s.inLen.toNat) : storedBody s =
    if s.word16 (s.alignedByte + 2) = s.word16 s.alignedByte ^^^ 0xFFFF then
      (storedData (s.word16 s.alignedByte)
        (s.setCursor (BitVec.ofNat 32 (s.alignedByte + 4)) 0)).bind fun _ t => .ok () (blockComplete t)
    else .raise .corrupt (s.setCursor (BitVec.ofNat 32 (s.alignedByte + 4)) 0) := by
  have hq : (s.setCursor (BitVec.ofNat 32 (s.alignedByte + 2)) 0).Quiet := h.afterByte (by omega)
  have ha : (s.setCursor (BitVec.ofNat 32 (s.alignedByte + 2)) 0).alignedByte = s.alignedByte + 2 :=
    State.alignedByte_setCursor_zero s (by omega)
  rw [storedBody, read16_ok h (by omega), Res.ok_bind,
    read16_ok hq (by rw [ha, State.setCursor_inLen]; omega), Res.ok_bind, ha]
  simp only [Config.checkNlen, Bool.true_and, bne_iff_ne, ne_eq, ite_not]
  rfl

/-- LEN or NLEN is cut short (R182). -/
theorem storedBody_short (h : s.Quiet) (hb : s.inLen.toNat < s.alignedByte + 4) :
    storedBody s = .raise .outOfData (s.setCursor s.inLen 0) := by
  rw [storedBody]
  rcases Nat.lt_or_ge s.inLen.toNat (s.alignedByte + 2) with hlt | hge
  · rw [read16_short h hlt, Res.raise_bind]
  · have hq : (s.setCursor (BitVec.ofNat 32 (s.alignedByte + 2)) 0).Quiet := h.afterByte hge
    have ha : (s.setCursor (BitVec.ofNat 32 (s.alignedByte + 2)) 0).alignedByte =
        s.alignedByte + 2 := State.alignedByte_setCursor_zero s (by omega)
    rw [read16_ok h hge, Res.ok_bind, read16_short hq (by rw [ha, State.setCursor_inLen]; omega),
      Res.raise_bind]
    rfl

/-! ### The data loop where it does not come to its end (R182, R406) -/

/-- One byte of a stored block copied: the byte `a` appended, and the cursor after it. -/
def State.storeByte (a : Nat) (s : State) : State :=
  ((s.setCursor (BitVec.ofNat 32 (a + 1)) 0).setOutMem (s.outMem.set s.outLen.toNat (s.inByte a))).setOutLen
    (s.outLen + 1)

theorem storedData_succ {a : Nat} (h : s.Quiet) (ha : s.alignedByte = a) (hb : a < s.inLen.toNat)
    (hc : s.outLen.toNat < s.outCap.toNat) (n : Nat) :
    storedData (n + 1) s = storedData n (s.storeByte a) := by
  subst ha
  rw [storedData, readByte_ok h hb, Res.ok_bind,
    append_ok (s := s.setCursor (BitVec.ofNat 32 (s.alignedByte + 1)) 0) _ h.2.2.1 hc, Res.ok_bind]
  rfl

theorem storedData_full {a : Nat} (h : s.Quiet) (ha : s.alignedByte = a) (hb : a < s.inLen.toNat)
    (hc : s.outCap.toNat ≤ s.outLen.toNat) (n : Nat) :
    ∃ t, storedData (n + 1) s = .raise .outOfMemory t := by
  subst ha
  refine ⟨s.setCursor (BitVec.ofNat 32 (s.alignedByte + 1)) 0, ?_⟩
  rw [storedData, readByte_ok h hb, Res.ok_bind,
    append_full (s := s.setCursor (BitVec.ofNat 32 (s.alignedByte + 1)) 0) _ hc, Res.raise_bind]

theorem storedData_end {a : Nat} (h : s.Quiet) (ha : s.alignedByte = a) (hb : s.inLen.toNat ≤ a)
    (n : Nat) : ∃ t, storedData (n + 1) s = .raise .outOfData t := by
  subst ha
  exact ⟨_, by rw [storedData, readByte_end h hb, Res.raise_bind]⟩

/-- The first to run out, of input and capacity, decides the error; the input wins at the same byte. -/
theorem storedData_raises {n a : Nat} (h : s.Quiet) (ha : s.alignedByte = a) :
    (s.inLen.toNat - a < n → s.inLen.toNat - a ≤ s.outCap.toNat - s.outLen.toNat →
      ∃ t, storedData n s = .raise .outOfData t) ∧
    (s.outCap.toNat - s.outLen.toNat < n →
      s.outCap.toNat - s.outLen.toNat < s.inLen.toNat - a →
        ∃ t, storedData n s = .raise .outOfMemory t) := by
  induction n generalizing s a with
  | zero => exact ⟨fun hn => absurd hn (Nat.not_lt_zero _), fun hn => absurd hn (Nat.not_lt_zero _)⟩
  | succ n ih =>
    rcases Nat.lt_or_ge a s.inLen.toNat with hin | hin
    case inr => exact ⟨fun _ _ => storedData_end h ha hin n, fun _ hlt => by omega⟩
    rcases Nat.lt_or_ge s.outLen.toNat s.outCap.toNat with hroom | hroom
    case inr => exact ⟨fun _ hle => by omega, fun _ _ => storedData_full h ha hin hroom n⟩
    have hnext : (s.storeByte a).Quiet := h.afterByte (a := a + 1) hin
    have hal : (s.storeByte a).alignedByte = a + 1 :=
      State.alignedByte_setCursor_zero s (by omega)
    have hlen : (s.storeByte a).outLen.toNat = s.outLen.toNat + 1 := by
      have hcap := s.outCap.isLt
      change (s.outLen + 1).toNat = _
      rw [BitVec.toNat_add]
      exact Nat.mod_eq_of_lt (by simp; omega)
    obtain ⟨hdata, hmem⟩ := ih hnext hal
    rw [hlen] at hdata hmem
    change (s.inLen.toNat - (a + 1) < n → s.inLen.toNat - (a + 1) ≤ s.outCap.toNat - _ → _) at hdata
    change (s.outCap.toNat - _ < n → s.outCap.toNat - _ < s.inLen.toNat - (a + 1) → _) at hmem
    rw [storedData_succ h ha hin hroom]
    exact ⟨fun _ _ => hdata (by omega) (by omega), fun _ _ => hmem (by omega) (by omega)⟩

/-! ### The obligations -/

theorem exec_blkStored (f : Bool) (s : State) :
    exec (.blkStored f) s = (storedBody (latchHeader f 0 s)).finish := rfl

/-- The state after LEN and NLEN, at the first data byte. -/
def State.atData (f : Bool) (s : State) : State :=
  (latchHeader f 0 s).setCursor (BitVec.ofNat 32 (s.alignedByte + 4)) 0

theorem State.Quiet.atData (h : s.Quiet) (f : Bool) (hb : s.alignedByte + 4 ≤ s.inLen.toNat) :
    (s.atData f).Quiet ∧ (s.atData f).pos = 8 * (s.alignedByte + 4) ∧
      (s.atData f).alignedByte = s.alignedByte + 4 := by
  refine ⟨State.Quiet.afterByte (s := latchHeader f 0 s) h hb, ?_,
    State.alignedByte_setCursor_zero (latchHeader f 0 s) (by omega)⟩
  rw [State.atData, State.pos_setCursor, BitVec.toNat_ofNat, Nat.mod_eq_of_lt (by omega)]
  rfl

theorem storedBody_latched (f : Bool) (h : s.Quiet) (hb : s.alignedByte + 4 ≤ s.inLen.toNat) :
    storedBody (latchHeader f 0 s) =
      if s.word16 (s.alignedByte + 2) = s.word16 s.alignedByte ^^^ 0xFFFF then
        (storedData (s.word16 s.alignedByte) (s.atData f)).bind fun _ t => .ok () (blockComplete t)
      else .raise .corrupt (s.atData f) := storedBody_eq (s := latchHeader f 0 s) h hb

/-- Settles O18: LEN and NLEN are read and the data loop comes to its end. -/
theorem storedBlockResult : Obligations.StoredBlockResult := by
  rintro f s len hq rfl hnlen hin hroom
  have hb : s.alignedByte + 4 ≤ s.inLen.toNat := (Nat.le_add_right _ _).trans hin
  have hbody := (storedBody_latched f hq hb).trans (if_pos hnlen)
  obtain ⟨hu, hpos, -⟩ := hq.atData f hb
  obtain ⟨m, hdata, hnew, hold⟩ :=
    storedData_ok (n := s.word16 s.alignedByte) hu hpos hin hroom
  refine ⟨m, ?_, hnew, hold⟩
  rw [exec_blkStored, hbody, hdata]
  rfl

/-- Settles O19: the header, NLEN, and the data loop, which raises the error of what it runs out of
first; the frames are those of any stored block. -/
theorem storedBlockErrors : Obligations.StoredBlockErrors := by
  rintro f s len hq - rfl
  refine ⟨fun hshort => ?header, fun hb => ⟨fun hnlen => ?nlen, fun hnlen => ?data⟩⟩
  case header =>
    exact failsAs_of_raise (storedBody_short (s := latchHeader f 0 s) hq hshort)
      (CursorOnly.setCursor (latchHeader f 0 s) _ _)
  case nlen =>
    exact failsAs_of_raise ((storedBody_latched f hq hb).trans (if_neg hnlen))
      (CursorOnly.setCursor (latchHeader f 0 s) _ _)
  case data =>
    have hbody := (storedBody_latched f hq hb).trans (if_pos hnlen)
    have hfails : ∀ {k}, (∃ t, storedData (s.word16 s.alignedByte) (s.atData f) = .raise k t) →
        FailsAs (exec (.blkStored f) s) k (OutputOnly { s with bfinal := f, btype := 0 }) := by
      rintro k ⟨t, ht⟩
      refine failsAs_of_sat (Res.sat_mono (storedBody_sat (latchHeader f 0 s)) (fun _ _ h => h)
        (fun _ _ h => h.1.outputOnly) id) ⟨t, ?_⟩
      rw [hbody, ht, Res.raise_bind]
    obtain ⟨hu, -, hal⟩ := hq.atData f hb
    obtain ⟨hdata, hmem⟩ := storedData_raises hu hal
    exact ⟨fun hlt hle => hfails (hdata hlt hle), fun hlt hlt' => hfails (hmem hlt hlt')⟩

/-- Settles O48: the output grew from the latched state, whether the block came to its end or not. -/
theorem storedBlockFrame : Obligations.StoredBlockFrame := by
  intro f s t h
  rw [exec_blkStored] at h
  have hsat := storedBody_sat (latchHeader f 0 s)
  rcases Res.finish_eq_next.1 h with hx | ⟨k, u, hx, rfl⟩
  · rw [hx] at hsat
    obtain ⟨u, ⟨hg, -⟩, -, rfl⟩ := hsat
    exact ⟨u, hg.outputOnly, hg.outside, hg.operands_eq.1, hg.operands_eq.2, .inl rfl⟩
  · rw [hx] at hsat
    obtain ⟨hg, -⟩ := hsat
    exact ⟨u, hg.outputOnly, hg.outside, hg.operands_eq.1, hg.operands_eq.2, .inr ⟨k, rfl⟩⟩

end Sys2Proof.Machine
end

section
/-! SUPPORT. The obligations about BLK_DYNAMIC (44_block_decoder.md R184, 46_dynamic_header.md R290 to
R293): the counts, the code-length lengths in their transmission order, the tree built from them, and
where the header is cut short or refused. -/

namespace Sys2Proof.Machine

variable {s t u : State} {k : ErrKind}

/-! ### Fields that take no part in reading -/

theorem OffStream.readable {n : Nat} (h : OffStream s t) (hr : s.Readable n) : t.Readable n := by
  rw [h]
  exact hr

theorem OffStream.short {n : Nat} (h : OffStream s t) (hs : s.Short n) : t.Short n := by
  rw [h]
  exact hs

theorem OffStream.streamField_eq (h : OffStream s t) (k n : Nat) :
    t.streamField k n = s.streamField k n :=
  State.streamField_congr (fun _ => by rw [h]; rfl) k n

/-! ### The counts (R290, R291) -/

/-- HLIT, HDIST and HCLEN of a dynamic header at the cursor. -/
def State.dynHlit (s : State) : Nat := s.streamField s.pos 5 + 257
def State.dynHdist (s : State) : Nat := s.streamField (s.pos + 5) 5 + 1
def State.dynHclen (s : State) : Nat := s.streamField (s.pos + 10) 4 + 4

/-- The state once the three counts are read. -/
def State.afterCounts (s : State) : State :=
  (((s.atPos (s.pos + 14)).setHlit (BitVec.ofNat 9 s.dynHlit)).setHdist
    (BitVec.ofNat 5 s.dynHdist)).setHclen (BitVec.ofNat 5 s.dynHclen)

theorem State.dynHclen_le (s : State) : s.dynHclen ≤ 19 := by
  have h := s.streamField_lt (s.pos + 10) 4
  unfold State.dynHclen
  omega

/-- The state once HLIT is read, and once HDIST is. -/
def State.afterHlit (s : State) : State :=
  (s.atPos (s.pos + 5)).setHlit (BitVec.ofNat 9 s.dynHlit)
def State.afterHdist (s : State) : State :=
  ((s.atPos (s.pos + 10)).setHlit (BitVec.ofNat 9 s.dynHlit)).setHdist (BitVec.ofNat 5 s.dynHdist)

theorem readHlit_ok (h : s.Readable 5) :
    readPlus 5 257 s = .ok s.dynHlit (s.atPos (s.pos + 5)) := by
  rw [readPlus_ok 257 (by decide) h, Nat.add_comm]
  rfl

theorem readHdist_ok (h : s.Readable 10) : readPlus 5 1 s.afterHlit =
    .ok s.dynHdist ((s.atPos (s.pos + 10)).setHlit (BitVec.ofNat 9 s.dynHlit)) := by
  have h5 : s.Readable 5 := h.mono (by decide)
  have hoff : OffStream (s.atPos (s.pos + 5)) s.afterHlit := rfl
  have hr : s.afterHlit.Readable 5 := hoff.readable (State.Readable.atPos h)
  rw [readPlus_ok 1 (by decide) hr, hoff.pos_eq, h5.pos_atPos, hoff.streamField_eq,
    State.streamField_atPos, Nat.add_comm]
  rfl

theorem readHclen_ok (h : s.Readable 14) : readPlus 4 4 s.afterHdist = .ok s.dynHclen
    (((s.atPos (s.pos + 14)).setHlit (BitVec.ofNat 9 s.dynHlit)).setHdist
      (BitVec.ofNat 5 s.dynHdist)) := by
  have h10 : s.Readable 10 := h.mono (by decide)
  have hoff : OffStream (s.atPos (s.pos + 10)) s.afterHdist := rfl
  have hr : s.afterHdist.Readable 4 := hoff.readable (State.Readable.atPos h)
  rw [readPlus_ok 4 (by decide) hr, hoff.pos_eq, h10.pos_atPos, hoff.streamField_eq,
    State.streamField_atPos, Nat.add_comm]
  rfl

/-- The counts are there: they are accepted or not (R291). -/
theorem dynCounts_eq (h : s.Readable 14) : dynCounts s =
    if (decide (286 < s.dynHlit) || decide (30 < s.dynHdist)) = true then .raise .corrupt s.afterCounts
    else .ok s.dynHclen s.afterCounts := by
  rw [dynCounts, readHlit_ok (h.mono (by decide)), Res.ok_bind]
  change ((readPlus 5 1 s.afterHlit).bind _) = _
  rw [readHdist_ok (h.mono (by decide)), Res.ok_bind]
  change ((readPlus 4 4 s.afterHdist).bind _) = _
  rw [readHclen_ok h, Res.ok_bind]
  rfl

theorem dynCounts_ok (h : s.Readable 14) (hl : s.dynHlit ≤ 286) (hd : s.dynHdist ≤ 30) :
    dynCounts s = .ok s.dynHclen s.afterCounts := by
  rw [dynCounts_eq h, if_neg (by simp [hl, hd])]

theorem dynCounts_corrupt (h : s.Readable 14) (hr : 286 < s.dynHlit ∨ 30 < s.dynHdist) :
    dynCounts s = .raise .corrupt s.afterCounts := by
  rw [dynCounts_eq h, if_pos (by simpa using hr)]

/-- The count fields are cut short (R290). -/
theorem dynCounts_short (h : s.Short 14) : ∃ t, dynCounts s = .raise .outOfData t := by
  rw [dynCounts]
  rcases h.1.readable_or_short 5 with h5 | h5
  case inr => exact ⟨_, by rw [readPlus_short _ (by decide) h5, Res.raise_bind]⟩
  rw [readHlit_ok h5, Res.ok_bind]
  change ∃ t, ((readPlus 5 1 s.afterHlit).bind _) = _
  rcases h.1.readable_or_short 10 with h10 | h10
  case inr =>
    have hoff : OffStream (s.atPos (s.pos + 5)) s.afterHlit := rfl
    have hs : s.afterHlit.Short 5 := hoff.short (State.Short.atPos h10 h5)
    exact ⟨_, by rw [readPlus_short _ (by decide) hs, Res.raise_bind]⟩
  rw [readHdist_ok h10, Res.ok_bind]
  have hoff : OffStream (s.atPos (s.pos + 10)) s.afterHdist := rfl
  have hs : s.afterHdist.Short 4 := hoff.short (State.Short.atPos h h10)
  change ∃ t, ((readPlus 4 4 s.afterHdist).bind _) = _
  exact ⟨_, by rw [readPlus_short _ (by decide) hs, Res.raise_bind]⟩

/-! ### The code-length lengths (R292) -/

/-- `CL_LENS` once the lengths at stream position `p` are read for the symbols `ps`, in that order. -/
def fillClLens (s : State) : Nat → List Nat → List (BitVec 3) → List (BitVec 3)
  | _, [], l => l
  | p, j :: js, l => fillClLens s (p + 3) js (l.set j (BitVec.ofNat 3 (s.streamField p 3)))

theorem fillClLens_congr (h : ∀ a, s.inByte a = t.inByte a) (p : Nat) (js : List Nat)
    (l : List (BitVec 3)) : fillClLens s p js l = fillClLens t p js l := by
  induction js generalizing p l with
  | nil => rfl
  | cons j js ih => rw [fillClLens, fillClLens, ih, State.streamField_congr h]

theorem fillClLens_length (s : State) (p : Nat) (js : List Nat) (l : List (BitVec 3)) :
    (fillClLens s p js l).length = l.length := by
  induction js generalizing p l with
  | nil => rfl
  | cons j js ih => rw [fillClLens, ih, List.length_set]

/-- Each symbol has the length read for it, and every other one the length it had. -/
theorem fillClLens_getElem? (s : State) (p : Nat) {js : List Nat} (hnd : js.Nodup)
    {l : List (BitVec 3)} {j : Nat} (hj : j < l.length) : (fillClLens s p js l)[j]? =
      if j ∈ js then some (BitVec.ofNat 3 (s.streamField (p + 3 * js.idxOf j) 3)) else l[j]? := by
  induction js generalizing p l with
  | nil => rfl
  | cons i js ih =>
    obtain ⟨hi, hnd⟩ := List.nodup_cons.1 hnd
    rw [fillClLens, ih _ hnd (by rwa [List.length_set])]
    by_cases hij : i = j
    · subst hij
      rw [if_neg hi, if_pos List.mem_cons_self, List.idxOf_cons_self, List.getElem?_set_self hj]
      rfl
    · have hat : p + 3 + 3 * js.idxOf j = p + 3 * (js.idxOf j + 1) := by omega
      simp only [List.getElem?_set_ne hij, List.idxOf_cons_ne _ hij, List.mem_cons, Ne.symm hij,
        false_or, hat]

theorem readClLengths_ok {js : List Nat} (h : s.Readable (3 * js.length)) :
    readClLengths js s = .ok () ((s.atPos (s.pos + 3 * js.length)).setClLens
      (fillClLens s s.pos js s.clLens)) := by
  induction js generalizing s with
  | nil =>
    rw [readClLengths, List.length_nil, Nat.mul_zero, Nat.add_zero, State.atPos_pos]
    rfl
  | cons j js ih =>
    have hlen : 3 * (j :: js).length = 3 + 3 * js.length := by rw [List.length_cons]; omega
    rw [hlen] at h ⊢
    have h3 : s.Readable 3 := h.mono (by omega)
    let v := (s.atPos (s.pos + 3)).setClLens (s.clLens.set j (BitVec.ofNat 3 (s.streamField s.pos 3)))
    have hoff : OffStream (s.atPos (s.pos + 3)) v := rfl
    have hv : v.Readable (3 * js.length) := hoff.readable (State.Readable.atPos h)
    have hpos : v.pos = s.pos + 3 := hoff.pos_eq.trans h3.pos_atPos
    have hfill : fillClLens v v.pos js v.clLens = fillClLens s s.pos (j :: js) s.clLens := by
      rw [fillClLens_congr (s := v) (t := s) (fun _ => rfl), hpos, fillClLens]
      rfl
    rw [readClLengths, readBits_ok (by decide) h3, Res.ok_bind]
    change readClLengths js v = _
    rw [ih hv, hfill, hpos, Nat.add_assoc]
    rfl

theorem readClLengths_short {js : List Nat} (h : s.Short (3 * js.length)) :
    ∃ t, readClLengths js s = .raise .outOfData t := by
  induction js generalizing s with
  | nil => exact absurd h.2 (Nat.not_lt.2 h.1.pos_le)
  | cons j js ih =>
    have hlen : 3 * (j :: js).length = 3 + 3 * js.length := by rw [List.length_cons]; omega
    rw [hlen] at h
    rw [readClLengths]
    rcases h.1.readable_or_short 3 with h3 | h3
    · rw [readBits_ok (by decide) h3, Res.ok_bind]
      exact ih (State.Short.atPos (m := 3) h h3)
    · exact ⟨_, by rw [readBits_short (by decide) h3, Res.raise_bind]⟩

/-- The lengths of a dynamic header, symbol by symbol (R292, R164). -/
theorem fillClLens_clOrder (s : State) (p n : Nat) :
    fillClLens s p (clOrder.take n) (List.replicate 19 0) =
      (dynClLens s p n).map (BitVec.ofNat 3) := by
  refine List.ext_getElem? fun j => ?_
  rcases Nat.lt_or_ge j 19 with hj | hj
  case inr =>
    rw [List.getElem?_eq_none (by simpa [fillClLens_length] using hj),
      List.getElem?_eq_none (by simpa [dynClLens] using hj)]
  case inl =>
    have hperm : ∀ j < 19, j ∈ clOrder := by decide
    have hmem := List.mem_take_iff_idxOf_lt (n := n) (hperm j hj)
    have hnd : (clOrder.take n).Nodup := List.Nodup.sublist (List.take_sublist n _) (by decide)
    rw [fillClLens_getElem? s p hnd (by simpa using hj)]
    simp only [dynClLens, List.getElem?_map, List.getElem?_range hj, Option.map_some, ← hmem]
    split
    · next hin => rw [(List.take_prefix n clOrder).idxOf_eq_of_mem hin]
    · rw [List.getElem?_replicate_of_lt hj]
      rfl

/-! ### The whole header -/

/-- The lengths that the header transmits. -/
def State.dynLengths (s : State) : List Nat := dynClLens s (s.pos + 14) s.dynHclen

/-- The state once the code-length lengths are read. -/
def State.afterClLens (s : State) : State :=
  (s.afterCounts.atPos (s.pos + 14 + 3 * s.dynHclen)).setClLens (s.dynLengths.map (BitVec.ofNat 3))

/-- A transmitted length has three bits, so its register holds all of it. -/
theorem map_toNat_dynLengths (s : State) :
    (s.dynLengths.map (BitVec.ofNat 3)).map BitVec.toNat = s.dynLengths := by
  rw [List.map_map]
  refine (List.map_congr_left fun x hx => ?_).trans (List.map_id _)
  obtain ⟨j, -, rfl⟩ := List.mem_map.1 hx
  have hlt := s.streamField_lt (s.pos + 14 + 3 * clOrder.idxOf j) 3
  refine Nat.mod_eq_of_lt ?_
  split
  · exact hlt
  · decide

theorem offStream_afterCounts (s : State) (l : List (BitVec 3)) :
    OffStream (s.atPos (s.pos + 14)) (s.afterCounts.setClLens l) := rfl

theorem clOrder_take_length (s : State) : (clOrder.take s.dynHclen).length = s.dynHclen :=
  List.length_take_of_le s.dynHclen_le

theorem readClLengths_header (h : s.Readable (14 + 3 * s.dynHclen)) :
    readClLengths (clOrder.take s.dynHclen) (s.afterCounts.setClLens (List.replicate 19 0)) =
      .ok () s.afterClLens := by
  have h14 : s.Readable 14 := h.mono (by omega)
  have hoff := offStream_afterCounts s (List.replicate 19 0)
  have hpos := hoff.pos_eq.trans h14.pos_atPos
  have hr := hoff.readable (State.Readable.atPos h)
  rw [← clOrder_take_length s] at hr
  have hfill : fillClLens (s.afterCounts.setClLens (List.replicate 19 0)) (s.pos + 14)
      (clOrder.take s.dynHclen) (List.replicate 19 0) = s.dynLengths.map (BitVec.ofNat 3) :=
    (fillClLens_congr (s := s.afterCounts.setClLens (List.replicate 19 0)) (t := s) (fun _ => rfl)
      _ _ _).trans (fillClLens_clOrder s _ _)
  rw [readClLengths_ok hr, hpos, clOrder_take_length, State.setClLens_clLens, hfill]
  rfl

theorem readClLengths_header_short (h : s.Readable 14) (hs : s.Short (14 + 3 * s.dynHclen)) :
    ∃ t, readClLengths (clOrder.take s.dynHclen) (s.afterCounts.setClLens (List.replicate 19 0)) =
      .raise .outOfData t := by
  refine readClLengths_short ?_
  rw [clOrder_take_length]
  exact (offStream_afterCounts s _).short (State.Short.atPos hs h)

theorem dynHeader_ok (h : s.Readable (14 + 3 * s.dynHclen)) (hl : s.dynHlit ≤ 286)
    (hd : s.dynHdist ≤ 30) {c : Tree} (hb : build s.dynLengths 7 = some c) :
    dynHeader s = .ok () (((s.afterClLens.setTreeCL c).setLens []).setPhase .dynLens) := by
  have hbuild : build (s.afterClLens.clLens.map BitVec.toNat) Config.clMaxBits = some c := by
    rw [State.afterClLens, State.setClLens_clLens, map_toNat_dynLengths]
    exact hb
  rw [dynHeader, dynCounts_ok (h.mono (by omega)) hl hd, Res.ok_bind, readClLengths_header h,
    Res.ok_bind, hbuild]

theorem dynHeader_overSubscribed (h : s.Readable (14 + 3 * s.dynHclen)) (hl : s.dynHlit ≤ 286)
    (hd : s.dynHdist ≤ 30) (hb : build s.dynLengths 7 = none) :
    dynHeader s = .raise .corrupt s.afterClLens := by
  have hbuild : build (s.afterClLens.clLens.map BitVec.toNat) Config.clMaxBits = none := by
    rw [State.afterClLens, State.setClLens_clLens, map_toNat_dynLengths]
    exact hb
  rw [dynHeader, dynCounts_ok (h.mono (by omega)) hl hd, Res.ok_bind, readClLengths_header h,
    Res.ok_bind, hbuild]

theorem dynHeader_short_counts (h : s.Short 14) : ∃ t, dynHeader s = .raise .outOfData t := by
  obtain ⟨t, ht⟩ := dynCounts_short h
  exact ⟨t, by rw [dynHeader, ht, Res.raise_bind]⟩

theorem dynHeader_badCounts (h : s.Readable 14) (hr : 286 < s.dynHlit ∨ 30 < s.dynHdist) :
    dynHeader s = .raise .corrupt s.afterCounts := by
  rw [dynHeader, dynCounts_corrupt h hr, Res.raise_bind]

theorem dynHeader_short_lengths (h : s.Readable 14) (hs : s.Short (14 + 3 * s.dynHclen))
    (hl : s.dynHlit ≤ 286) (hd : s.dynHdist ≤ 30) : ∃ t, dynHeader s = .raise .outOfData t := by
  obtain ⟨t, ht⟩ := readClLengths_header_short h hs
  exact ⟨t, by rw [dynHeader, dynCounts_ok h hl hd, Res.ok_bind, ht, Res.raise_bind]⟩

/-! ### The obligations -/

theorem exec_blkDynamic (f : Bool) (s : State) :
    exec (.blkDynamic f) s = (dynHeader (latchHeader f 2 s)).finish := rfl

/-- Settles O21: the counts are accepted and the lengths make a tree. -/
theorem dynamicHeaderResult : Obligations.DynamicHeaderResult := by
  intro f s hlit hdist hclen c hlitEq hdistEq hclenEq h hl hd hb
  have hlitEq : (latchHeader f 2 s).dynHlit = hlit := hlitEq.symm
  have hdistEq : (latchHeader f 2 s).dynHdist = hdist := hdistEq.symm
  have hclenEq : (latchHeader f 2 s).dynHclen = hclen := hclenEq.symm
  have hlens : (latchHeader f 2 s).dynLengths = dynClLens s (s.pos + 14) hclen := by
    rw [State.dynLengths, hclenEq]
    rfl
  rw [exec_blkDynamic, dynHeader_ok (s := latchHeader f 2 s) (by rwa [hclenEq]) (by rwa [hlitEq])
    (by rwa [hdistEq]) (by rwa [hlens]), State.afterClLens, State.afterCounts, hlens, hlitEq, hdistEq,
    hclenEq]
  simp only [latchHeader, State.atPos, State.setCursor, State.setLatches, State.setHlit, State.setHdist,
    State.setHclen, State.setClLens, State.setTreeCL, State.setLens, State.setPhase, Res.ok_finish]
  rfl

theorem HeaderRead.dynHeaderOnly (h : HeaderRead s t) : DynHeaderOnly s t := by
  obtain ⟨_, hl, hd, hc, cl, ⟨⟨bp, bo, d, rfl⟩, -⟩, -, rfl⟩ := h
  exact ⟨bp, bo, d, s.treeCL, hl, hd, hc, cl, s.lens, s.phase, rfl⟩

/-- Settles O22: the frame is that of every header that is refused or cut short (`dynHeader_sat`). -/
theorem dynamicHeaderErrors : Obligations.DynamicHeaderErrors := by
  rintro f s _ _ _ rfl rfl rfl
  have hfails : ∀ {k}, (∃ t, dynHeader (latchHeader f 2 s) = .raise k t) →
      FailsAs (exec (.blkDynamic f) s) k (DynHeaderOnly { s with bfinal := f, btype := 2 }) :=
    failsAs_of_sat (Res.sat_mono (dynHeader_sat (latchHeader f 2 s)) (fun _ _ h => h)
      (fun _ _ h => h.dynHeaderOnly) id)
  refine ⟨fun h => hfails (dynHeader_short_counts (s := latchHeader f 2 s) h), fun h hr => ?counts,
    fun h hs hl hd => hfails (dynHeader_short_lengths (s := latchHeader f 2 s) h hs hl hd),
    fun h hl hd hb => hfails ⟨_, dynHeader_overSubscribed (s := latchHeader f 2 s) h hl hd hb⟩⟩
  case counts =>
    have hx := dynHeader_badCounts (s := latchHeader f 2 s) h hr
    have hsat := dynHeader_sat (latchHeader f 2 s)
    rw [hx] at hsat
    exact failsAs_of_raise hx ⟨hsat.dynHeaderOnly, rfl⟩

end Sys2Proof.Machine
end

section
/-! SUPPORT. The obligations about the repeats of a dynamic header (46_dynamic_header.md R296 to R300),
which are one operation with three sets of numbers, and the frame of all its instructions. -/

namespace Sys2Proof.Machine

variable {s t u : State} {i : Instr} {bits base r : Nat} {v : BitVec 4}

/-! ### One operation for the three repeats -/

/-- `base` plus `bits` extra bits slots filled with `v` (R296, R297, R298). -/
def repeatOp (bits base : Nat) (v : BitVec 4) (s : State) : Res Unit :=
  (readPlus bits base s).bind fun r s1 => repeatLen r v s1

/-- In the first slot there is no previous length (R296). -/
theorem exec_clRep16_first (h : s.lens = []) :
    exec .clRep16 s = .next (raiseError .corrupt s) := by
  change (match s.lens.getLast? with | none => _ | some p => _ : Res Unit).finish = _
  rw [h]
  rfl

theorem exec_clRep16 (h : s.lens.getLast? = some v) :
    exec .clRep16 s = (repeatOp 2 3 v s).finish := by
  change (match s.lens.getLast? with | none => _ | some p => _ : Res Unit).finish = _
  rw [h]
  rfl

/-- The numbers of each repeat. -/
def Repeats (i : Instr) (bits base : Nat) (v : BitVec 4) (s : State) : Prop :=
  (i = .clRep16 ∧ bits = 2 ∧ base = 3 ∧ s.lens.getLast? = some v) ∨
    (i = .clRep17 ∧ bits = 3 ∧ base = 3 ∧ v = 0) ∨ (i = .clRep18 ∧ bits = 7 ∧ base = 11 ∧ v = 0)

theorem Repeats.exec_eq (h : Repeats i bits base v s) : exec i s = (repeatOp bits base v s).finish := by
  obtain ⟨rfl, rfl, rfl, hv⟩ | ⟨rfl, rfl, rfl, rfl⟩ | ⟨rfl, rfl, rfl, rfl⟩ := h
  · exact exec_clRep16 hv
  · rfl
  · rfl

theorem Repeats.bits_le (h : Repeats i bits base v s) : bits ≤ 32 := by
  unfold Repeats at h
  omega

theorem repeatLen_fits (h : s.lens.length + r ≤ s.hlit.toNat + s.hdist.toNat) :
    repeatLen r v s = clEnd (s.setLens (s.lens ++ List.replicate r v)) := if_neg (Nat.not_lt.2 h)

theorem repeatLen_tooLong (h : s.hlit.toNat + s.hdist.toNat < s.lens.length + r) :
    repeatLen r v s = .raise .corrupt s := if_pos h

theorem repeatOp_readable (hb : bits ≤ 32) (h : s.Readable bits) : repeatOp bits base v s =
    repeatLen (base + s.streamField s.pos bits) v (s.atPos (s.pos + bits)) := by
  rw [repeatOp, readPlus_ok base hb h, Res.ok_bind]

theorem repeatOp_short (hb : bits ≤ 32) (h : s.Short bits) :
    repeatOp bits base v s = .raise .outOfData (s.setCursor s.inLen 0) := by
  rw [repeatOp, readPlus_short base hb h, Res.raise_bind]

/-- Settles O34: the extra bits are read, the slots filled, and the step ends. -/
theorem clRepeatResult : Obligations.ClRepeatResult := by
  rintro i bits base r v s hi h rfl hfit
  have hi : Repeats i bits base v s := hi
  have hends : exec i s = clStepEnds (State.atPos (s.pos + bits)
      { s with lens := s.lens ++ List.replicate (base + s.streamField s.pos bits) v }) := by
    rw [hi.exec_eq, repeatOp_readable hi.bits_le h,
      repeatLen_fits (s := s.atPos (s.pos + bits)) hfit, clEnd_finish]
    rfl
  refine ⟨hends, fun hmore => hends.trans (clStepEnds_more ?_)⟩
  simpa using hmore

/-- Settles O35: the first slot, extra bits cut short, and a repeat that is too long. -/
theorem clRepeatErrors : Obligations.ClRepeatErrors := by
  refine ⟨fun s => exec_clRep16_first, fun i bits base s hi => ?_⟩
  obtain ⟨v, hv⟩ : ∃ v, Repeats i bits base v s := by
    rcases hi with ⟨rfl, rfl, rfl, hne⟩ | ⟨rfl, rfl, rfl⟩ | ⟨rfl, rfl, rfl⟩
    · exact ⟨s.lens.getLast hne, .inl ⟨rfl, rfl, rfl, List.getLast?_eq_some_getLast hne⟩⟩
    · exact ⟨0, .inr (.inl ⟨rfl, rfl, rfl, rfl⟩)⟩
    · exact ⟨0, .inr (.inr ⟨rfl, rfl, rfl, rfl⟩)⟩
  rw [hv.exec_eq]
  refine ⟨fun h => ?short, fun h hlong => ?long⟩
  case short => exact failsAs_of_raise (repeatOp_short hv.bits_le h) (CursorOnly.setCursor s _ _)
  case long =>
    exact failsAs_of_raise ((repeatOp_readable hv.bits_le h).trans (repeatLen_tooLong hlong))
      (CursorOnly.setCursor s _ _)

/-! ### The frame of the header's instructions -/

theorem HeaderOnly.of_slotsFilled {l : List (BitVec 4)} (h : CursorOnly s u)
    (ht : SlotsFilled (u.setLens l) t) : HeaderOnly s t := by
  obtain ⟨bp, bo, d, rfl⟩ := h
  rcases ht with ⟨rfl, -⟩ | ⟨a, b, -, -, rfl⟩
  · exact ⟨bp, bo, d, s.treeLL, s.treeD, l, s.phase, rfl⟩
  · exact ⟨bp, bo, d, a, b, l, .lz, rfl⟩

theorem HeaderOnly.of_trees {l : List (BitVec 4)} {a : Tree} (h : CursorOnly s u) :
    HeaderOnly s ((u.setLens l).setTreeLL a) := by
  obtain ⟨bp, bo, d, rfl⟩ := h
  exact ⟨bp, bo, d, a, s.treeD, l, s.phase, rfl⟩

theorem HeaderOnly.of_cursorOnly (h : CursorOnly s u) : HeaderOnly s u := by
  obtain ⟨bp, bo, d, rfl⟩ := h
  exact ⟨bp, bo, d, s.treeLL, s.treeD, s.lens, s.phase, rfl⟩

/-- The frame of a step's operation: `u` is what it left, with or without an error. -/
theorem exists_of_finish {x : Res Unit} {R : State → Prop} {S : Prop}
    (hx : x.sat (fun _ u => R u) (fun _ u => R u) S) (h : x.finish = .next t) :
    ∃ u, R u ∧ (t = u ∨ ∃ k, t = raiseError k u) := by
  rcases Res.finish_eq_next.1 h with rfl | ⟨k, u, rfl, rfl⟩
  · exact ⟨t, hx, .inl rfl⟩
  · exact ⟨u, hx, .inr ⟨k, rfl⟩⟩

theorem clEnd_frame {l : List (BitVec 4)} (h : CursorOnly s u) : (clEnd (u.setLens l)).sat
    (fun _ t => HeaderOnly s t) (fun _ t => HeaderOnly s t) False := by
  refine Res.sat_mono (clEnd_sat _) (fun _ t ht => .of_slotsFilled h ht) ?_ id
  rintro k _ ⟨-, a, -, rfl⟩
  exact .of_trees h

theorem repeatOp_frame (hb : bits ≤ 32) : (repeatOp bits base v s).sat
    (fun _ t => HeaderOnly s t) (fun _ t => HeaderOnly s t) (s.params.inMemSize < s.inLen) := by
  refine Res.sat_bind (Res.sat_mono (readPlus_sat base hb s) (fun _ _ h => h)
    (fun _ _ h => .of_cursorOnly h.2.1) id) ?_
  rintro r u ⟨hu, -⟩
  unfold repeatLen
  split
  · exact .of_cursorOnly hu.1
  · exact Res.sat_mono (clEnd_frame hu.1) (fun _ _ h => h) (fun _ _ h => h) False.elim

/-- Settles O49: the header by `dynHeader_sat`, the code-length instructions by the end of their step. -/
theorem headerInstrFrame : Obligations.HeaderInstrFrame := by
  refine ⟨fun f s t h => ?dynamic, fun i s t hi h => ?codeLengths⟩
  case dynamic =>
    refine exists_of_finish (Res.sat_mono (dynHeader_sat (latchHeader f 2 s)) ?_
      (fun _ _ h => h.dynHeaderOnly) id) h
    rintro - _ ⟨u, c, hu, -, -, -, -, -, -, -, rfl⟩
    obtain ⟨bp, bo, d, -, hl, hd, hc, cl, -, -, rfl⟩ := hu.dynHeaderOnly
    exact ⟨bp, bo, d, c, hl, hd, hc, cl, [], .dynLens, rfl⟩
  case codeLengths =>
    obtain ⟨len, rfl⟩ | rfl | rfl | rfl := hi
    · exact exists_of_finish (clEnd_frame (CursorOnly.refl s)) h
    · cases hv : s.lens.getLast? with
      | none =>
        rw [exec_clRep16_first (List.getLast?_eq_none_iff.1 hv)] at h
        cases h
        exact ⟨s, .of_cursorOnly (CursorOnly.refl s), .inr ⟨_, rfl⟩⟩
      | some v =>
        rw [exec_clRep16 hv] at h
        exact exists_of_finish (repeatOp_frame (by decide)) h
    · exact exists_of_finish (repeatOp_frame (bits := 3) (base := 3) (v := 0) (by decide)) h
    · exact exists_of_finish (repeatOp_frame (bits := 7) (base := 11) (v := 0) (by decide)) h

end Sys2Proof.Machine
end

section
/-! SUPPORT. The obligations about one engine step as the running of the instruction that it fetches
(30_encoding.md R90, 60_exceptions.md R404), the zlib header's checks (R321, R322), and the static
tables (43_static_tables.md). -/

namespace Sys2Proof.Machine

variable {s t : State} {i : Instr}

/-! ### The static tables -/

/-- Settles O5: the tables are written as the spec writes them; the fixed lengths are four runs of one
value, and fill the code space at most. -/
theorem staticTableValues : Obligations.StaticTableValues := by
  refine ⟨fun i hi => ?lengths, fixedLLLens_length, rfl, rfl, rfl, rfl, rfl, rfl, build_fixedLLLens,
    build_fixedDLens⟩
  simp only [fixedLLLens_getD hi, fixedLitlenCode, apply_ite Prod.fst]
  split_ifs <;> omega

/-! ### The zlib header -/

/-- Settles O15, by the four checks of a legal header (`zlibHdrOk_iff`). -/
theorem zlibHdrResult : Obligations.ZlibHdrResult := by
  refine fun cmf flg s => ⟨fun hcm hcinfo hcheck hdict => ?legal, fun hbad => ?illegal⟩
  case legal => exact exec_zlibHdr_of_ok (zlibHdrOk_iff.2 ⟨hcm, hcinfo, hcheck, hdict⟩) s
  case illegal =>
    refine exec_zlibHdr_of_not_ok (fun hok => ?_) s
    obtain ⟨hcm, hcinfo, hcheck, hdict⟩ := zlibHdrOk_iff.1 hok
    rw [hdict] at hbad
    simp only [Bool.false_eq_true, or_false] at hbad
    omega

/-! ### An error while an instruction is fetched -/

/-- An error of the read is the error of the fetch: nothing is selected. -/
theorem engineStep_of_select_raise {f : Format} {x : Res Nat} {k : ErrKind}
    (hf : fetch s = some (select f x)) (hx : x = .raise k t) :
    engineStep s = .next (raiseError k t) :=
  engineStep_of_fetch_raise (by rw [hf, hx, select, Res.raise_bind])

theorem fetch_dynLens (hp : s.phase = .dynLens) :
    fetch s = some (select .clSymbol (walk s.treeCL s)) := by simp only [fetch, hp]

theorem fetch_lz (hp : s.phase = .lz) (hl : s.lenOp = none) :
    fetch s = some (select .litlenSymbol (walk s.treeLL s)) := by simp only [fetch, hp, hl]

theorem fetch_lz_inLength {l : BitVec 9} (hp : s.phase = .lz) (hl : s.lenOp = some l) :
    fetch s = some (select .distSymbol (walk s.treeD s)) := by simp only [fetch, hp, hl]

theorem fetch_bhdr (hp : s.phase = .bhdr) :
    fetch s = some (select .blockHeader (readBlockHeader s)) := by simp only [fetch, hp]

/-- Settles O38: what PHASE has the engine read raises the error. -/
theorem fetchErrorEndsCommand : Obligations.FetchErrorEndsCommand := by
  refine fun s k hq => ⟨fun t hw hp => ?codeLength, fun t hw hp hl => ?litlen, fun hb hp => ?header⟩
  case codeLength => exact engineStep_of_select_raise (fetch_dynLens hp) hw
  case litlen => exact engineStep_of_select_raise (fetch_lz hp hl) hw
  case header =>
    exact ⟨_, engineStep_of_fetch_raise (fetch_zlibHdr_short hp hq hb), CursorOnly.setCursor s _ _⟩

/-! ### The instruction that a step runs -/

/-- A value that decodes is the fetched instruction. -/
theorem engineStep_of_select_ok {f : Format} {x : Res Nat} {v : Nat}
    (hf : fetch s = some (select f x)) (hx : x = .ok v t) (hd : decodeSel f v = .ok i) :
    engineStep s = exec i t :=
  engineStep_of_fetch_ok (by rw [hf, hx, select, Res.ok_bind, hd])

theorem step_of_hostQ_nil (h : s.hostQ = []) : step s = engineStep s := by rw [step, h]

theorem step_of_hostQ_cons {op : HostOp} {q : List HostOp} (h : s.hostQ = op :: q) :
    step s = hostStep op (s.setHostQ q) := by rw [step, h]

/-- A CTRL write that decodes fits a word, and runs its instruction (R27). -/
theorem hostStep_ctrlWrite {v : Nat} (hd : decodeSel .hostCtrl v = .ok i) (s : State) :
    hostStep (.regWrite 0 4 v) s = exec i s := by
  have hfit : v < 2 ^ 32 := by
    by_contra hwide
    rw [decodeSel, decodeCtrl, if_pos (Nat.not_lt.1 hwide)] at hd
    cases hd
  have hv : (BitVec.ofNat 32 v).toNat = v := Nat.mod_eq_of_lt hfit
  calc hostStep (.regWrite 0 4 v) s
    _ = regWrite 0 (BitVec.ofNat 32 v) s := rfl
    _ = exec i s := by rw [regWrite, hv, hd]

/-- Settles O46: the schedule, and PHASE by PHASE what is read and decoded. -/
theorem stepRunsDecodedInstruction : Obligations.StepRunsDecodedInstruction := by
  refine fun s => ⟨step_of_hostQ_nil, fun q h => step_of_hostQ_cons h,
    fun q v i h hd => (step_of_hostQ_cons h).trans (hostStep_ctrlWrite hd _),
    fun i hp hq hb hd => ?zlib, fun i hp hr hd => ?block, fun i n sym hp hr hf hd => ?codeLength,
    fun i n sym hp hl hr hf hd => ?litlen, fun i n sym l hp hl hr hf hd => ?dist⟩
  case zlib =>
    have hi : i = .zlibHdr (s.inByte s.alignedByte) (s.inByte (s.alignedByte + 1)) :=
      Except.ok.inj (hd.symm.trans (decodeSel_zlibH _ _))
    rw [hi]
    exact engineStep_of_fetch_ok (fetch_zlibHdr hp hq hb)
  case block => exact engineStep_of_select_ok (fetch_bhdr hp) (readBlockHeader_ok hr) hd
  case codeLength => exact engineStep_of_select_ok (fetch_dynLens hp) (walk_ok hr hf) hd
  case litlen => exact engineStep_of_fetch_ok (fetch_litlen hp hl hd hr hf)
  case dist => exact engineStep_of_select_ok (fetch_lz_inLength hp hl) (walk_ok hr hf) hd

end Sys2Proof.Machine
end

section
/-! SUPPORT. The obligations about the length and distance instructions (45_lz77.md): the operands and
their ranges, every way a distance ends, the errors in their order, and the frame of the instructions
that write the output. -/

namespace Sys2Proof.Machine

variable {s t u : State} {i : Instr} {k : ErrKind} {idx ds n : Nat}

/-! ### The ranges of the operands (R270) -/

/-- Rows whose intervals follow one another without a gap cover everything between the first row's
base and the last row's end. -/
theorem exists_row (base ext : Nat → Nat) {n x : Nat}
    (hnext : ∀ j < n, base (j + 1) = base j + 2 ^ ext j) (hlo : base 0 ≤ x)
    (hhi : x < base n + 2 ^ ext n) : ∃ j ≤ n, ∃ y < 2 ^ ext j, x = base j + y := by
  induction n with
  | zero => exact ⟨0, le_rfl, x - base 0, by omega, by omega⟩
  | succ n ih =>
    have hlast := hnext n n.lt_succ_self
    rcases Nat.lt_or_ge x (base (n + 1)) with hx | hx
    · obtain ⟨j, hj, hrow⟩ := ih (fun j hj => hnext j (Nat.lt_succ_of_lt hj)) (by omega)
      exact ⟨j, Nat.le_succ_of_le hj, hrow⟩
    · exact ⟨n + 1, le_rfl, x - base (n + 1), by omega, by omega⟩

/-- Settles O32: the rows of LBASE up to symbol 284 and those of DBASE leave no gap. -/
theorem operandRanges : Obligations.OperandRanges := by
  refine ⟨fun s idx h => s.lenAt_range h, fun s ds k h => s.distAt_range h k,
    fun len hlo hhi => ?lengths, fun dist hlo hhi => ?distances, fun s h hx => ⟨?sym284, ?sym285⟩⟩
  case lengths =>
    obtain ⟨idx, hidx, x, hx, hlen⟩ :=
      exists_row lbaseAt lextAt (n := 27) (by decide) hlo (Nat.lt_succ_of_le hhi)
    exact ⟨idx, x, by omega, hx, hlen⟩
  case distances =>
    obtain ⟨ds, hds, y, hy, hdist⟩ :=
      exists_row dbaseAt dextAt (n := 29) (by decide) hlo (Nat.lt_succ_of_le hhi)
    exact ⟨ds, y, by omega, hy, hdist⟩
  case sym284 =>
    have hlen : s.lenAt 27 = 258 := congrArg (227 + ·) hx
    rw [← hlen]
    exact lengthOperand_ok (idx := 27) h
  case sym285 =>
    have hr : s.Readable 0 := h.mono (Nat.zero_le 5)
    have hok : lengthOperand 285 s = .ok 258 (s.atPos s.pos) := lengthOperand_ok (idx := 28) hr
    rwa [State.atPos_pos] at hok

/-! ### The ends of a distance symbol (R203, R205, R206) -/

theorem idx_lt_of_lenInstrs (h : lenInstrs[idx]? = some i) : idx < 29 :=
  (List.getElem?_eq_some_iff.1 h).1

theorem ds_lt_of_distInstrs (h : distInstrs[ds]? = some i) : ds < 30 :=
  (List.getElem?_eq_some_iff.1 h).1

/-- The distance symbols 30 and 31 (R268, R269). -/
theorem distAndCopy_reserved (h : 30 ≤ ds) : distAndCopy ds s = .raise .corrupt s := by
  rw [distAndCopy, distSym, if_pos h, Res.raise_bind]

theorem distAndCopy_short (hds : ds < 30) (h : s.Short (dextAt ds)) :
    distAndCopy ds s = .raise .outOfData (s.setCursor s.inLen 0) := by
  have hx : dextAt ds ≤ 32 := (dextAt_le ds).trans (by decide)
  rw [distAndCopy, distSym, if_neg (Nat.not_le.2 hds), distInstr, distOperand, readPlus_short _ hx h,
    Res.raise_bind, Res.raise_bind]

theorem distAndCopy_tooFar (hds : ds < 30) (h : s.Readable (dextAt ds))
    (hfar : s.outLen.toNat < s.distAt ds s.pos) :
    distAndCopy ds s = .raise .corrupt (s.atPos (s.pos + dextAt ds)) := by
  have hcheck : distTooFar (s.distAt ds s.pos) (s.atPos (s.pos + dextAt ds)) = true := by
    rw [distTooFar_eq]
    exact decide_eq_true hfar
  rw [distAndCopy, distSym, if_neg (Nat.not_le.2 hds), distInstr, distOperand_ok h, Res.ok_bind,
    if_pos hcheck, Res.raise_bind]

/-- The distance is delivered, and the length instruction ends. -/
theorem distAndCopy_eq (hds : ds < 30) (h : s.Readable (dextAt ds))
    (hd : s.distAt ds s.pos ≤ s.outLen.toNat) : distAndCopy ds s = completeLen
      ((s.atPos (s.pos + dextAt ds)).setDistOp (some (BitVec.ofNat 16 (s.distAt ds s.pos)))) := by
  rw [distAndCopy, distSym, if_neg (Nat.not_le.2 hds), distInstr_ok h hd, Res.ok_bind]

/-- With no length in flight there is nothing to copy. -/
theorem completeLen_alone (h : s.lenOp = none) : completeLen s = .ok () s := by
  rw [completeLen, h]

/-- The capacity check comes before the copy (R206). -/
theorem completeLen_full {len : BitVec 9} {dist : BitVec 16} (hl : s.lenOp = some len)
    (hd : s.distOp = some dist) (hf : s.outCap.toNat < s.outLen.toNat + len.toNat) :
    completeLen s = .raise .outOfMemory s := by
  simp only [completeLen, hl, hd, if_pos hf]

/-- Settles O29, by `distAndCopy_ok`. -/
theorem distanceInstrInLength : Obligations.DistanceInstrInLength := by
  intro ds i s len hi hl h hd hf hv
  obtain ⟨m, hm, hc⟩ := distAndCopy_ok (ds_lt_of_distInstrs hi) hl h hd hf hv
  refine ⟨m, ?_, hc⟩
  rw [exec_distInstr hi, hm, Res.ok_finish]
  rfl

/-- Settles O30: the distance is delivered and nothing is in flight to be completed. -/
theorem distanceInstrAlone : Obligations.DistanceInstrAlone := by
  intro ds i s hi hl
  have hds := ds_lt_of_distInstrs hi
  rw [exec_distInstr hi]
  refine ⟨fun h hd => ?result, fun h hfar => ?tooFar, fun h => ?short⟩
  case result =>
    rw [distAndCopy_eq hds h hd, completeLen_alone (s := State.setDistOp _ (s.atPos _)) hl, Res.ok_finish]
    rfl
  case tooFar => exact failsAs_of_raise (distAndCopy_tooFar hds h hfar) (CursorOnly.setCursor s _ _)
  case short => exact failsAs_of_raise (distAndCopy_short hds h) (CursorOnly.setCursor s _ _)

/-! ### A length instruction (R203) -/

/-- Settles O27, by `lenInstr_ok`. -/
theorem lengthInstrResult : Obligations.LengthInstrResult := by
  rintro idx n ds _ i s hi h rfl hd hf hv
  obtain ⟨m, hm, hc⟩ := lenInstr_ok (idx_lt_of_lenInstrs hi) h hd hf hv
  refine ⟨m, ?_, hc⟩
  rw [exec_lenInstr hi, hm, Res.ok_finish]
  rfl

/-- The length in flight takes no part in the walk. -/
theorem walk_setLenOp_raise {tr : Tree} (hq : s.Quiet) (l : Option (BitVec 9))
    (h : walk tr s = .raise k u) : walk tr (s.setLenOp l) = .raise k (u.setLenOp l) := by
  induction tr generalizing s with
  | absent =>
    cases h
    rfl
  | leaf sym => cases h
  | node c0 c1 ih0 ih1 =>
    rw [walk] at h ⊢
    rcases hq.readable_or_short 1 with hr | hs
    · have hr' : (s.setLenOp l).Readable 1 := hr
      have hstate : (s.setLenOp l).atPos ((s.setLenOp l).pos + 1) = (s.atPos (s.pos + 1)).setLenOp l :=
        rfl
      have hbit : (s.setLenOp l).streamBit (s.setLenOp l).pos = s.streamBit s.pos := rfl
      rw [readBit_ok hr, Res.ok_bind] at h
      rw [readBit_ok hr', Res.ok_bind, hstate, hbit]
      split_ifs at h ⊢
      · exact ih1 (hq.atPos hr.2) h
      · exact ih0 (hq.atPos hr.2) h
    · have hs' : (s.setLenOp l).Short 1 := hs
      rw [readBit_short hs, Res.raise_bind] at h
      cases h
      rw [readBit_short hs', Res.raise_bind]
      rfl

/-- The state in which length instruction number `idx` has read its length (R203). -/
def State.afterLength (idx : Nat) (s : State) : State :=
  (s.atPos (s.pos + lextAt idx)).setLenOp (some (BitVec.ofNat 9 (s.lenAt idx)))

/-- The state in which it has read `n` bits of distance code too. -/
def State.afterDistCode (idx n : Nat) (s : State) : State :=
  (s.atPos (s.pos + lextAt idx + n)).setLenOp (some (BitVec.ofNat 9 (s.lenAt idx)))

theorem lenHead_eq (h : s.Readable (lextAt idx)) :
    lenHead (257 + idx) s = walk s.treeD (s.afterLength idx) := by
  rw [lenHead, lengthOperand_ok h, Res.ok_bind]
  rfl

theorem lenInstr_short (h : s.Short (lextAt idx)) :
    lenInstr (257 + idx) s = .raise .outOfData (s.setCursor s.inLen 0) := by
  have hx : lextAt idx ≤ 32 := (lextAt_le idx).trans (by decide)
  rw [lenInstr, lenHead, lengthOperand, Nat.add_sub_cancel_left, readPlus_short _ hx h,
    Res.raise_bind, Res.raise_bind]

/-- Decode's error is the length instruction's (R148, R149). -/
theorem lenInstr_noDistance (h : s.Readable (lextAt idx))
    (hw : walk s.treeD (s.atPos (s.pos + lextAt idx)) = .raise k u) :
    ∃ t, lenInstr (257 + idx) s = .raise k t := by
  have hw' : walk s.treeD (s.afterLength idx) = _ := walk_setLenOp_raise (h.1.atPos h.2) _ hw
  rw [lenInstr, lenHead_eq h, hw', Res.raise_bind]
  exact ⟨_, rfl⟩

/-- Where Decode gives a distance symbol, the rest is that symbol's. -/
theorem lenInstr_eq (h : s.Readable (lextAt idx + n))
    (hf : s.treeD.find (s.streamBits (s.pos + lextAt idx) n) = some ds) :
    lenInstr (257 + idx) s = distAndCopy ds (s.afterDistCode idx n) := by
  have h1 : s.Readable (lextAt idx) := h.mono (Nat.le_add_right _ _)
  have h2 : (s.afterLength idx).Readable n := State.Readable.atPos (s := s) h
  have hpos : (s.afterLength idx).pos = s.pos + lextAt idx := h1.pos_atPos
  have hbits : (s.afterLength idx).streamBits (s.afterLength idx).pos n =
      s.streamBits (s.pos + lextAt idx) n := by
    rw [hpos]
    exact State.streamBits_congr (s := s.afterLength idx) (t := s) (fun _ => rfl) _ _
  rw [lenInstr, lenHead_eq h1, walk_ok h2 (hbits ▸ hf), Res.ok_bind, hpos]
  rfl

/-! The distance's own bits, after the length and the code. -/

theorem pos_afterDistCode (h : s.Readable (lextAt idx + n)) :
    (s.afterDistCode idx n).pos = s.pos + lextAt idx + n := by
  have hpos := h.pos_atPos
  rw [← Nat.add_assoc] at hpos
  exact hpos

theorem readable_afterDistCode {m : Nat} (h : s.Readable (lextAt idx + n + m)) :
    (s.afterDistCode idx n).Readable m := by
  have hr : (s.atPos (s.pos + (lextAt idx + n))).Readable m := State.Readable.atPos h
  rw [← Nat.add_assoc] at hr
  exact hr

theorem short_afterDistCode {m : Nat} (hr : s.Readable (lextAt idx + n))
    (h : s.Short (lextAt idx + n + m)) : (s.afterDistCode idx n).Short m := by
  have hs : (s.atPos (s.pos + (lextAt idx + n))).Short m := State.Short.atPos h hr
  rw [← Nat.add_assoc] at hs
  exact hs

theorem distAt_afterDistCode (h : s.Readable (lextAt idx + n)) :
    (s.afterDistCode idx n).distAt ds (s.afterDistCode idx n).pos =
      s.distAt ds (s.pos + lextAt idx + n) := by
  rw [pos_afterDistCode h, State.distAt, State.distAt,
    State.streamField_congr (s := s.afterDistCode idx n) (t := s) fun _ => rfl]

/-! ### Its frame and its errors -/

theorem OperandsRead.operandsOnly (h : OperandsRead s t) : OperandsOnly s t := by
  obtain ⟨_, l, o, ⟨⟨bp, bo, d, rfl⟩, -⟩, rfl⟩ := h
  exact ⟨bp, bo, d, l, o, rfl⟩

/-- The output's part of the frame: bytes are written from the old `OUT_LEN` to the new one. -/
def OutputFrame (s t : State) : Prop :=
  OutputOnly s t ∧ OutSameOutside s.outLen.toNat t.outLen.toNat s t

theorem Grows.outputFrame (h : Grows s t) : OutputFrame s t := ⟨h.outputOnly, h.outside⟩

theorem CopyDone.outputFrame (h : CopyDone s t) : OutputFrame s t := by
  obtain ⟨u, hu, -, -, rfl⟩ := h
  obtain ⟨bp, bo, d, m, n, l, o, rfl⟩ := hu.outputOnly
  exact ⟨⟨bp, bo, d, m, n, none, none, rfl⟩, hu.outside⟩

/-- The frame of a length instruction. The operation stands in an equation, as in `lenInstr_sat`. -/
theorem lenInstr_frame {sym : Nat} {x : Res Unit} (hx : x = lenInstr sym s) : x.sat
    (fun _ t => OutputFrame s t) (fun _ t => OperandsOnly s t)
    (s.params.inMemSize < s.inLen ∨ s.params.outMemSize < s.outCap) :=
  Res.sat_mono (lenInstr_sat hx) (fun _ _ h => h.outputFrame) (fun _ _ h => h.operandsOnly) id

/-- Whatever error a length instruction raises, only the cursor and the operands had changed. -/
theorem failsAs_lenInstr (hi : lenInstrs[idx]? = some i)
    (h : ∃ t, lenInstr (257 + idx) s = .raise k t) : FailsAs (exec i s) k (OperandsOnly s) := by
  rw [exec_lenInstr hi]
  generalize hx : lenInstr (257 + idx) s = x at h ⊢
  exact failsAs_of_sat (lenInstr_frame hx.symm) h

/-- Settles O28: the length's bits, the code, the symbol, its bits, the distance, the capacity. -/
theorem lengthInstrErrors : Obligations.LengthInstrErrors := by
  rintro idx n ds _ i s hi rfl
  refine ⟨fun h => ?lengthShort, fun k t h hw => ?noDistance, fun h hf => ?_⟩
  case lengthShort => exact failsAs_lenInstr hi ⟨_, lenInstr_short h⟩
  case noDistance => exact failsAs_lenInstr hi (lenInstr_noDistance h hw)
  have heq := lenInstr_eq h hf
  have hdist := distAt_afterDistCode (ds := ds) h
  refine ⟨fun hds => ?reserved, fun hds hs => ?distShort, fun hds hr hfar => ?tooFar,
    fun hds hr hd hfull => ?full⟩
  case reserved => exact failsAs_lenInstr hi ⟨_, heq.trans (distAndCopy_reserved hds)⟩
  case distShort =>
    exact failsAs_lenInstr hi ⟨_, heq.trans (distAndCopy_short hds (short_afterDistCode h hs))⟩
  case tooFar =>
    have hfar' : (s.afterDistCode idx n).outLen.toNat < _ := hdist.symm ▸ hfar
    exact failsAs_lenInstr hi
      ⟨_, heq.trans (distAndCopy_tooFar hds (readable_afterDistCode hr) hfar')⟩
  case full =>
    have hlen := s.lenAt_range (idx_lt_of_lenInstrs hi)
    have hfits : (BitVec.ofNat 9 (s.lenAt idx)).toNat = s.lenAt idx :=
      Nat.mod_eq_of_lt (hlen.2.trans_lt (by decide))
    rw [← hfits] at hfull
    have hd' : _ ≤ (s.afterDistCode idx n).outLen.toNat := hdist.trans_le hd
    exact failsAs_lenInstr hi ⟨_, heq.trans <|
      (distAndCopy_eq hds (readable_afterDistCode hr) hd').trans (completeLen_full rfl rfl hfull)⟩

/-! ### The reserved symbols, and the frame of the instructions that write the output -/

/-- The reserved symbols raise Corrupt where they stand. -/
theorem exec_reserved (h : i ∈ llResInstrs ∨ i ∈ distResInstrs) (s : State) :
    exec i s = (Res.raise .corrupt s : Res Unit).finish := by
  simp only [llResInstrs, distResInstrs, List.mem_cons, List.not_mem_nil, or_false] at h
  obtain (rfl | rfl) | rfl | rfl := h
  · rfl
  · rfl
  · exact congrArg Res.finish (distAndCopy_reserved (ds := 30) (by decide))
  · exact congrArg Res.finish (distAndCopy_reserved (ds := 31) (by decide))

/-- Settles O31. -/
theorem reservedSymbolsResult : Obligations.ReservedSymbolsResult :=
  fun _ s h => (exec_reserved h s).trans (Res.raise_finish _ _)

theorem OutputFrame.of_distance {o : Option (BitVec 16)} (h : Forward s u) :
    OutputFrame s (u.setDistOp o) := by
  obtain ⟨⟨bp, bo, d, rfl⟩, -⟩ := h
  exact ⟨⟨bp, bo, d, s.outMem, s.outLen, s.lenOp, o, rfl⟩, fun _ _ => rfl⟩

theorem OperandsOnly.refl (s : State) : OperandsOnly s s :=
  (OperandsRead.of_forward (Forward.refl s)).operandsOnly

/-- Each of them keeps the frame: `exec` is an operation that does. -/
theorem exec_outputFrame (h : (∃ b, i = .lit b) ∨ i ∈ lenInstrs ∨ i ∈ distInstrs ∨
    i ∈ llResInstrs ∨ i ∈ distResInstrs) (s : State) : ∃ (x : Res Unit) (S : Prop),
      exec i s = x.finish ∧
        x.sat (fun _ t => OutputFrame s t) (fun _ t => OperandsOnly s t) S := by
  rcases h with ⟨b, rfl⟩ | hm | hm | hm
  · refine ⟨append b s, _, rfl, Res.sat_mono (append_sat b s) (fun _ _ h => h.1.outputFrame) ?_ id⟩
    rintro k _ ⟨-, rfl⟩
    exact .refl _
  · obtain ⟨idx, hx⟩ := lenInstrs_getElem? hm
    have hexec := exec_lenInstr hx s
    generalize hop : lenInstr (257 + idx) s = x at hexec
    exact ⟨x, _, hexec, lenInstr_frame hop.symm⟩
  · obtain ⟨ds, hx⟩ := distInstrs_getElem? hm
    refine ⟨_, _, exec_distInstr hx s, Res.sat_mono (distAndCopy_sat ds s) ?_
      (fun _ _ h => h.operandsOnly) id⟩
    rintro - _ (⟨u, o, hu, -, rfl⟩ | hc)
    · exact .of_distance hu
    · exact hc.outputFrame
  · exact ⟨_, False, exec_reserved hm s, OperandsOnly.refl s⟩

/-- Settles O47, by `exec_outputFrame`. -/
theorem outputInstrFrame : Obligations.OutputInstrFrame := by
  intro i s t hi h
  obtain ⟨x, S, hx, hsat⟩ := exec_outputFrame hi s
  rcases Res.finish_eq_next.1 (hx.symm.trans h) with rfl | ⟨k, u, rfl, rfl⟩
  · exact .inl hsat
  · exact .inr ⟨k, u, rfl, hsat⟩

end Sys2Proof.Machine
end
